-- ==== Sys2Proof/Word.lean ====
section
/-! DEFINITION. The widths of the block's values: bytes, 32-bit registers and pixels (`00_scope.md` R13, `10_state.md` R34). -/

namespace Sys2Proof

/-- One byte of a stream, or one 8-bit channel value (R13, R65). -/
abbrev Byte := BitVec 8

/-- One 32-bit register or command word (R13, R37 to R39, R101). -/
abbrev Word := BitVec 32

/-- A pixel: three independent unsigned 8-bit channels, no alpha (R34). -/
structure Pixel where
  r : Byte
  g : Byte
  b : Byte
deriving DecidableEq, Repr, Inhabited

end Sys2Proof
end

