-- ==== Sys2Proof/Config.lean ====
section
/-! DEFINITION. The configuration record of `00_scope.md` R10 to R18: what an implementation fixes and the spec leaves open.
No command and no reset changes it (`10_state.md` R46). -/

namespace Sys2Proof

/-- P_RUN_OVERFLOW: what a run of more than 255 non-terminator tokens decodes to (R16, R223). -/
inductive RunOverflow where
  | wrap
  | saturate
  | fault
deriving DecidableEq, Repr, Inhabited

/-- P_SAVE_EXTENT: which pixels SAVE writes (R18, R172). -/
inductive SaveExtent where
  | sequence
  | dimensions
deriving DecidableEq, Repr, Inhabited

/-- The configuration record (R10, R11, R14 to R18). -/
structure Config where
  /-- SIG: the signature, an opaque byte sequence (R10). -/
  sig : List Byte
  /-- UNIT: the unit token (R11). -/
  unit : List Byte
  /-- TERM: the terminator token (R11). -/
  term : List Byte
  /-- P_MAX_PIXELS: the capacity of PIXBUF (R14). -/
  maxPixels : Nat
  /-- DEFAULT_PIXEL: the value of a slot that growth creates (R15). -/
  defaultPixel : Pixel
  /-- P_RUN_OVERFLOW (R16). -/
  runOverflow : RunOverflow
  /-- P_LOAD_CLEARS (R17). -/
  loadClears : Bool
  /-- P_SAVE_EXTENT (R18). -/
  saveExtent : SaveExtent
deriving DecidableEq, Repr, Inhabited

/-- N: the signature's length in bytes (R10). -/
def Config.sigLen (c : Config) : Nat := c.sig.length

/-- T: the token width in bytes, the common length of UNIT and TERM (R11). -/
def Config.tokenLen (c : Config) : Nat := c.term.length

/-- VERSION: the codec's own format version, fixed at 1 (R12). -/
def Config.version : Word := 1#32

/-- R10: `N >= 1`. -/
def Config.sigOk (c : Config) : Bool := decide (1 ≤ c.sig.length)

/-- R11: `T >= 1`, both tokens exactly `T` bytes. -/
def Config.tokenWidthOk (c : Config) : Bool :=
  decide (1 ≤ c.term.length) && decide (c.unit.length = c.term.length)

/-- R11: `UNIT != TERM`. -/
def Config.tokensDiffer (c : Config) : Bool := decide (c.unit ≠ c.term)

/-- R14: `1 <= P_MAX_PIXELS <= 2^32`. -/
def Config.capacityOk (c : Config) : Bool :=
  decide (1 ≤ c.maxPixels) && decide (c.maxPixels ≤ 2 ^ 32)

/-- The constraints that R10, R11 and R14 put on a configuration. -/
def Config.wf (c : Config) : Bool :=
  c.sigOk && c.tokenWidthOk && c.tokensDiffer && c.capacityOk

/-- A configuration that meets the constraints and stands for nothing else: see `Config.device` (log 2). -/
def Config.fallback : Config where
  sig := [0#8]
  unit := [1#8]
  term := [0#8]
  maxPixels := 1
  defaultPixel := ⟨0, 0, 0⟩
  runOverflow := .fault
  loadClears := false
  saveExtent := .sequence

/-- The configuration of the block, which the spec leaves open (R10 to R18, D26): uninterpreted, no value of it can be proved (log 2). -/
opaque Config.drawn : Config

/-- The configuration of the block after reset: the uninterpreted one, where it meets the constraints of R10, R11 and R14 (log 2). -/
def Config.device : Config :=
  if Config.drawn.wf then Config.drawn else Config.fallback

end Sys2Proof
end

