-- ==== Sys2Proof/Syntax.lean ====
section
/-! DEFINITION. The twelve commands of `30_encoding.md` R104, one constructor per row of the opcode table.
A command has no operand field: its operands come from ARG0 to ARG2 and from its streams (R101, R111). -/

namespace Sys2Proof

/-- The commands of the opcode map (R104). -/
inductive Instr where
  /-- GET_WIDTH, 0x01 (R131). -/
  | getWidth
  /-- GET_HEIGHT, 0x02 (R132). -/
  | getHeight
  /-- GET_PIXEL, 0x03 (R133). -/
  | getPixel
  /-- GET_PIXELS, 0x04 (R134). -/
  | getPixels
  /-- SET_WIDTH, 0x05 (R135). -/
  | setWidth
  /-- SET_HEIGHT, 0x06 (R136). -/
  | setHeight
  /-- SET_PIXEL, 0x07 (R138). -/
  | setPixel
  /-- SET_PIXELS, 0x08 (R137). -/
  | setPixels
  /-- SAVE, 0x09 (R170). -/
  | save
  /-- LOAD, 0x0A (R175). -/
  | load
  /-- ENC_CHANNEL, 0x0B (R227). -/
  | encChannel
  /-- DEC_CHANNEL, 0x0C (R228). -/
  | decChannel
deriving DecidableEq, Repr

end Sys2Proof
end

