-- ==== Sys2Proof/WellFormed.lean ====
section
/-! DEFINITION. What is well-formed: an instruction, a command word (`30_encoding.md` R101, R106, R107) and an assembler operand (R109).
The constraints on a configuration stand beside it, as `Config.wf` (R10, R11, R14). -/

namespace Sys2Proof

/-- A command has no operand, so every one of them is well-formed (R101). -/
def Instr.wf : Instr → Bool
  | .getWidth => true
  | .getHeight => true
  | .getPixel => true
  | .getPixels => true
  | .setWidth => true
  | .setHeight => true
  | .setPixel => true
  | .setPixels => true
  | .save => true
  | .load => true
  | .encChannel => true
  | .decChannel => true

/-- R106: the reserved bits 31:8 of a command word are 0. -/
def reservedClear (w : Word) : Bool := decide (w.toNat / 256 = 0)

/-- R104: the operation code, bits 7:0, is 0x01 to 0x0C. -/
def opcodeKnown (w : Word) : Bool :=
  decide (1 ≤ w.toNat % 256) && decide (w.toNat % 256 ≤ 12)

/-- R107: the legal command words are those with `RSV = 0` and OPC 0x01 to 0x0C. -/
def legalWord (w : Word) : Bool := reservedClear w && opcodeKnown w

/-- R109: `x`, `y`, `w` and `h` are in 0 to 2^32-1. -/
def wordOperandOk (n : Nat) : Bool := decide (n < 2 ^ 32)

/-- R109: `r`, `g`, `b` and `v` are in 0 to 255. -/
def channelOperandOk (n : Nat) : Bool := decide (n < 256)

end Sys2Proof
end

