-- ==== Sys2Proof/Decode.lean ====
section
/-! DEFINITION. Decoding and encoding of command words (`30_encoding.md` R101 to R108). -/

namespace Sys2Proof

/-- Why a command word is illegal; either ends the command with ILLEGAL_CMD (R105, R106). -/
inductive DecodeError where
  /-- RSV, bits 31:8, is not 0 (R106). -/
  | reservedBits
  /-- OPC is 0x00 or 0x0D to 0xFF (R105). -/
  | illegalOpcode
deriving DecidableEq, Repr

/-- OPC, bits 7:0 of a command word (R101). -/
def opc (w : Word) : Byte := w.extractLsb' 0 8

/-- RSV, bits 31:8 of a command word (R101). -/
def rsv (w : Word) : BitVec 24 := w.extractLsb' 8 24

/-- The opcode map (R104). -/
def decodeOpcode (c : Byte) : Except DecodeError Instr :=
  match c.toNat with
  | 0x01 => .ok .getWidth
  | 0x02 => .ok .getHeight
  | 0x03 => .ok .getPixel
  | 0x04 => .ok .getPixels
  | 0x05 => .ok .setWidth
  | 0x06 => .ok .setHeight
  | 0x07 => .ok .setPixel
  | 0x08 => .ok .setPixels
  | 0x09 => .ok .save
  | 0x0A => .ok .load
  | 0x0B => .ok .encChannel
  | 0x0C => .ok .decChannel
  | _ => .error .illegalOpcode

/-- The decoder: one 32-bit word per command (R108), the reserved bits first, whatever the OPC is (R106). -/
def decode (w : Word) : Except DecodeError Instr :=
  if rsv w = 0 then decodeOpcode (opc w) else .error .reservedBits

/-- The operation code of a command (R104). -/
def opcodeOf : Instr → Byte
  | .getWidth => 0x01
  | .getHeight => 0x02
  | .getPixel => 0x03
  | .getPixels => 0x04
  | .setWidth => 0x05
  | .setHeight => 0x06
  | .setPixel => 0x07
  | .setPixels => 0x08
  | .save => 0x09
  | .load => 0x0A
  | .encChannel => 0x0B
  | .decChannel => 0x0C

/-- The command word of a command: RSV = 0 above its OPC (R101, R104). -/
def encode (i : Instr) : Word := (0#24 ++ opcodeOf i : BitVec 32)

/-- The command word that `nbits` bits of `w` stand for, the bits above them 0 (R101). -/
def tableWord (nbits w : Nat) : Word := BitVec.ofNat 32 (w % 2 ^ nbits)

/-- What the decoder reads from the opcode table's number `w` of `nbits` bits; a command word has no more than 32 (R108). -/
def decodeTableWord (nbits w : Nat) : Option Instr :=
  if 32 < nbits then none
  else
    match decode (tableWord nbits w) with
    | .ok i => some i
    | .error _ => none

end Sys2Proof
end

