-- ==== Sys2Proof/Machine/State.lean ====
section
/-! DEFINITION. The state of the block: registers, pixel buffer, decoder state, ports, and what the host does next. -/

namespace Sys2Proof.Machine

open Sys2Proof

/-- The phases of the load state machine (`00_scope.md` R28, `10_state.md` R47). -/
inductive Phase where
  | sig
  | ver
  | wid
  | hgt
  | body
deriving DecidableEq, Repr

/-- The decoder state D of a running LOAD or DEC_CHANNEL (`10_state.md` R47). -/
structure Decoder where
  /-- The field being read. -/
  phase : Phase
  /-- The bytes read so far of the current field or token. -/
  acc : List Byte
  /-- The non-terminator tokens since the last terminator. -/
  run : Nat
  /-- The decoded channels of the current pixel. -/
  ch : List Byte
  /-- The input bytes consumed (R50). -/
  pos : Nat
  /-- The pixels this LOAD has appended. -/
  app : Nat
deriving DecidableEq, Repr

/-- The decoder state at the start of LOAD, `(SIG, [], 0, [], 0, 0)` (R48). -/
def Decoder.loadStart : Decoder := ⟨.sig, [], 0, [], 0, 0⟩

/-- The decoder state at the start of DEC_CHANNEL, `(BODY, [], 0, [], 0, 0)` (R48). -/
def Decoder.channelStart : Decoder := ⟨.body, [], 0, [], 0, 0⟩

/-- What the field holds when no command runs and there is no decoder state (R48; DESIGN CHOICE, log 6). -/
def Decoder.idle : Decoder := ⟨.sig, [], 0, [], 0, 0⟩

/-- The environment's I/O-failure draws for one stream (`20_memory.md` R65; log 5). -/
structure Draws where
  /-- `open_fail`. -/
  openFail : Bool
  /-- The offsets `i` for which `xfer_fail(i)` is true. -/
  xferFail : List Nat
deriving DecidableEq, Repr

/-- No draw is true (R65). -/
def Draws.none : Draws := ⟨false, []⟩

/-- The interface registers that the host addresses (`10_state.md` R37 to R39, `60_exceptions.md` R271). -/
inductive HostReg where
  | arg0
  | arg1
  | arg2
  | result
  | status
deriving DecidableEq, Repr

/-- What the host does, one action a step (`30_encoding.md` R102, R109; log 1). -/
inductive HostAct where
  /-- Write an interface register (R37, R38, R45). -/
  | write (reg : HostReg) (v : Word)
  /-- Put a pixel sequence on PIXIN (R102). -/
  | pixIn (ps : List Pixel)
  /-- Attach an input stream, with the environment's draws (R65). -/
  | attachIn (bytes : List Byte) (d : Draws)
  /-- Attach an empty output stream, with the environment's draws (R65). -/
  | attachOut (d : Draws)
  /-- Issue a command word (R102). -/
  | issue (w : Word)
  /-- Issue a command word and assert reset while the command runs, after at most `n` output bytes (R292; log 8). -/
  | issueReset (w : Word) (n : Nat)
  /-- Issue `second` while the command `first` runs: the overlap that R272 and R296 refuse. -/
  | overlap (first second : Word)
  /-- Assert reset between two commands (R290). -/
  | reset
deriving DecidableEq, Repr

/-- The whole state (`10_state.md` R53), with the decoder state (R47), the ports (R65, R102) and the model's own `inDraws`, `outDraws`, `cfg` and `script`. -/
structure State where
  /-- WIDTH (R32). -/
  width : Word
  /-- HEIGHT (R33). -/
  height : Word
  /-- PIXBUF, slot `k` at index `k`; LEN is its length (R35; log 4). -/
  pixbuf : List Pixel
  /-- ARG0 (R37). -/
  arg0 : Word
  /-- ARG1 (R37). -/
  arg1 : Word
  /-- ARG2 (R37). -/
  arg2 : Word
  /-- RESULT (R38). -/
  result : Word
  /-- STATUS (R39). -/
  status : Word
  /-- D, the decoder state (R47). -/
  dec : Decoder
  /-- IN: the bytes of the attached input stream that are not consumed yet (R65). -/
  input : List Byte
  /-- OUT: the bytes written to the output stream (R65). -/
  output : List Byte
  /-- PIXIN (R102). -/
  pixIn : List Pixel
  /-- PIXOUT (R102). -/
  pixOut : List Pixel
  /-- The model's own: the draws for the attached input stream (R65; log 5). -/
  inDraws : Draws
  /-- The model's own: the draws for the attached output stream (R65; log 5). -/
  outDraws : Draws
  /-- The model's own: the configuration, which nothing writes (R46; log 2). -/
  cfg : Config
  /-- The model's own: what the host does next (R102; log 1). -/
  script : List HostAct
deriving DecidableEq, Repr

/-- Why the machine stops with a fault: never.
A fault of the block is its own sticky STATUS.FAULT, a NEXT state from which reset recovers (`60_exceptions.md` R256, R264, R265; log 3). -/
inductive Fault where
deriving DecidableEq, Repr

/-- Why the model gives no meaning. -/
inductive Refusal where
  /-- An instruction without a meaning yet: raised by an arm of `exec` that is rejected by name; no arm is. Safe: nothing can be proved of it. -/
  | notModelled (mnemonic : String)
  /-- A command issued while another one runs: raised by the host action `overlap` (R272, R296, D27; log 9).
  Unsafe in D27's words: the model says nothing about a run the device could have. -/
  | overlappingCommand
deriving DecidableEq, Repr

/-- The state right after reset (`70_reset_and_hazards.md` R290, `10_state.md` R53): idle, every register 0, PIXBUF empty.
The ports and the script are empty (log 1, 5, 7), and the configuration is the uninterpreted one (log 2). -/
def State.reset : State where
  width := 0
  height := 0
  pixbuf := []
  arg0 := 0
  arg1 := 0
  arg2 := 0
  result := 0
  status := 0
  dec := Decoder.idle
  input := []
  output := []
  pixIn := []
  pixOut := []
  inDraws := Draws.none
  outDraws := Draws.none
  cfg := Config.device
  script := []

end Sys2Proof.Machine
end

