-- ==== Sys2Proof/Machine/Flags.lean ====
section
/-! DEFINITION. The fields of STATUS (`10_state.md` R39 to R45), the numbers of result codes and fault causes, and what sets each flag. -/

namespace Sys2Proof.Machine

open Sys2Proof

/-- The result codes (`60_exceptions.md` R251). -/
inductive ResultCode where
  | ok
  | ioError
  | formatError
  | illegalCmd
deriving DecidableEq, Repr

/-- The fault causes (R257). -/
inductive Cause where
  | oobRead
  | capacity
  | runOverflow
deriving DecidableEq, Repr

/-- The number of a result code (R40, R251). -/
def codeNumber : ResultCode → BitVec 4
  | .ok => 0
  | .ioError => 1
  | .formatError => 2
  | .illegalCmd => 3

/-- The number of a fault cause (R44, R257). -/
def causeNumber : Cause → BitVec 3
  | .oobRead => 1
  | .capacity => 2
  | .runOverflow => 3

/-- STATUS.CODE, bits 3:0 (R39, R40). -/
def statusCode (w : Word) : BitVec 4 := w.extractLsb' 0 4

/-- STATUS.VWARN, bit 4 (R39, R41). -/
def statusVwarn (w : Word) : Bool := w.getLsbD 4

/-- STATUS.TRUNC, bit 5 (R39, R42). -/
def statusTrunc (w : Word) : Bool := w.getLsbD 5

/-- STATUS.FAULT, bit 8 (R39, R43). -/
def statusFault (w : Word) : Bool := w.getLsbD 8

/-- STATUS.FCAUSE, bits 11:9 (R39, R44). -/
def statusFcause (w : Word) : BitVec 3 := w.extractLsb' 9 3

/-- The ones at bits `lo` to `lo + len - 1`. -/
def fieldMask (lo len : Nat) : Word := BitVec.ofNat 32 ((2 ^ len - 1) * 2 ^ lo)

/-- `w` with `v` in its bits `lo` to `lo + len - 1`, every other bit kept (R20). -/
def putField (w : Word) (lo len : Nat) (v : Word) : Word :=
  (w &&& ~~~(fieldMask lo len)) ||| ((v <<< lo) &&& fieldMask lo len)

/-- `w` with bit `i` set to `b`, every other bit kept (R20). -/
def putBit (w : Word) (i : Nat) (b : Bool) : Word :=
  putField w i 1 (if b then 1#32 else 0#32)

/-- STATUS.CODE <- code (R40, R252). -/
def setCode (w : Word) (c : ResultCode) : Word := putField w 0 4 ((codeNumber c).setWidth 32)

/-- STATUS.VWARN <- b (R41). -/
def setVwarn (w : Word) (b : Bool) : Word := putBit w 4 b

/-- STATUS.TRUNC <- b (R42). -/
def setTrunc (w : Word) (b : Bool) : Word := putBit w 5 b

/-- STATUS.FAULT <- 1; STATUS.FCAUSE <- cause (R256). -/
def setFault (w : Word) (c : Cause) : Word :=
  putField (putBit w 8 true) 9 3 ((causeNumber c).setWidth 32)

/-- What the dispatch does to STATUS before a body: VWARN <- 0; TRUNC <- 0 (`40_pixel_access.md` R130). -/
def clearWarnings (w : Word) : Word := setTrunc (setVwarn w false) false

/-- VWARN is set when the version read is not the codec's own (`41_framing.md` R184). -/
def versionDiffers (v : Word) : Bool := decide (v ≠ Config.version)

/-- TRUNC at the end of the pixel stream: a partial token, a trailing run or a partial triple was discarded (R191). -/
def bodyLeftover (d : Decoder) : Bool := !d.acc.isEmpty || decide (d.run ≠ 0) || !d.ch.isEmpty

end Sys2Proof.Machine
end

