-- ==== Sys2Proof/Machine/Operands.lean ====
section
/-! DEFINITION. Operand forms: the row-major index, packed pixels, little-endian integers, and the unary channel code. -/

namespace Sys2Proof.Machine

open Sys2Proof

/-- `Idx(x, y) = y*WIDTH + x` in ℕ, with `x` in ARG0 and `y` in ARG1 (`20_memory.md` R61, `30_encoding.md` R111). -/
def pixelIndex (s : State) : Nat := s.arg1.toNat * s.width.toNat + s.arg0.toNat

/-- `PACK(p)`: red in bits 7:0, green in 15:8, blue in 23:16, bits 31:24 zero (R103). -/
def pack (p : Pixel) : Word :=
  (p.b.setWidth 32 <<< 16) ||| (p.g.setWidth 32 <<< 8) ||| p.r.setWidth 32

/-- `UNPACK(w)`; bits 31:24 are ignored (R103). -/
def unpack (w : Word) : Pixel := ⟨w.extractLsb' 0 8, w.extractLsb' 8 8, w.extractLsb' 16 8⟩

/-- `LE32(v)` (`00_scope.md` R22). -/
def le32 (v : Word) : List Byte :=
  [v.extractLsb' 0 8, v.extractLsb' 8 8, v.extractLsb' 16 8, v.extractLsb' 24 8]

/-- `b0 + 256*b1 + 65536*b2 + ...`, the natural number of a little-endian byte sequence (R22). -/
def littleEndianNat (bs : List Byte) : Nat := bs.foldr (fun b n => b.toNat + 256 * n) 0

/-- `unLE32(bytes)` (R22). -/
def unLE32 (bs : List Byte) : Word := BitVec.ofNat 32 (littleEndianNat bs)

/-- `ChanEnc(v) = UNIT^v ++ TERM` (`42_channel_codec.md` R220). -/
def chanEnc (c : Config) (v : Byte) : List Byte :=
  (List.replicate v.toNat c.unit).flatten ++ c.term

/-- The encoding of a pixel: red, green, blue, with no separator (`30_encoding.md` R97). -/
def pixelEnc (c : Config) (p : Pixel) : List Byte :=
  chanEnc c p.r ++ chanEnc c p.g ++ chanEnc c p.b

/-- `Chan(run)`, `none` where it raises Fault(RUN_OVERFLOW) (R223). -/
def chan (c : Config) (run : Nat) : Option Byte :=
  if run ≤ 255 then some (BitVec.ofNat 8 run)
  else
    match c.runOverflow with
    | .wrap => some (BitVec.ofNat 8 (run % 256))
    | .saturate => some 255#8
    | .fault => none

/-- The SAVE extent (`41_framing.md` R172). -/
def saveExtent (s : State) : Nat :=
  match s.cfg.saveExtent with
  | .sequence => s.pixbuf.length
  | .dimensions => s.width.toNat * s.height.toNat

/-- `need(phase)`: the bytes of the field or token that the phase reads (R177). -/
def need (c : Config) : Phase → Nat
  | .sig => c.sigLen
  | .ver => 4
  | .wid => 4
  | .hgt => 4
  | .body => c.tokenLen

end Sys2Proof.Machine
end

