-- ==== Sys2Proof/Machine/Ops.lean ====
section
/-! DEFINITION. The named operations every command is built from: ending a command, taking the sticky fault,
the pixel buffer (`20_memory.md` R62 to R64), the streams (R65 to R69), and the dispatch (`40_pixel_access.md` R130). -/

namespace Sys2Proof.Machine

open Sys2Proof

/-- A command's progress: it goes on from a state, or it has ended in one (by `finish` or by `raise Fault`, `60_exceptions.md` R250). -/
inductive Flow where
  | more (s : State)
  | ended (s : State)
deriving DecidableEq, Repr

/-- Go on with `k`, unless the command has ended. -/
def Flow.andThen (f : Flow) (k : State → Flow) : Flow :=
  match f with
  | .more s => k s
  | .ended s => .ended s

/-- The state a command has come to. -/
def Flow.state : Flow → State
  | .more s => s
  | .ended s => s

/-- `finish(code)`: STATUS.CODE <- code, nothing else (R252). -/
def finish (c : ResultCode) (s : State) : State := { s with status := setCode s.status c }

/-- TAKING THE FAULT, `raise Fault(cause)`: FAULT <- 1 and FCAUSE <- cause; CODE, VWARN, TRUNC, RESULT and every write made before stay (R256, R262).
The one return from it is reset (R264): `hostReset`. -/
def raiseFault (c : Cause) (s : State) : State := { s with status := setFault s.status c }

/-- STATUS.FAULT = 1: the block executes no command (R43, R265). -/
def State.faulted (s : State) : Bool := statusFault s.status

/-- STATUS.TRUNC <- b (R42). -/
def markTrunc (b : Bool) (s : State) : State := { s with status := setTrunc s.status b }

/-- `PixRead(k)`: the pixel of slot `k`, `none` where it raises Fault(OOB_READ) (R62). -/
def pixRead (k : Nat) (s : State) : Option Pixel := s.pixbuf[k]?

/-- PIXBUF grown with DEFAULT_PIXEL to hold slot `k` where it is shorter, and `p` in that slot (R63). -/
def grownWrite (d : Pixel) (buf : List Pixel) (k : Nat) (p : Pixel) : List Pixel :=
  (buf ++ List.replicate (k + 1 - buf.length) d).set k p

/-- `PixWrite(k, p)` (R63). -/
def pixWrite (k : Nat) (p : Pixel) (s : State) : Flow :=
  if s.cfg.maxPixels ≤ k then .ended (raiseFault .capacity s)
  else .more { s with pixbuf := grownWrite s.cfg.defaultPixel s.pixbuf k p }

/-- `PixAppend(p)` (R64). -/
def pixAppend (p : Pixel) (s : State) : Flow :=
  if s.cfg.maxPixels ≤ s.pixbuf.length then .ended (raiseFault .capacity s)
  else .more { s with pixbuf := s.pixbuf ++ [p] }

/-- The canonical form of the pixel memory: `LEN <= P_MAX_PIXELS` (R35; log 4). -/
def Memory.wf (c : Config) (buf : List Pixel) : Bool := decide (buf.length ≤ c.maxPixels)

/-- `xfer_fail(i)` (R65). -/
def Draws.xferFails (d : Draws) (i : Nat) : Bool := d.xferFail.contains i

/-- `InOpen()`, with the decoder state `d` of the command that opens: the stream is open at offset 0 (R66, R48). -/
def inOpen (d : Decoder) (s : State) : Flow :=
  if s.inDraws.openFail then .ended (finish .ioError s) else .more { s with dec := d }

/-- One byte of `InRead` consumed: the stream goes on with `rest`, and `pos` advances by 1 (R67, R50). -/
def consume (rest : List Byte) (s : State) : State :=
  { s with input := rest, dec := { s.dec with pos := s.dec.pos + 1 } }

/-- The loop of LOAD and DEC_CHANNEL over the bytes to come: `onByte` takes each byte that `InRead(1)` gives,
a transfer failure ends the command with IO_ERROR, and `onEnd` is the exhaustion (R67, R177, R228). -/
def readLoop (onByte : Byte → State → Flow) (onEnd : State → State) : List Byte → State → Flow
  | [], s => .ended (onEnd s)
  | b :: rest, s =>
    if s.inDraws.xferFails s.dec.pos then .ended (finish .ioError s)
    else (onByte b (consume rest s)).andThen (readLoop onByte onEnd rest)

/-- `OutOpen()` on the command's empty sink (R65, R68). -/
def outOpen (s : State) : Flow :=
  if s.outDraws.openFail then .ended (finish .ioError { s with output := [] })
  else .more { s with output := [] }

/-- `OutWrite(bytes)`: one byte at a time, IO_ERROR at the first byte whose transfer fails (R69). -/
def outWrite : List Byte → State → Flow
  | [], s => .more s
  | b :: rest, s =>
    if s.outDraws.xferFails s.output.length then .ended (finish .ioError s)
    else outWrite rest { s with output := s.output ++ [b] }

/-- The dispatch's first writes: VWARN <- 0; TRUNC <- 0 (R130). -/
def startCommand (s : State) : State := { s with status := clearWarnings s.status }

/-- The end of a command that reads a stream: the decoder state is discarded (R48), and so are the bytes it did not consume (R65; log 6, log 7). -/
def closeInput (s : State) : State :=
  { s with dec := Decoder.idle, input := [], inDraws := Draws.none }

/-- The end of a command that writes a stream: the stream leaves the port, and OUT keeps what was written (R65, R77; log 7). -/
def closeOutput (s : State) : State := { s with outDraws := Draws.none }

/-- The end of SET_PIXELS: the sequence leaves PIXIN (R102; log 7). -/
def clearPixIn (s : State) : State := { s with pixIn := [] }

/-- `Dispatch` around the body of a command: no effect at all while FAULT = 1 (R130, R265). -/
def runCommand (body : State → State) (s : State) : Host.Outcome State Fault Refusal :=
  .next (if s.faulted then s else body (startCommand s))

/-- An illegal command word: the dispatch, and then `finish(ILLEGAL_CMD)` (R105, R130, R255). -/
def illegalCommand (s : State) : Host.Outcome State Fault Refusal :=
  runCommand (finish .illegalCmd) s

end Sys2Proof.Machine
end

