-- ==== Sys2Proof/Machine/ChannelCodec.lean ====
section
/-! DEFINITION. The channel commands of `42_channel_codec.md` R227 and R228. -/

namespace Sys2Proof.Machine

open Sys2Proof

/-- The body of ENC_CHANNEL: OUT <- ChanEnc(ARG0[7:0]); RESULT <- v + 1 (R227). -/
def encChannelBody (s : State) : State :=
  let v : Byte := s.arg0.extractLsb' 0 8
  (((outOpen s).andThen (outWrite (chanEnc s.cfg v))).andThen
    (fun t => .ended (finish .ok { t with result := v.setWidth 32 + 1 }))).state

/-- ENC_CHANNEL (R227). -/
def execEncChannel (s : State) : Host.Outcome State Fault Refusal :=
  runCommand (fun t => closeOutput (encChannelBody t)) s

/-- A complete token of DEC_CHANNEL: TERM gives the value, any other token is one more unit (R228, R224). -/
def decChannelToken (tok : List Byte) (s : State) : Flow :=
  if tok = s.cfg.term then
    match chan s.cfg s.dec.run with
    | some c => .ended (finish .ok { s with result := c.setWidth 32 })
    | none => .ended (raiseFault .runOverflow s)
  else .more { s with dec := { s.dec with run := s.dec.run + 1, acc := [] } }

/-- One byte of DEC_CHANNEL (R228). -/
def decChannelByte (b : Byte) (s : State) : Flow :=
  if (s.dec.acc ++ [b]).length = s.cfg.tokenLen then decChannelToken (s.dec.acc ++ [b]) s
  else .more { s with dec := { s.dec with acc := s.dec.acc ++ [b] } }

/-- The end of DEC_CHANNEL's stream before a terminator: TRUNC <- 1, and OK (R228). -/
def decChannelEnd (s : State) : State := finish .ok (markTrunc true s)

/-- The body of DEC_CHANNEL (R228). -/
def decChannelBody (s : State) : State :=
  ((inOpen Decoder.channelStart s).andThen
    (fun t => readLoop decChannelByte decChannelEnd t.input t)).state

/-- DEC_CHANNEL (R228). -/
def execDecChannel (s : State) : Host.Outcome State Fault Refusal :=
  runCommand (fun t => closeInput (decChannelBody t)) s

end Sys2Proof.Machine
end

