-- ==== Sys2Proof/Machine/Framing.lean ====
section
/-! DEFINITION. The frame encoder SAVE and the frame decoder LOAD of `41_framing.md`. -/

namespace Sys2Proof.Machine

open Sys2Proof

/-- Step 4 of SAVE: the `n` slots from `k` on, each read and then written channel by channel (R170). -/
def savePixels : Nat → Nat → State → Flow
  | 0, _, s => .more s
  | n + 1, k, s =>
    match pixRead k s with
    | none => .ended (raiseFault .oobRead s)
    | some p =>
      (((outWrite (chanEnc s.cfg p.r) s).andThen (outWrite (chanEnc s.cfg p.g))).andThen
        (outWrite (chanEnc s.cfg p.b))).andThen (savePixels n (k + 1))

/-- Steps 1 to 3 of SAVE: signature, version, width, height (R170). -/
def saveHeader (s : State) : Flow :=
  (((outWrite s.cfg.sig s).andThen (outWrite (le32 Config.version))).andThen
    (outWrite (le32 s.width))).andThen (outWrite (le32 s.height))

/-- The body of SAVE (R170). -/
def saveBody (s : State) : State :=
  ((((outOpen s).andThen saveHeader).andThen (savePixels (saveExtent s) 0)).andThen
    (fun t => .ended (finish .ok { t with result := BitVec.ofNat 32 (saveExtent s) }))).state

/-- SAVE (R170). -/
def execSave (s : State) : Host.Outcome State Fault Refusal :=
  runCommand (fun t => closeOutput (saveBody t)) s

/-- `Complete(SIG)`: a mismatch is FORMAT_ERROR; a match empties PIXBUF where P_LOAD_CLEARS says so (R181, R182). -/
def completeSig (acc : List Byte) (s : State) : Flow :=
  if acc ≠ s.cfg.sig then .ended (finish .formatError s)
  else
    .more { s with
      pixbuf := if s.cfg.loadClears then [] else s.pixbuf
      dec := { s.dec with phase := .ver, acc := [] } }

/-- `Complete(VER)`: another version only sets VWARN (R184, R196). -/
def completeVer (acc : List Byte) (s : State) : Flow :=
  .more { s with
    status := if versionDiffers (unLE32 acc) then setVwarn s.status true else s.status
    dec := { s.dec with phase := .wid, acc := [] } }

/-- `Complete(WID)`: WIDTH <- unLE32(acc) (R185). -/
def completeWid (acc : List Byte) (s : State) : Flow :=
  .more { s with width := unLE32 acc, dec := { s.dec with phase := .hgt, acc := [] } }

/-- `Complete(HGT)`: HEIGHT <- unLE32(acc) (R186). -/
def completeHgt (acc : List Byte) (s : State) : Flow :=
  .more { s with height := unLE32 acc, dec := { s.dec with phase := .body, acc := [] } }

/-- OnTerminator with the channels `ch` of the pixel: the third one emits the pixel (R188, R189). -/
def emitChannels (ch : List Byte) (s : State) : Flow :=
  match ch with
  | [r, g, b] =>
    (pixAppend ⟨r, g, b⟩ s).andThen fun t =>
      .more { t with dec := { t.dec with acc := [], run := 0, ch := [], app := t.dec.app + 1 } }
  | _ => .more { s with dec := { s.dec with acc := [], run := 0, ch := ch } }

/-- `Complete(BODY)`: TERM ends a channel, any other token is one more unit (R188, R190). -/
def completeBody (tok : List Byte) (s : State) : Flow :=
  if tok = s.cfg.term then
    match chan s.cfg s.dec.run with
    | some c => emitChannels (s.dec.ch ++ [c]) s
    | none => .ended (raiseFault .runOverflow s)
  else .more { s with dec := { s.dec with acc := [], run := s.dec.run + 1 } }

/-- `Complete(phase)` for the bytes `acc` of the field or token (R181 to R190). -/
def completeField (acc : List Byte) (s : State) : Flow :=
  match s.dec.phase with
  | .sig => completeSig acc s
  | .ver => completeVer acc s
  | .wid => completeWid acc s
  | .hgt => completeHgt acc s
  | .body => completeBody acc s

/-- The step of LOAD for one byte (R177). -/
def loadByte (b : Byte) (s : State) : Flow :=
  if (s.dec.acc ++ [b]).length = need s.cfg s.dec.phase then completeField (s.dec.acc ++ [b]) s
  else .more { s with dec := { s.dec with acc := s.dec.acc ++ [b] } }

/-- The end of a stream inside the version, width or height field: TRUNC <- 1; RESULT <- 0; OK (R191). -/
def headerCutShort (s : State) : State := finish .ok (markTrunc true { s with result := 0 })

/-- `Exhausted()` (R191). -/
def loadEnd (s : State) : State :=
  match s.dec.phase with
  | .sig => finish .formatError s
  | .ver => headerCutShort s
  | .wid => headerCutShort s
  | .hgt => headerCutShort s
  | .body =>
    finish .ok
      { s with
        status := if bodyLeftover s.dec then setTrunc s.status true else s.status
        result := BitVec.ofNat 32 s.dec.app }

/-- The body of LOAD (R176, R177). -/
def loadBody (s : State) : State :=
  ((inOpen Decoder.loadStart s).andThen (fun t => readLoop loadByte loadEnd t.input t)).state

/-- LOAD (R175). -/
def execLoad (s : State) : Host.Outcome State Fault Refusal :=
  runCommand (fun t => closeInput (loadBody t)) s

end Sys2Proof.Machine
end

