-- ==== Sys2Proof/Machine/PixelAccess.lean ====
section
/-! DEFINITION. The accessors and mutators of `40_pixel_access.md` R131 to R138. -/

namespace Sys2Proof.Machine

open Sys2Proof

/-- GET_WIDTH: RESULT <- WIDTH (R131). -/
def execGetWidth (s : State) : Host.Outcome State Fault Refusal :=
  runCommand (fun t => finish .ok { t with result := t.width }) s

/-- GET_HEIGHT: RESULT <- HEIGHT (R132). -/
def execGetHeight (s : State) : Host.Outcome State Fault Refusal :=
  runCommand (fun t => finish .ok { t with result := t.height }) s

/-- The body of GET_PIXEL: RESULT <- PACK(PixRead(Idx)), or Fault(OOB_READ) (R133). -/
def getPixelBody (s : State) : State :=
  match pixRead (pixelIndex s) s with
  | some p => finish .ok { s with result := pack p }
  | none => raiseFault .oobRead s

/-- GET_PIXEL (R133). -/
def execGetPixel (s : State) : Host.Outcome State Fault Refusal := runCommand getPixelBody s

/-- GET_PIXELS: PIXOUT <- PIXBUF; RESULT <- LEN mod 2^32 (R134). -/
def execGetPixels (s : State) : Host.Outcome State Fault Refusal :=
  runCommand
    (fun t => finish .ok { t with pixOut := t.pixbuf, result := BitVec.ofNat 32 t.pixbuf.length }) s

/-- SET_WIDTH: WIDTH <- ARG0 (R135). -/
def execSetWidth (s : State) : Host.Outcome State Fault Refusal :=
  runCommand (fun t => finish .ok { t with width := t.arg0 }) s

/-- SET_HEIGHT: HEIGHT <- ARG0 (R136). -/
def execSetHeight (s : State) : Host.Outcome State Fault Refusal :=
  runCommand (fun t => finish .ok { t with height := t.arg0 }) s

/-- The body of SET_PIXELS: PIXBUF <- PIXIN, or Fault(CAPACITY) (R137). -/
def setPixelsBody (s : State) : State :=
  if s.cfg.maxPixels < s.pixIn.length then raiseFault .capacity s
  else finish .ok { s with pixbuf := s.pixIn }

/-- SET_PIXELS (R137). -/
def execSetPixels (s : State) : Host.Outcome State Fault Refusal :=
  runCommand (fun t => clearPixIn (setPixelsBody t)) s

/-- The body of SET_PIXEL: PixWrite(Idx, UNPACK(ARG2)) (R138). -/
def setPixelBody (s : State) : State :=
  ((pixWrite (pixelIndex s) (unpack s.arg2) s).andThen (fun t => .ended (finish .ok t))).state

/-- SET_PIXEL (R138). -/
def execSetPixel (s : State) : Host.Outcome State Fault Refusal := runCommand setPixelBody s

end Sys2Proof.Machine
end

