-- ==== Sys2Proof/Machine/Dispatch.lean ====
section
/-! DEFINITION. One arm per command of the opcode map (`30_encoding.md` R104). -/

namespace Sys2Proof.Machine

open Sys2Proof

/-- The meaning of a command: one direct call per row of the opcode table (R104, R130). -/
def exec (i : Instr) (s : State) : Host.Outcome State Fault Refusal :=
  match i with
  | .getWidth => Sys2Proof.Machine.execGetWidth s
  | .getHeight => Sys2Proof.Machine.execGetHeight s
  | .getPixel => Sys2Proof.Machine.execGetPixel s
  | .getPixels => Sys2Proof.Machine.execGetPixels s
  | .setWidth => Sys2Proof.Machine.execSetWidth s
  | .setHeight => Sys2Proof.Machine.execSetHeight s
  | .setPixel => Sys2Proof.Machine.execSetPixel s
  | .setPixels => Sys2Proof.Machine.execSetPixels s
  | .save => Sys2Proof.Machine.execSave s
  | .load => Sys2Proof.Machine.execLoad s
  | .encChannel => Sys2Proof.Machine.execEncChannel s
  | .decChannel => Sys2Proof.Machine.execDecChannel s

end Sys2Proof.Machine
end

