-- ==== Sys2Proof/Machine/HostPort.lean ====
section
/-! DEFINITION. What one action of the host does: register writes, ports, command issue and reset
(`30_encoding.md` R102, `10_state.md` R37 to R45, `70_reset_and_hazards.md` R290 to R296). -/

namespace Sys2Proof.Machine

open Sys2Proof

/-- What the host reads in an interface register, with no side effect (R37, R38, R45, `60_exceptions.md` R275). -/
def hostRead (r : HostReg) (s : State) : Word :=
  match r with
  | .arg0 => s.arg0
  | .arg1 => s.arg1
  | .arg2 => s.arg2
  | .result => s.result
  | .status => s.status

/-- A host write: ARG0 to ARG2 take it, RESULT and STATUS ignore it (R37, R38, R45; log 11). -/
def hostWrite (r : HostReg) (v : Word) (s : State) : State :=
  match r with
  | .arg0 => { s with arg0 := v }
  | .arg1 => { s with arg1 := v }
  | .arg2 => { s with arg2 := v }
  | .result => s
  | .status => s

/-- An input stream attached for the next command that reads one (R65, R102). -/
def attachInput (bytes : List Byte) (d : Draws) (s : State) : State :=
  { s with input := bytes, inDraws := d }

/-- An empty output sink attached for the next command that writes one (R65, R102). -/
def attachOutput (d : Draws) (s : State) : State := { s with output := [], outDraws := d }

/-- RESET: every register at its reset value and the decoder state discarded (R290).
The configuration stays (R46), output already written stays written (R292), and the host goes on with its script. -/
def hostReset (s : State) : State :=
  { State.reset with cfg := s.cfg, output := s.output, script := s.script }

/-- A command word issued: the command it stands for runs, or ILLEGAL_CMD (R102, R105, R130). -/
def issue (w : Word) (s : State) : Host.Outcome State Fault Refusal :=
  match decode w with
  | .ok i => exec i s
  | .error _ => illegalCommand s

/-- The commands that write an output stream (`20_memory.md` R60). -/
def writesOutput : Instr → Bool
  | .getWidth => false
  | .getHeight => false
  | .getPixel => false
  | .getPixels => false
  | .setWidth => false
  | .setHeight => false
  | .setPixel => false
  | .setPixels => false
  | .save => true
  | .load => false
  | .encChannel => true
  | .decChannel => false

/-- Whether issuing `w` in `s` writes an output stream: it is such a command, and it runs (R265). -/
def issueWritesOutput (w : Word) (s : State) : Bool :=
  match decode w with
  | .ok i => writesOutput i && !s.faulted
  | .error _ => false

/-- A command word issued and reset asserted while the command runs, when it has written at most `n` output bytes:
the state of reset, with the output written so far kept (R292; log 8). -/
def issueReset (w : Word) (n : Nat) (s : State) : Host.Outcome State Fault Refusal :=
  match issue w s with
  | .next t =>
    .next (if issueWritesOutput w s then { hostReset s with output := t.output.take n } else hostReset s)
  | .fault r => .fault r
  | .refused r => .refused r

/-- One action of the host. -/
def hostAct (a : HostAct) (s : State) : Host.Outcome State Fault Refusal :=
  match a with
  | .write r v => .next (hostWrite r v s)
  | .pixIn ps => .next { s with pixIn := ps }
  | .attachIn bytes d => .next (attachInput bytes d s)
  | .attachOut d => .next (attachOutput d s)
  | .issue w => issue w s
  | .issueReset w n => issueReset w n s
  | .overlap _ _ => .refused .overlappingCommand
  | .reset => .next (hostReset s)

/-- The host's next action, or an idle step that holds the state when there is none (`60_exceptions.md` R274; log 1). -/
def nextAction (s : State) : Host.Outcome State Fault Refusal :=
  match s.script with
  | [] => .next s
  | a :: rest => hostAct a { s with script := rest }

end Sys2Proof.Machine
end

