-- ==== Sys2Proof/Machine/Step.lean ====
section
/-! DEFINITION. One step of the machine: one action of the host, a command being one atomic step (`00_scope.md` R8, `20_memory.md` R80). -/

namespace Sys2Proof.Machine

open Sys2Proof

/-- One step. -/
def step (s : State) : Host.Outcome State Fault Refusal := nextAction s

/-- The state in which the host issues the command word `w` of `nbits` bits next, its ports as they stand (log 12). -/
def State.withFetchWord (s : State) (nbits w : Nat) : State :=
  { s with script := .issue (tableWord nbits w) :: s.script }

end Sys2Proof.Machine
end

