-- ==== Sys2Proof/Machine/Assembler.lean ====
section
/-! DEFINITION. The assembler syntax (`30_encoding.md` R109) and the pseudo-instructions (R110), as what the host then does. -/

namespace Sys2Proof.Machine

open Sys2Proof

/-- One line of assembly with its operands as written; a stream operand is the stream's bytes (R109, R110). -/
inductive AsmLine where
  | getWidth
  | getHeight
  | getPixel (x y : Nat)
  | getPixels
  | setWidth (w : Nat)
  | setHeight (h : Nat)
  | setPixel (x y r g b : Nat)
  | setPixels (ps : List (Nat × Nat × Nat))
  | save
  | load (bytes : List Byte)
  | encChannel (v : Nat)
  | decChannel (bytes : List Byte)
  /-- `NEWIMAGE w, h` (R110). -/
  | newImage (w h : Nat)
  /-- `SETDIM w, h` (R110). -/
  | setDim (w h : Nat)
deriving DecidableEq, Repr

/-- An operand outside its range is an assembler error (R109). -/
def asmLineOk : AsmLine → Bool
  | .getWidth => true
  | .getHeight => true
  | .getPixel x y => wordOperandOk x && wordOperandOk y
  | .getPixels => true
  | .setWidth w => wordOperandOk w
  | .setHeight h => wordOperandOk h
  | .setPixel x y r g b =>
    wordOperandOk x && wordOperandOk y && channelOperandOk r && channelOperandOk g && channelOperandOk b
  | .setPixels ps => ps.all fun p => channelOperandOk p.1 && channelOperandOk p.2.1 && channelOperandOk p.2.2
  | .save => true
  | .load _ => true
  | .encChannel v => channelOperandOk v
  | .decChannel _ => true
  | .newImage w h => wordOperandOk w && wordOperandOk h
  | .setDim w h => wordOperandOk w && wordOperandOk h

/-- The pixel an assembler triple stands for (R109). -/
def asmPixel (r g b : Nat) : Pixel := ⟨BitVec.ofNat 8 r, BitVec.ofNat 8 g, BitVec.ofNat 8 b⟩

/-- `SET_WIDTH w` (R109). -/
def asmSetWidth (w : Nat) : List HostAct :=
  [.write .arg0 (BitVec.ofNat 32 w), .issue (encode .setWidth)]

/-- `SET_HEIGHT h` (R109). -/
def asmSetHeight (h : Nat) : List HostAct :=
  [.write .arg0 (BitVec.ofNat 32 h), .issue (encode .setHeight)]

/-- What a line stands for, with the environment's draws `d` for its stream (R109, R110). -/
def asmExpand (d : Draws) : AsmLine → List HostAct
  | .getWidth => [.issue (encode .getWidth)]
  | .getHeight => [.issue (encode .getHeight)]
  | .getPixel x y =>
    [.write .arg0 (BitVec.ofNat 32 x), .write .arg1 (BitVec.ofNat 32 y), .issue (encode .getPixel)]
  | .getPixels => [.issue (encode .getPixels)]
  | .setWidth w => asmSetWidth w
  | .setHeight h => asmSetHeight h
  | .setPixel x y r g b =>
    [.write .arg0 (BitVec.ofNat 32 x), .write .arg1 (BitVec.ofNat 32 y),
      .write .arg2 (pack (asmPixel r g b)), .issue (encode .setPixel)]
  | .setPixels ps =>
    [.pixIn (ps.map fun p => asmPixel p.1 p.2.1 p.2.2), .issue (encode .setPixels)]
  | .save => [.attachOut d, .issue (encode .save)]
  | .load bytes => [.attachIn bytes d, .issue (encode .load)]
  | .encChannel v =>
    [.write .arg0 (BitVec.ofNat 32 v), .attachOut d, .issue (encode .encChannel)]
  | .decChannel bytes => [.attachIn bytes d, .issue (encode .decChannel)]
  | .newImage w h => asmSetWidth w ++ asmSetHeight h ++ [.pixIn [], .issue (encode .setPixels)]
  | .setDim w h => asmSetWidth w ++ asmSetHeight h

end Sys2Proof.Machine
end

