-- ==== Sys2Proof/Machine/FrameSpec.lean ====
section
/-! DEFINITION. The frame format in closed form, beside the byte-driven machine of `Framing.lean`:
`Encode` (`41_framing.md` R171), `Decode` (R197) and `ChanDec` (`42_channel_codec.md` R222). R198 says that the two forms of LOAD agree. -/

namespace Sys2Proof.Machine

open Sys2Proof

/-- The header of a frame, `SIG ++ LE32(1) ++ LE32(WIDTH) ++ LE32(HEIGHT)` (R90, R171). -/
def frameHeader (s : State) : List Byte :=
  s.cfg.sig ++ le32 Config.version ++ le32 s.width ++ le32 s.height

/-- The pixel stream of a pixel sequence (R90, R97). -/
def pixelStream (c : Config) (ps : List Pixel) : List Byte := (ps.map (pixelEnc c)).flatten

/-- `Encode(S)` (R171). -/
def encodeFrame (s : State) : List Byte :=
  frameHeader s ++ pixelStream s.cfg (s.pixbuf.take (saveExtent s))

/-- The complete tokens of a pixel stream, cut on the grid of `t` bytes; a partial token is dropped (R98, R197). -/
def cutTokens (t : Nat) (body : List Byte) : List (List Byte) :=
  (List.range (body.length / t)).map fun i => (body.drop (i * t)).take t

/-- `ChanDec(toks)`: the value of the first terminated run, itself `none` where `Chan` faults, with the tokens after it;
`none` where no run is terminated (R222). -/
def chanDec (c : Config) (toks : List (List Byte)) : Option (Option Byte × List (List Byte)) :=
  match toks.findIdx? (fun tok => decide (tok = c.term)) with
  | none => none
  | some j => some (chan c j, toks.drop (j + 1))

/-- What decoding a frame gives: `⊥` of R197 is `none`; `fault` is the exception that stops it. -/
structure FrameResult where
  w : Option Word
  h : Option Word
  px : List Pixel
  vwarn : Bool
  trunc : Bool
  fault : Option Cause
deriving DecidableEq, Repr

/-- What the tokens of a pixel stream give. -/
structure TokenResult where
  px : List Pixel
  leftover : Bool
  fault : Option Cause
deriving DecidableEq, Repr

/-- The token loop of `Decode`, with room for `room` pixels, from the pixels `px`, the run count `run` and the channels `ch` (R197). -/
def decodeTokens (c : Config) (room : Nat) :
    List (List Byte) → List Pixel → Nat → List Byte → TokenResult
  | [], px, run, ch => ⟨px, decide (run ≠ 0) || !ch.isEmpty, none⟩
  | tok :: rest, px, run, ch =>
    if tok = c.term then
      match chan c run with
      | none => ⟨px, false, some .runOverflow⟩
      | some v =>
        match ch ++ [v] with
        | [r, g, b] =>
          if room ≤ px.length then ⟨px, false, some .capacity⟩
          else decodeTokens c room rest (px ++ [⟨r, g, b⟩]) 0 []
        | ch' => decodeTokens c room rest px 0 ch'
    else decodeTokens c room rest px (run + 1) ch

/-- `Decode` on the bytes after the signature (R197). -/
def decodeRest (c : Config) (room : Nat) (hdr : List Byte) : FrameResult :=
  if hdr.length < 4 then ⟨none, none, [], false, true, none⟩
  else
    let vwarn := decide (unLE32 (hdr.take 4) ≠ Config.version)
    if hdr.length < 8 then ⟨none, none, [], vwarn, true, none⟩
    else
      let w := unLE32 ((hdr.drop 4).take 4)
      if hdr.length < 12 then ⟨some w, none, [], vwarn, true, none⟩
      else
        let h := unLE32 ((hdr.drop 8).take 4)
        let body := hdr.drop 12
        let toks := decodeTokens c room (cutTokens c.tokenLen body) [] 0 []
        ⟨some w, some h, toks.px, vwarn,
          decide (body.length % c.tokenLen ≠ 0) || toks.leftover, toks.fault⟩

/-- `Decode(B)`, where PIXBUF has room for `room` pixels: `none` is FORMAT_ERROR (R197). -/
def decodeFrame (c : Config) (room : Nat) (bytes : List Byte) : Option FrameResult :=
  if bytes.length < c.sigLen || decide (bytes.take c.sigLen ≠ c.sig) then none
  else some (decodeRest c room (bytes.drop c.sigLen))

/-- The pixels a LOAD whose signature matches appends after (R182). -/
def loadBase (s : State) : List Pixel := if s.cfg.loadClears then [] else s.pixbuf

/-- How many pixels a LOAD whose signature matches may append (R64, R182). -/
def loadRoom (s : State) : Nat := s.cfg.maxPixels - (loadBase s).length

/-- The decoder's phase as a function of `pos` alone (`10_state.md` R50). -/
def phaseAt (c : Config) (pos : Nat) : Phase :=
  if pos < c.sigLen then .sig
  else if pos < c.sigLen + 4 then .ver
  else if pos < c.sigLen + 8 then .wid
  else if pos < c.sigLen + 12 then .hgt
  else .body

/-- The offset of byte `pos` inside its field or token (`20_memory.md` R73). -/
def offsetInField (c : Config) (pos : Nat) : Nat :=
  match phaseAt c pos with
  | .sig => pos
  | .ver => pos - c.sigLen
  | .wid => pos - (c.sigLen + 4)
  | .hgt => pos - (c.sigLen + 8)
  | .body => (pos - (c.sigLen + 12)) % c.tokenLen

end Sys2Proof.Machine
end

