-- ==== Sys2Proof/Safety.lean ====
section
/-! DEFINITION. What counts as a safe state and a safe run, and the terms that the statements use. -/

namespace Sys2Proof.Machine

open Sys2Proof

/-- STATUS as the block can write it: CODE one of the four codes, FCAUSE one of the three causes exactly when FAULT is set,
every reserved bit 0 (R40, R44, R45). -/
def statusLegal (w : Word) : Bool :=
  decide ((statusCode w).toNat ≤ 3) && decide ((statusFcause w).toNat ≤ 3)
    && (statusFault w == decide (statusFcause w ≠ 0))
    && !w.getLsbD 6 && !w.getLsbD 7 && decide (w.toNat / 4096 = 0)

/-- The invariant between two commands: the configuration meets its constraints (R10, R11, R14), PIXBUF fits (R35),
STATUS is legal (R40, R44, R45), and no decoder state is left (R48, log 6). -/
def State.inv (s : State) : Bool :=
  s.cfg.wf && Memory.wf s.cfg s.pixbuf && statusLegal s.status && decide (s.dec = Decoder.idle)

/-- A faulted block is a failure, never a normal end (`60_exceptions.md` R256, R265). -/
def State.failed (s : State) : Bool := s.faulted

/-- The states of the run of `k` steps from `s`, `none` where a step is refused. -/
def runSteps : Nat → State → Option State
  | 0, s => some s
  | k + 1, s =>
    match step s with
    | .next t => runSteps k t
    | .fault _ => none
    | .refused _ => none

/-- A safe run of `k` steps: none of them is refused, and no state on the way is a faulted one (R265). -/
def safeRun : Nat → State → Bool
  | 0, s => !s.failed
  | k + 1, s =>
    !s.failed &&
      (match step s with
        | .next t => safeRun k t
        | .fault _ => false
        | .refused _ => false)

/-- STATUS after a command that ended by `finish(code)` with these VWARN and TRUNC: every other bit as before (R39, R130, R252). -/
def StatusAfter (c : ResultCode) (vwarn trunc : Bool) (old new : Word) : Prop :=
  ∀ i, i < 32 → new.getLsbD i =
    if i < 4 then (codeNumber c).getLsbD i
    else if i = 4 then vwarn
    else if i = 5 then trunc
    else old.getLsbD i

/-- STATUS after a command that ended by `raise Fault(cause)` with this VWARN: TRUNC as the dispatch cleared it, FAULT = 1, FCAUSE the cause,
CODE and every other bit as before (R39, R130, R256). -/
def StatusFaulted (c : Cause) (vwarn : Bool) (old new : Word) : Prop :=
  ∀ i, i < 32 → new.getLsbD i =
    if i = 4 then vwarn
    else if i = 5 then false
    else if i = 8 then true
    else if 9 ≤ i ∧ i ≤ 11 then (causeNumber c).getLsbD (i - 9)
    else old.getLsbD i

/-- ARG0, ARG1 and ARG2 are unchanged (R37). -/
def SameArgs (s t : State) : Prop := t.arg0 = s.arg0 ∧ t.arg1 = s.arg1 ∧ t.arg2 = s.arg2

/-- WIDTH, HEIGHT and every slot of PIXBUF are unchanged. -/
def SameImage (s t : State) : Prop :=
  t.width = s.width ∧ t.height = s.height ∧ t.pixbuf = s.pixbuf

/-- Nothing is written to OUT or to PIXOUT. -/
def SameOutputs (s t : State) : Prop := t.output = s.output ∧ t.pixOut = s.pixOut

/-- The configuration and the host's remaining actions are unchanged (R46, log 1). -/
def SameHost (s t : State) : Prop := t.cfg = s.cfg ∧ t.script = s.script

/-- No draw is true: the premise of a claim that needs I/O to succeed (R65). -/
def NoDraws (d : Draws) : Prop := d.openFail = false ∧ d.xferFail = []

/-- What a LOAD that reads without a failure leaves, by the closed form of R197. -/
def LoadOutcome (s t : State) : Prop :=
  match decodeFrame s.cfg (loadRoom s) s.input with
  | none => SameImage s t ∧ t.result = s.result ∧ StatusAfter .formatError false false s.status t.status
  | some r =>
    t.width = r.w.getD s.width ∧ t.height = r.h.getD s.height ∧ t.pixbuf = loadBase s ++ r.px ∧
      match r.fault with
      | none =>
        t.result = BitVec.ofNat 32 r.px.length ∧ StatusAfter .ok r.vwarn r.trunc s.status t.status
      | some c => t.result = s.result ∧ StatusFaulted c r.vwarn s.status t.status

/-- What decoding one channel value from the bytes `bytes` leaves in RESULT and STATUS, by the closed form `ChanDec` (R222, R228). -/
def ChannelOutcome (bytes : List Byte) (s t : State) : Prop :=
  match chanDec s.cfg (cutTokens s.cfg.tokenLen bytes) with
  | none => t.result = s.result ∧ StatusAfter .ok false true s.status t.status
  | some (some v, _) => t.result = v.setWidth 32 ∧ StatusAfter .ok false false s.status t.status
  | some (none, _) => t.result = s.result ∧ StatusFaulted .runOverflow false s.status t.status

/-- Byte `i` is the first whose transfer fails (R65, R67, R69). -/
def FirstFailure (d : Draws) (i : Nat) : Prop :=
  d.openFail = false ∧ d.xferFails i = true ∧ ∀ j, j < i → d.xferFails j = false

/-- The open succeeds, and none of the first `n` transfers fails (R65). -/
def NoFailureBelow (d : Draws) (n : Nat) : Prop :=
  d.openFail = false ∧ ∀ j, j < n → d.xferFails j = false

/-- Every register at the reset value that the spec gives it (R290). -/
def ResetRegisters (t : State) : Prop :=
  t.width = 0 ∧ t.height = 0 ∧ t.pixbuf = [] ∧ t.arg0 = 0 ∧ t.arg1 = 0 ∧ t.arg2 = 0 ∧
    t.result = 0 ∧ t.status = 0

end Sys2Proof.Machine
end

