-- ==== Sys2Proof/Certificates/Slice0/Obligations.lean ====
section
/-! DEFINITION. The statements for the provers, each a proposition about the machine. -/

open Sys2Proof Sys2Proof.Machine

/-! ## Encoding of commands -/

/-- R101, R104: every well-formed command is what its own command word decodes to. -/
def Obligations.DecodeOfEncode : Prop :=
  ∀ i : Instr, i.wf = true → decode (encode i) = .ok i

/-- R107: a legal word is the word of one of the twelve commands, and every other word is illegal. -/
def Obligations.EveryWordLegalOrIllegal : Prop :=
  ∀ w : Word,
    (legalWord w = true → ∃ i, decode w = .ok i ∧ encode i = w) ∧
      (legalWord w = false → ∃ e, decode w = .error e)

/-- R104: the opcode map, written out, with its illegal rows. -/
def Obligations.OpcodeMapWrittenOut : Prop :=
  decode 0x00000001#32 = .ok .getWidth ∧ decode 0x00000002#32 = .ok .getHeight ∧
    decode 0x00000003#32 = .ok .getPixel ∧ decode 0x00000004#32 = .ok .getPixels ∧
    decode 0x00000005#32 = .ok .setWidth ∧ decode 0x00000006#32 = .ok .setHeight ∧
    decode 0x00000007#32 = .ok .setPixel ∧ decode 0x00000008#32 = .ok .setPixels ∧
    decode 0x00000009#32 = .ok .save ∧ decode 0x0000000A#32 = .ok .load ∧
    decode 0x0000000B#32 = .ok .encChannel ∧ decode 0x0000000C#32 = .ok .decChannel ∧
    decode 0x00000000#32 = .error .illegalOpcode ∧
    ∀ c : Nat, 0x0D ≤ c → c ≤ 0xFF → decode (BitVec.ofNat 32 c) = .error .illegalOpcode

/-- R105, R106, R255: a word with an illegal opcode, or with a nonzero reserved bit whatever its opcode is, issued as the host's next action (log 1),
changes nothing but STATUS: CODE is ILLEGAL_CMD, VWARN and TRUNC are 0. -/
def Obligations.IllegalWordChangesOnlyStatus : Prop :=
  ∀ (s : State) (w : Word) (rest : List HostAct),
    s.faulted = false → s.script = .issue w :: rest →
    ((w.extractLsb' 0 8 = 0#8 ∨ 0x0D ≤ (w.extractLsb' 0 8).toNat) ∨ w.extractLsb' 8 24 ≠ 0#24) →
      ∃ st, StatusAfter .illegalCmd false false s.status st ∧
        step s = .next { s with status := st, script := rest }

/-! ## Pixel store access -/

/-- R131: GET_WIDTH, with its command word and all it leaves as it was. -/
def Obligations.GetWidthResult : Prop :=
  decode 0x00000001#32 = .ok .getWidth ∧
    ∀ s : State, s.faulted = false →
      ∃ st, StatusAfter .ok false false s.status st ∧
        exec .getWidth s = .next { s with result := s.width, status := st }

/-- R132: GET_HEIGHT, with its command word and all it leaves as it was. -/
def Obligations.GetHeightResult : Prop :=
  decode 0x00000002#32 = .ok .getHeight ∧
    ∀ s : State, s.faulted = false →
      ∃ st, StatusAfter .ok false false s.status st ∧
        exec .getHeight s = .next { s with result := s.height, status := st }

/-- R133: GET_PIXEL reads slot ARG1*WIDTH + ARG0, exact in ℕ, or takes Fault(OOB_READ) with RESULT unchanged. -/
def Obligations.GetPixelReadsSlotOrFaults : Prop :=
  decode 0x00000003#32 = .ok .getPixel ∧
    ∀ s : State, s.faulted = false →
      (∀ p, s.pixbuf[s.arg1.toNat * s.width.toNat + s.arg0.toNat]? = some p →
        ∃ st, StatusAfter .ok false false s.status st ∧
          exec .getPixel s = .next { s with result := pack p, status := st }) ∧
      (s.pixbuf.length ≤ s.arg1.toNat * s.width.toNat + s.arg0.toNat →
        ∃ st, StatusFaulted .oobRead false s.status st ∧
          exec .getPixel s = .next { s with status := st })

/-- R134: GET_PIXELS delivers PIXBUF on PIXOUT and its length modulo 2^32 in RESULT. -/
def Obligations.GetPixelsDeliversBuffer : Prop :=
  decode 0x00000004#32 = .ok .getPixels ∧
    ∀ s : State, s.faulted = false →
      ∃ st r, StatusAfter .ok false false s.status st ∧ r.toNat = s.pixbuf.length % 2 ^ 32 ∧
        exec .getPixels s = .next { s with pixOut := s.pixbuf, result := r, status := st }

/-- R135: SET_WIDTH, with its command word and all it leaves as it was. -/
def Obligations.SetWidthResult : Prop :=
  decode 0x00000005#32 = .ok .setWidth ∧
    ∀ s : State, s.faulted = false →
      ∃ st, StatusAfter .ok false false s.status st ∧
        exec .setWidth s = .next { s with width := s.arg0, status := st }

/-- R136: SET_HEIGHT, with its command word and all it leaves as it was. -/
def Obligations.SetHeightResult : Prop :=
  decode 0x00000006#32 = .ok .setHeight ∧
    ∀ s : State, s.faulted = false →
      ∃ st, StatusAfter .ok false false s.status st ∧
        exec .setHeight s = .next { s with height := s.arg0, status := st }

/-- R137: SET_PIXELS replaces PIXBUF wholesale, or takes Fault(CAPACITY) with PIXBUF unchanged. -/
def Obligations.SetPixelsReplacesOrFaults : Prop :=
  decode 0x00000008#32 = .ok .setPixels ∧
    ∀ s : State, s.faulted = false →
      (s.pixIn.length ≤ s.cfg.maxPixels →
        ∃ t, exec .setPixels s = .next t ∧ t.pixbuf = s.pixIn ∧
          t.width = s.width ∧ t.height = s.height ∧ SameArgs s t ∧ t.result = s.result ∧
          SameOutputs s t ∧ StatusAfter .ok false false s.status t.status) ∧
      (s.cfg.maxPixels < s.pixIn.length →
        ∃ t, exec .setPixels s = .next t ∧ SameImage s t ∧ SameArgs s t ∧ t.result = s.result ∧
          SameOutputs s t ∧ StatusFaulted .capacity false s.status t.status)

/-- R138, R139: SET_PIXEL writes the pixel of ARG2 to slot k = ARG1*WIDTH + ARG0.
Within LEN only slot k changes; past it LEN becomes k+1 and the slots in between hold DEFAULT_PIXEL; past P_MAX_PIXELS it takes Fault(CAPACITY). -/
def Obligations.SetPixelWritesSlotOrFaults : Prop :=
  decode 0x00000007#32 = .ok .setPixel ∧
    ∀ (s : State) (k : Nat), s.faulted = false → k = s.arg1.toNat * s.width.toNat + s.arg0.toNat →
      (k < s.cfg.maxPixels →
        ∃ st buf, StatusAfter .ok false false s.status st ∧
          exec .setPixel s = .next { s with pixbuf := buf, status := st } ∧
          buf[k]? = some (unpack s.arg2) ∧
          (k < s.pixbuf.length → buf.length = s.pixbuf.length) ∧
          (s.pixbuf.length ≤ k → buf.length = k + 1) ∧
          (∀ j, j < s.pixbuf.length → j ≠ k → buf[j]? = s.pixbuf[j]?) ∧
          (∀ j, s.pixbuf.length ≤ j → j < k → buf[j]? = some s.cfg.defaultPixel)) ∧
      (s.cfg.maxPixels ≤ k →
        ∃ st, StatusFaulted .capacity false s.status st ∧
          exec .setPixel s = .next { s with status := st })

/-- R103: the packed form of a pixel, bit by bit, and unpacking, which ignores bits 31:24. -/
def Obligations.PixelPackingBits : Prop :=
  (∀ (p : Pixel) (i : Nat), i < 8 →
    (pack p).getLsbD i = p.r.getLsbD i ∧ (pack p).getLsbD (8 + i) = p.g.getLsbD i ∧
      (pack p).getLsbD (16 + i) = p.b.getLsbD i ∧ (pack p).getLsbD (24 + i) = false) ∧
  (∀ (w : Word) (i : Nat), i < 8 →
    (unpack w).r.getLsbD i = w.getLsbD i ∧ (unpack w).g.getLsbD i = w.getLsbD (8 + i) ∧
      (unpack w).b.getLsbD i = w.getLsbD (16 + i)) ∧
  (∀ p : Pixel, unpack (pack p) = p)

/-- R140: after SET_PIXEL ends with OK, GET_PIXEL at the same coordinates gives the packed pixel with bits 31:24 zero:
at once, or after any one command other than SET_WIDTH, SET_PIXEL, SET_PIXELS and LOAD that ends without a fault. -/
def Obligations.PixelReadAfterWrite : Prop :=
  ∀ s t : State, s.faulted = false → exec .setPixel s = .next t → t.faulted = false →
    (∃ u, exec .getPixel t = .next u ∧ u.faulted = false ∧ statusCode u.status = 0 ∧
      u.result = s.arg2 &&& 0x00FFFFFF#32) ∧
    ∀ (i : Instr) (v : State), i ≠ .setWidth → i ≠ .setPixel → i ≠ .setPixels → i ≠ .load →
      exec i t = .next v → v.faulted = false →
        ∃ u, exec .getPixel v = .next u ∧ u.faulted = false ∧ statusCode u.status = 0 ∧
          u.result = s.arg2 &&& 0x00FFFFFF#32

/-- R77: SET_WIDTH, SET_HEIGHT and SET_PIXEL are idempotent, and so is SET_PIXELS when the same sequence stands on PIXIN again. -/
def Obligations.MutatorsAreIdempotent : Prop :=
  ∀ (s t : State),
    (∀ i : Instr, i = .setWidth ∨ i = .setHeight ∨ i = .setPixel →
      exec i s = .next t → exec i t = .next t) ∧
    (exec .setPixels s = .next t → exec .setPixels { t with pixIn := s.pixIn } =
      .next (if s.faulted || t.faulted then { t with pixIn := s.pixIn } else t))

/-! ## Channel codec -/

/-- R22: LE32 and unLE32 are each other's inverse, and unLE32 weighs byte j by 256^j. -/
def Obligations.LittleEndianInverse : Prop :=
  (∀ v : Word, unLE32 (le32 v) = v) ∧
    ∀ b0 b1 b2 b3 : Byte,
      le32 (unLE32 [b0, b1, b2, b3]) = [b0, b1, b2, b3] ∧
        (unLE32 [b0, b1, b2, b3]).toNat =
          b0.toNat + 256 * b1.toNat + 65536 * b2.toNat + 16777216 * b3.toNat

/-- R221: the length of a channel's encoding in bytes and in tokens, its two ends, and that it rises strictly with the value. -/
def Obligations.ChannelEncodingLength : Prop :=
  ∀ c : Config, c.wf = true →
    (∀ v : Byte, (chanEnc c v).length = (v.toNat + 1) * c.tokenLen ∧
      (cutTokens c.tokenLen (chanEnc c v)).length = v.toNat + 1) ∧
      cutTokens c.tokenLen (chanEnc c 0#8) = [c.term] ∧
      cutTokens c.tokenLen (chanEnc c 255#8) = List.replicate 255 c.unit ++ [c.term] ∧
      ∀ v : Byte, v.toNat ≤ 254 → (chanEnc c v).length < (chanEnc c (v + 1#8)).length

/-- R223: the value of a run, in the four cases of the rule. -/
def Obligations.RunToChannelValue : Prop :=
  ∀ (c : Config) (run : Nat),
    (run ≤ 255 → ∃ v, chan c run = some v ∧ v.toNat = run) ∧
      (255 < run → c.runOverflow = .wrap → ∃ v, chan c run = some v ∧ v.toNat = run % 256) ∧
      (255 < run → c.runOverflow = .saturate → ∃ v, chan c run = some v ∧ v.toNat = 255) ∧
      (255 < run → c.runOverflow = .fault → chan c run = none)

/-- R226: the tokens of ChanEnc(v) decode to v and leave the tokens after them, a concatenation decodes value by value,
and with UNIT = TERM the encoding of 1 decodes to 0 and leaves a terminator. -/
def Obligations.ChannelCodeInverts : Prop :=
  (∀ (c : Config) (v : Byte) (rest : List Byte), c.wf = true →
    cutTokens c.tokenLen (chanEnc c v ++ rest) =
      List.replicate v.toNat c.unit ++ c.term :: cutTokens c.tokenLen rest ∧
    chanDec c (cutTokens c.tokenLen (chanEnc c v ++ rest)) =
      some (some v, cutTokens c.tokenLen rest)) ∧
  (∀ c : Config, 1 ≤ c.tokenLen → c.unit = c.term →
    chanDec c (cutTokens c.tokenLen (chanEnc c 1#8)) = some (some 0#8, [c.term]))

/-- R227: ENC_CHANNEL writes ChanEnc(ARG0[7:0]) and gives the number of tokens, or ends with IO_ERROR, OUT holding the bytes before the failing one. -/
def Obligations.EncChannelResult : Prop :=
  decode 0x0000000B#32 = .ok .encChannel ∧
    ∀ (s : State) (v : Byte), s.faulted = false → v = s.arg0.extractLsb' 0 8 →
      (NoFailureBelow s.outDraws (chanEnc s.cfg v).length →
        ∃ t, exec .encChannel s = .next t ∧ t.output = chanEnc s.cfg v ∧
          t.result.toNat = v.toNat + 1 ∧ SameImage s t ∧ SameArgs s t ∧ t.pixOut = s.pixOut ∧
          StatusAfter .ok false false s.status t.status) ∧
      (s.outDraws.openFail = true →
        ∃ t, exec .encChannel s = .next t ∧ t.output = [] ∧ t.result = s.result ∧ SameImage s t ∧
          SameArgs s t ∧ t.pixOut = s.pixOut ∧ StatusAfter .ioError false false s.status t.status) ∧
      (∀ i, FirstFailure s.outDraws i → i < (chanEnc s.cfg v).length →
        ∃ t, exec .encChannel s = .next t ∧ t.output = (chanEnc s.cfg v).take i ∧
          t.result = s.result ∧ SameImage s t ∧ SameArgs s t ∧ t.pixOut = s.pixOut ∧
          StatusAfter .ioError false false s.status t.status)

/-- R228 with R222: DEC_CHANNEL gives the first channel value of its stream by ChanDec, OK with TRUNC where there is none,
Fault(RUN_OVERFLOW) where the run has no value, and IO_ERROR on an open failure or where a read fails before the first terminator is complete. -/
def Obligations.DecChannelResult : Prop :=
  decode 0x0000000C#32 = .ok .decChannel ∧
    ∀ s : State, s.faulted = false → s.cfg.wf = true →
      (NoFailureBelow s.inDraws s.input.length →
        ∃ t, exec .decChannel s = .next t ∧ ChannelOutcome s.input s t ∧ SameImage s t ∧
          SameArgs s t ∧ SameOutputs s t) ∧
      (s.inDraws.openFail = true →
        ∃ t, exec .decChannel s = .next t ∧ t.result = s.result ∧ SameImage s t ∧ SameArgs s t ∧
          SameOutputs s t ∧ StatusAfter .ioError false false s.status t.status) ∧
      (∀ i, FirstFailure s.inDraws i → i < s.input.length →
        ∃ t, exec .decChannel s = .next t ∧ SameImage s t ∧ SameArgs s t ∧ SameOutputs s t ∧
          (chanDec s.cfg (cutTokens s.cfg.tokenLen (s.input.take i)) = none →
            t.result = s.result ∧ StatusAfter .ioError false false s.status t.status) ∧
          (chanDec s.cfg (cutTokens s.cfg.tokenLen (s.input.take i)) ≠ none →
            ChannelOutcome (s.input.take i) s t))

/-- R226, R227, R228: DEC_CHANNEL of what ENC_CHANNEL wrote, with any bytes after it, gives the value back. -/
def Obligations.DecChannelInvertsEncChannel : Prop :=
  ∀ (s t r : State) (rest : List Byte), s.faulted = false → r.faulted = false → s.cfg.wf = true →
    r.cfg = s.cfg → NoDraws s.outDraws → NoDraws r.inDraws → exec .encChannel s = .next t →
      ∃ u, exec .decChannel { r with input := t.output ++ rest } = .next u ∧
        u.result = s.arg0 &&& 0xFF#32 ∧ StatusAfter .ok false false r.status u.status

/-! ## Frames: SAVE -/

/-- R171: SAVE writes exactly Encode(S) and gives the extent. -/
def Obligations.SaveWritesFrame : Prop :=
  ∀ s : State, s.faulted = false → saveExtent s ≤ s.pixbuf.length →
    NoFailureBelow s.outDraws (encodeFrame s).length →
      ∃ t, exec .save s = .next t ∧ t.output = encodeFrame s ∧
        t.result.toNat = saveExtent s % 2 ^ 32 ∧ SameImage s t ∧ SameArgs s t ∧
        t.pixOut = s.pixOut ∧ StatusAfter .ok false false s.status t.status

/-- R173: an open failure writes nothing, and a write that fails at output byte i leaves the bytes before it; IO_ERROR, RESULT unchanged. -/
def Obligations.SaveFailureLeavesPrefix : Prop :=
  ∀ s : State, s.faulted = false →
    (s.outDraws.openFail = true →
      ∃ t, exec .save s = .next t ∧ t.output = [] ∧ t.result = s.result ∧
        StatusAfter .ioError false false s.status t.status) ∧
    (∀ i, FirstFailure s.outDraws i → i < (encodeFrame s).length →
      ∃ t, exec .save s = .next t ∧ t.output = (encodeFrame s).take i ∧ t.result = s.result ∧
        StatusAfter .ioError false false s.status t.status)

/-- R170, R172: with the extent past LEN, which only P_SAVE_EXTENT = DIMENSIONS allows, SAVE writes the header and every stored pixel and then takes Fault(OOB_READ). -/
def Obligations.SaveBeyondBufferFaults : Prop :=
  ∀ s : State, s.faulted = false → s.pixbuf.length < saveExtent s →
    NoFailureBelow s.outDraws (encodeFrame s).length →
      s.cfg.saveExtent = .dimensions ∧
        ∃ t, exec .save s = .next t ∧
          t.output = frameHeader s ++ pixelStream s.cfg s.pixbuf ∧ t.result = s.result ∧
          SameImage s t ∧ StatusFaulted .oobRead false s.status t.status

/-- R174: SAVE changes no WIDTH, HEIGHT or PIXBUF on success, on failure or on a fault; it writes only OUT, RESULT and STATUS. -/
def Obligations.SaveKeepsImage : Prop :=
  ∀ s t : State, exec .save s = .next t →
    SameImage s t ∧ SameArgs s t ∧ t.pixOut = s.pixOut ∧ t.input = s.input ∧ t.pixIn = s.pixIn

/-- R99: the length of a frame that SAVE writes. -/
def Obligations.FrameLength : Prop :=
  ∀ s : State, s.cfg.wf = true →
    (encodeFrame s).length =
      s.cfg.sigLen + 12 + s.cfg.tokenLen *
        ((s.pixbuf.take (saveExtent s)).map fun p => p.r.toNat + p.g.toNat + p.b.toNat + 3).sum

/-! ## Frames: LOAD -/

/-- R198: the byte-driven machine of LOAD agrees with the closed form Decode on every byte sequence read with no I/O failure,
and it leaves ARG0 to ARG2, OUT and PIXOUT as they were. -/
def Obligations.LoadMatchesDecode : Prop :=
  ∀ s : State, s.faulted = false → s.cfg.wf = true → NoDraws s.inDraws →
    ∃ t, exec .load s = .next t ∧ LoadOutcome s t ∧ SameArgs s t ∧ SameOutputs s t

/-- R176: a LOAD whose open fails ends with IO_ERROR and changes no WIDTH, HEIGHT, PIXBUF or RESULT. -/
def Obligations.LoadOpenFailure : Prop :=
  ∀ s : State, s.faulted = false → s.inDraws.openFail = true →
    ∃ t, exec .load s = .next t ∧ SameImage s t ∧ t.result = s.result ∧ SameArgs s t ∧
      SameOutputs s t ∧ StatusAfter .ioError false false s.status t.status

/-- R193, R261, R263: a read that fails at offset p leaves what the bytes before p give: if a LOAD of those bytes alone faults, or rejects a complete signature,
this LOAD ends the same way before it reaches p; else it ends with IO_ERROR, WIDTH, HEIGHT, PIXBUF and VWARN as those bytes leave them, and RESULT unchanged. -/
def Obligations.LoadReadFailureKeepsPrefixEffects : Prop :=
  ∀ (s t : State) (p : Nat), s.faulted = false → s.cfg.wf = true →
    FirstFailure s.inDraws p → p < s.input.length →
    exec .load { s with input := s.input.take p, inDraws := Draws.none } = .next t →
      (t.faulted = true ∨ (s.cfg.sigLen ≤ p ∧ s.input.take s.cfg.sigLen ≠ s.cfg.sig) →
        exec .load s = .next t) ∧
      (t.faulted = false ∧ (p < s.cfg.sigLen ∨ s.input.take s.cfg.sigLen = s.cfg.sig) →
        ∃ u, exec .load s = .next u ∧ u.width = t.width ∧ u.height = t.height ∧
          u.pixbuf = t.pixbuf ∧ u.result = s.result ∧ SameArgs s u ∧ SameOutputs s u ∧
          StatusAfter .ioError (statusVwarn t.status) false s.status u.status)

/-- R200: a LOAD of a stream shorter than the signature, or with other first bytes, ends with FORMAT_ERROR and with no other code, the state unchanged. -/
def Obligations.WrongSignatureIsFormatError : Prop :=
  ∀ s : State, s.faulted = false → NoDraws s.inDraws →
    (s.input.length < s.cfg.sigLen ∨ s.input.take s.cfg.sigLen ≠ s.cfg.sig) →
      ∃ t, exec .load s = .next t ∧ SameImage s t ∧ t.result = s.result ∧ SameArgs s t ∧
        SameOutputs s t ∧ StatusAfter .formatError false false s.status t.status

/-- R196: two LOADs of streams that differ only in the version field leave the same WIDTH, HEIGHT, PIXBUF and RESULT, and STATUS but for VWARN,
which is 1 exactly when the version is not 1. -/
def Obligations.VersionMismatchOnlyWarns : Prop :=
  ∀ (s : State) (v : Word) (rest : List Byte), s.faulted = false → s.cfg.wf = true →
    NoDraws s.inDraws →
      ∃ t u, exec .load { s with input := s.cfg.sig ++ le32 v ++ rest } = .next t ∧
        exec .load { s with input := s.cfg.sig ++ le32 Config.version ++ rest } = .next u ∧
        SameImage u t ∧ t.result = u.result ∧
        (∀ i, i < 32 → i ≠ 4 → t.status.getLsbD i = u.status.getLsbD i) ∧
        statusVwarn t.status = decide (v ≠ 1#32) ∧ statusVwarn u.status = false

/-- R199: the round trip. A LOAD of what SAVE wrote, under the same configuration and with no I/O failure, ends with OK, VWARN = 0 and TRUNC = 0
and gives back WIDTH, HEIGHT and PIXBUF, when the image is coherent or P_SAVE_EXTENT = SEQUENCE, and the LOAD starts from an empty PIXBUF or P_LOAD_CLEARS holds. -/
def Obligations.LoadOfSaveRoundTrip : Prop :=
  ∀ s r : State, s.faulted = false → r.faulted = false → s.cfg.wf = true → r.cfg = s.cfg →
    s.pixbuf.length ≤ s.cfg.maxPixels → NoDraws s.outDraws → NoDraws r.inDraws →
    (s.pixbuf.length = s.width.toNat * s.height.toNat ∨ s.cfg.saveExtent = .sequence) →
    (r.pixbuf = [] ∨ r.cfg.loadClears = true) →
      ∃ t u, exec .save s = .next t ∧ exec .load { r with input := t.output } = .next u ∧
        u.width = s.width ∧ u.height = s.height ∧ u.pixbuf = s.pixbuf ∧
        u.result.toNat = s.pixbuf.length % 2 ^ 32 ∧ StatusAfter .ok false false r.status u.status

/-- R201: SAVE of the empty image writes the header alone, N+12 bytes, and a LOAD of it from reset gives the empty image with OK. -/
def Obligations.EmptyImageRoundTrip : Prop :=
  ∀ s : State, s.faulted = false → s.cfg.wf = true → NoDraws s.outDraws →
    s.width = 0#32 → s.height = 0#32 → s.pixbuf = [] →
      ∃ t u, exec .save s = .next t ∧
        t.output = s.cfg.sig ++ [1#8, 0#8, 0#8, 0#8, 0#8, 0#8, 0#8, 0#8, 0#8, 0#8, 0#8, 0#8] ∧
        t.output.length = s.cfg.sigLen + 12 ∧
        exec .load { hostReset s with input := t.output } = .next u ∧
        statusCode u.status = 0 ∧ u.width = 0#32 ∧ u.height = 0#32 ∧ u.pixbuf = []

/-- R50, R73: inside LOAD the phase is a function of the bytes consumed, and the number of accumulated bytes is the number consumed since the start of the field or token. -/
def Obligations.PhaseFollowsOffset : Prop :=
  ∀ (s t : State) (b : Byte) (rest : List Byte), s.cfg.wf = true →
    s.dec.phase = phaseAt s.cfg s.dec.pos → s.dec.acc.length = offsetInField s.cfg s.dec.pos →
    loadByte b (consume rest s) = .more t →
      t.dec.pos = s.dec.pos + 1 ∧ t.dec.phase = phaseAt s.cfg t.dec.pos ∧
        t.dec.acc.length = offsetInField s.cfg t.dec.pos

/-! ## Outcomes -/

/-- R265: while FAULT = 1 a command has no effect at all, and neither has any command word. That the block then still answers a next state, itself, is the model's reading (log 3). -/
def Obligations.FaultedBlockIgnoresCommands : Prop :=
  ∀ s : State, s.faulted = true →
    (∀ i : Instr, exec i s = .next s) ∧
      ∀ (w : Word) (rest : List HostAct), s.script = .issue w :: rest →
        step s = .next { s with script := rest }

/-- R43, R264: FAULT and FCAUSE are cleared only by reset: whatever else the host does next, STATUS keeps its value. The list of the host's actions is the model's own (log 1). -/
def Obligations.FaultClearedOnlyByReset : Prop :=
  ∀ s t : State, s.faulted = true → s.script.head? ≠ some .reset →
    (∀ w n, s.script.head? ≠ some (.issueReset w n)) → step s = .next t → t.status = s.status

/-- R256: when a command takes the fault, RESULT and CODE keep their values, TRUNC is what the dispatch made it, and FAULT and FCAUSE are written together. -/
def Obligations.FaultKeepsResultAndCode : Prop :=
  ∀ (i : Instr) (s t : State), s.faulted = false → exec i s = .next t → t.faulted = true →
    t.result = s.result ∧ statusCode t.status = statusCode s.status ∧
      statusTrunc t.status = false ∧
      (statusFcause t.status = 1 ∨ statusFcause t.status = 2 ∨ statusFcause t.status = 3)

/-- R257: which command may take which fault, and under which parameter. -/
def Obligations.FaultCausesByCommand : Prop :=
  ∀ (i : Instr) (s t : State), s.faulted = false → exec i s = .next t → t.faulted = true →
    (statusFcause t.status = 1 →
      (i = .getPixel ∧ s.pixbuf.length ≤ s.arg1.toNat * s.width.toNat + s.arg0.toNat) ∨
        (i = .save ∧ s.cfg.saveExtent = .dimensions ∧
          s.pixbuf.length < s.width.toNat * s.height.toNat)) ∧
    (statusFcause t.status = 2 →
      (i = .setPixel ∧ s.cfg.maxPixels ≤ s.arg1.toNat * s.width.toNat + s.arg0.toNat) ∨
        (i = .setPixels ∧ s.cfg.maxPixels < s.pixIn.length) ∨
        (i = .load ∧ s.cfg.maxPixels ≤ t.pixbuf.length)) ∧
    (statusFcause t.status = 3 →
      (i = .load ∨ i = .decChannel) ∧ s.cfg.runOverflow = .fault)

/-- R251, R253, R254: which command may end with which code; IO_ERROR needs a failure draw, FORMAT_ERROR is LOAD's alone, and no legal command ends with ILLEGAL_CMD. -/
def Obligations.ResultCodesByCommand : Prop :=
  ∀ (i : Instr) (s t : State), s.faulted = false → exec i s = .next t → t.faulted = false →
    (statusCode t.status = 0 ∨ statusCode t.status = 1 ∨ statusCode t.status = 2) ∧
    (statusCode t.status = 1 →
      ((i = .save ∨ i = .encChannel) ∧ ¬ NoDraws s.outDraws) ∨
        ((i = .load ∨ i = .decChannel) ∧ ¬ NoDraws s.inDraws)) ∧
    (statusCode t.status = 2 → i = .load ∧ SameImage s t ∧ t.result = s.result)

/-- R41, R42: every command that runs clears VWARN and TRUNC; only LOAD sets VWARN, and only LOAD and DEC_CHANNEL set TRUNC. -/
def Obligations.WarningsOnlyFromDecoders : Prop :=
  ∀ (i : Instr) (s t : State), s.faulted = false → exec i s = .next t →
    (statusVwarn t.status = true → i = .load) ∧
      (statusTrunc t.status = true → i = .load ∨ i = .decChannel)

/-- R32, R33, R35, R37, R38: which command may write which register, whatever its outcome. -/
def Obligations.RegisterWriters : Prop :=
  ∀ (i : Instr) (s t : State), exec i s = .next t →
    SameArgs s t ∧
    (t.width ≠ s.width → i = .setWidth ∨ i = .load) ∧
    (t.height ≠ s.height → i = .setHeight ∨ i = .load) ∧
    (t.pixbuf ≠ s.pixbuf → i = .setPixel ∨ i = .setPixels ∨ i = .load) ∧
    (i = .setPixel → s.pixbuf.length ≤ t.pixbuf.length) ∧
    (t.result ≠ s.result →
      i ≠ .setWidth ∧ i ≠ .setHeight ∧ i ≠ .setPixel ∧ i ≠ .setPixels) ∧
    (t.output ≠ s.output → i = .save ∨ i = .encChannel) ∧
    (t.pixOut ≠ s.pixOut → i = .getPixels)

/-- R65, R48: after a command that reads a stream and runs, no byte of the stream is left for a later command.
That the decoder field then holds its idle value is the model's own choice (log 6), and that the draws leave with the stream too (log 7). -/
def Obligations.ReadersLeaveNoInput : Prop :=
  ∀ (i : Instr) (s t : State), i = .load ∨ i = .decChannel → s.faulted = false →
    exec i s = .next t → t.input = [] ∧ t.dec = Decoder.idle ∧ t.inDraws = Draws.none

/-! ## The host port, reset and the step -/

/-- R102: when the host issues a word that decodes to a well-formed command, the step runs exactly that command, the rest of the host's actions left to come;
`withFetchWord` is the state in which the host issues the word next. The list of actions is the model's own (log 1, log 12). -/
def Obligations.StepRunsIssuedCommand : Prop :=
  (∀ (s : State) (w : Word) (rest : List HostAct) (i : Instr),
    s.script = .issue w :: rest → decode w = .ok i → i.wf = true →
      step s = exec i { s with script := rest }) ∧
  (∀ (s : State) (w : Word) (i : Instr), decode w = .ok i →
    step (s.withFetchWord 32 w.toNat) = exec i s)

/-- R274: with no action of the host to come the block is idle and holds its state. An empty list of actions for an idle host is the model's own (log 1). -/
def Obligations.IdleStepHoldsState : Prop :=
  ∀ s : State, s.script = [] → step s = .next s

/-- R37, R38, R45: a host write to ARG0, ARG1 or ARG2 changes that register alone, and one to RESULT or STATUS is ignored; each is then read back.
No premise says FAULT = 0: that a faulted block takes these writes too is the model's own choice, the spec being silent (log 11). The list of the host's actions is the model's own (log 1). -/
def Obligations.HostRegisterWrites : Prop :=
  ∀ (s : State) (r : HostReg) (v : Word) (rest : List HostAct), s.script = .write r v :: rest →
    ∃ t, step s = .next t ∧
      t = (match r with
        | .arg0 => { s with arg0 := v, script := rest }
        | .arg1 => { s with arg1 := v, script := rest }
        | .arg2 => { s with arg2 := v, script := rest }
        | .result => { s with script := rest }
        | .status => { s with script := rest }) ∧
      hostRead r t = (if r = .result ∨ r = .status then hostRead r s else v)

/-- R290, R46: reset puts every register at its reset value, from any state, a faulted one too; the configuration stays. The list of the host's actions is the model's own (log 1). -/
def Obligations.ResetRestoresRegisters : Prop :=
  ResetRegisters State.reset ∧
    ∀ (s : State) (rest : List HostAct), s.script = .reset :: rest →
      ∃ t, step s = .next t ∧ ResetRegisters t ∧ t.cfg = s.cfg ∧ t.script = rest

/-- R292: a reset asserted while a command runs leaves the state of reset; output already written stays written, and unconsumed input is discarded.
That the reset strikes after at most `n` output bytes, `n` chosen by the host's action, is the model's own (log 8). -/
def Obligations.ResetDuringCommand : Prop :=
  ∀ (s : State) (w : Word) (n : Nat) (rest : List HostAct), s.script = .issueReset w n :: rest →
    ∃ t, step s = .next t ∧ ResetRegisters t ∧ t.input = [] ∧ t.cfg = s.cfg ∧ t.script = rest ∧
      ∀ i u, decode w = .ok i → exec i { s with script := rest } = .next u →
        ((i = .save ∨ i = .encChannel) → s.faulted = false → t.output = u.output.take n) ∧
        ((i ≠ .save ∧ i ≠ .encChannel) → t.output = s.output)

/-- R272, R296: a second command issued while one is running is refused. The action `overlap` of the host's list is the model's own (log 1, log 9). -/
def Obligations.OverlappingCommandRefused : Prop :=
  ∀ (s : State) (first second : Word) (rest : List HostAct),
    s.script = .overlap first second :: rest → step s = .refused .overlappingCommand

/-- R46: no command, no reset and no other action of the host changes the configuration. That State holds it is the model's own (log 2). -/
def Obligations.ConfigurationNeverChanges : Prop :=
  ∀ s t : State, step s = .next t → t.cfg = s.cfg

/-- R35, R40, R44, R45, R48: every step keeps the invariant: the configuration meets its constraints, LEN is at most P_MAX_PIXELS,
STATUS holds a legal code and cause with FAULT set exactly when there is a cause and every reserved bit 0, and no decoder state is left (log 6). -/
def Obligations.StepKeepsInvariant : Prop :=
  ∀ s t : State, s.inv = true → step s = .next t → t.inv = true

/-- The invariant holds right after reset; that the configuration meets its constraints there is how the model draws it (log 2). -/
def Obligations.InvariantHoldsAtReset : Prop := State.reset.inv = true

/-- R110: NEWIMAGE gives an image of the given dimensions with an empty pixel sequence, and SETDIM sets the two dimensions and keeps the pixels. -/
def Obligations.PseudoInstructionsSetDimensions : Prop :=
  ∀ (s : State) (d : Draws) (w h : Nat), s.faulted = false → asmLineOk (.newImage w h) = true →
    (∃ t, runSteps 6 { s with script := asmExpand d (.newImage w h) } = some t ∧
      t.width.toNat = w ∧ t.height.toNat = h ∧ t.pixbuf = [] ∧ t.faulted = false) ∧
    (∃ t, runSteps 4 { s with script := asmExpand d (.setDim w h) } = some t ∧
      t.width.toNat = w ∧ t.height.toNat = h ∧ t.pixbuf = s.pixbuf ∧ t.faulted = false)

/-- R109, R138: the assembly line SET_PIXEL x, y, (r,g,b) puts that pixel in slot y*WIDTH + x. -/
def Obligations.AssembledSetPixelWritesPixel : Prop :=
  ∀ (s : State) (d : Draws) (x y r g b : Nat), s.faulted = false →
    asmLineOk (.setPixel x y r g b) = true → y * s.width.toNat + x < s.cfg.maxPixels →
      ∃ t p, runSteps 4 { s with script := asmExpand d (.setPixel x y r g b) } = some t ∧
        t.pixbuf[y * s.width.toNat + x]? = some p ∧ p.r.toNat = r ∧ p.g.toNat = g ∧ p.b.toNat = b
end

