-- ==== Sys2Proof/Laws/State.lean ====
section
/-! SUPPORT. One lemma per field of the state and update of it, each true by `rfl`: a proof about an update never unfolds it. -/

namespace Sys2Proof.Machine

open Sys2Proof

@[simp] theorem finish_width (c : ResultCode) (s : State) : (finish c s).width = s.width := rfl
@[simp] theorem finish_height (c : ResultCode) (s : State) : (finish c s).height = s.height := rfl
@[simp] theorem finish_pixbuf (c : ResultCode) (s : State) : (finish c s).pixbuf = s.pixbuf := rfl
@[simp] theorem finish_arg0 (c : ResultCode) (s : State) : (finish c s).arg0 = s.arg0 := rfl
@[simp] theorem finish_arg1 (c : ResultCode) (s : State) : (finish c s).arg1 = s.arg1 := rfl
@[simp] theorem finish_arg2 (c : ResultCode) (s : State) : (finish c s).arg2 = s.arg2 := rfl
@[simp] theorem finish_result (c : ResultCode) (s : State) : (finish c s).result = s.result := rfl
@[simp] theorem finish_status (c : ResultCode) (s : State) : (finish c s).status = setCode s.status c := rfl
@[simp] theorem finish_dec (c : ResultCode) (s : State) : (finish c s).dec = s.dec := rfl
@[simp] theorem finish_input (c : ResultCode) (s : State) : (finish c s).input = s.input := rfl
@[simp] theorem finish_output (c : ResultCode) (s : State) : (finish c s).output = s.output := rfl
@[simp] theorem finish_pixIn (c : ResultCode) (s : State) : (finish c s).pixIn = s.pixIn := rfl
@[simp] theorem finish_pixOut (c : ResultCode) (s : State) : (finish c s).pixOut = s.pixOut := rfl
@[simp] theorem finish_inDraws (c : ResultCode) (s : State) : (finish c s).inDraws = s.inDraws := rfl
@[simp] theorem finish_outDraws (c : ResultCode) (s : State) : (finish c s).outDraws = s.outDraws := rfl
@[simp] theorem finish_cfg (c : ResultCode) (s : State) : (finish c s).cfg = s.cfg := rfl
@[simp] theorem finish_script (c : ResultCode) (s : State) : (finish c s).script = s.script := rfl

@[simp] theorem raiseFault_width (c : Cause) (s : State) : (raiseFault c s).width = s.width := rfl
@[simp] theorem raiseFault_height (c : Cause) (s : State) : (raiseFault c s).height = s.height := rfl
@[simp] theorem raiseFault_pixbuf (c : Cause) (s : State) : (raiseFault c s).pixbuf = s.pixbuf := rfl
@[simp] theorem raiseFault_arg0 (c : Cause) (s : State) : (raiseFault c s).arg0 = s.arg0 := rfl
@[simp] theorem raiseFault_arg1 (c : Cause) (s : State) : (raiseFault c s).arg1 = s.arg1 := rfl
@[simp] theorem raiseFault_arg2 (c : Cause) (s : State) : (raiseFault c s).arg2 = s.arg2 := rfl
@[simp] theorem raiseFault_result (c : Cause) (s : State) : (raiseFault c s).result = s.result := rfl
@[simp] theorem raiseFault_status (c : Cause) (s : State) : (raiseFault c s).status = setFault s.status c := rfl
@[simp] theorem raiseFault_dec (c : Cause) (s : State) : (raiseFault c s).dec = s.dec := rfl
@[simp] theorem raiseFault_input (c : Cause) (s : State) : (raiseFault c s).input = s.input := rfl
@[simp] theorem raiseFault_output (c : Cause) (s : State) : (raiseFault c s).output = s.output := rfl
@[simp] theorem raiseFault_pixIn (c : Cause) (s : State) : (raiseFault c s).pixIn = s.pixIn := rfl
@[simp] theorem raiseFault_pixOut (c : Cause) (s : State) : (raiseFault c s).pixOut = s.pixOut := rfl
@[simp] theorem raiseFault_inDraws (c : Cause) (s : State) : (raiseFault c s).inDraws = s.inDraws := rfl
@[simp] theorem raiseFault_outDraws (c : Cause) (s : State) : (raiseFault c s).outDraws = s.outDraws := rfl
@[simp] theorem raiseFault_cfg (c : Cause) (s : State) : (raiseFault c s).cfg = s.cfg := rfl
@[simp] theorem raiseFault_script (c : Cause) (s : State) : (raiseFault c s).script = s.script := rfl

@[simp] theorem markTrunc_width (b : Bool) (s : State) : (markTrunc b s).width = s.width := rfl
@[simp] theorem markTrunc_height (b : Bool) (s : State) : (markTrunc b s).height = s.height := rfl
@[simp] theorem markTrunc_pixbuf (b : Bool) (s : State) : (markTrunc b s).pixbuf = s.pixbuf := rfl
@[simp] theorem markTrunc_arg0 (b : Bool) (s : State) : (markTrunc b s).arg0 = s.arg0 := rfl
@[simp] theorem markTrunc_arg1 (b : Bool) (s : State) : (markTrunc b s).arg1 = s.arg1 := rfl
@[simp] theorem markTrunc_arg2 (b : Bool) (s : State) : (markTrunc b s).arg2 = s.arg2 := rfl
@[simp] theorem markTrunc_result (b : Bool) (s : State) : (markTrunc b s).result = s.result := rfl
@[simp] theorem markTrunc_status (b : Bool) (s : State) : (markTrunc b s).status = setTrunc s.status b := rfl
@[simp] theorem markTrunc_dec (b : Bool) (s : State) : (markTrunc b s).dec = s.dec := rfl
@[simp] theorem markTrunc_input (b : Bool) (s : State) : (markTrunc b s).input = s.input := rfl
@[simp] theorem markTrunc_output (b : Bool) (s : State) : (markTrunc b s).output = s.output := rfl
@[simp] theorem markTrunc_pixIn (b : Bool) (s : State) : (markTrunc b s).pixIn = s.pixIn := rfl
@[simp] theorem markTrunc_pixOut (b : Bool) (s : State) : (markTrunc b s).pixOut = s.pixOut := rfl
@[simp] theorem markTrunc_inDraws (b : Bool) (s : State) : (markTrunc b s).inDraws = s.inDraws := rfl
@[simp] theorem markTrunc_outDraws (b : Bool) (s : State) : (markTrunc b s).outDraws = s.outDraws := rfl
@[simp] theorem markTrunc_cfg (b : Bool) (s : State) : (markTrunc b s).cfg = s.cfg := rfl
@[simp] theorem markTrunc_script (b : Bool) (s : State) : (markTrunc b s).script = s.script := rfl

@[simp] theorem startCommand_width (s : State) : (startCommand s).width = s.width := rfl
@[simp] theorem startCommand_height (s : State) : (startCommand s).height = s.height := rfl
@[simp] theorem startCommand_pixbuf (s : State) : (startCommand s).pixbuf = s.pixbuf := rfl
@[simp] theorem startCommand_arg0 (s : State) : (startCommand s).arg0 = s.arg0 := rfl
@[simp] theorem startCommand_arg1 (s : State) : (startCommand s).arg1 = s.arg1 := rfl
@[simp] theorem startCommand_arg2 (s : State) : (startCommand s).arg2 = s.arg2 := rfl
@[simp] theorem startCommand_result (s : State) : (startCommand s).result = s.result := rfl
@[simp] theorem startCommand_status (s : State) : (startCommand s).status = clearWarnings s.status := rfl
@[simp] theorem startCommand_dec (s : State) : (startCommand s).dec = s.dec := rfl
@[simp] theorem startCommand_input (s : State) : (startCommand s).input = s.input := rfl
@[simp] theorem startCommand_output (s : State) : (startCommand s).output = s.output := rfl
@[simp] theorem startCommand_pixIn (s : State) : (startCommand s).pixIn = s.pixIn := rfl
@[simp] theorem startCommand_pixOut (s : State) : (startCommand s).pixOut = s.pixOut := rfl
@[simp] theorem startCommand_inDraws (s : State) : (startCommand s).inDraws = s.inDraws := rfl
@[simp] theorem startCommand_outDraws (s : State) : (startCommand s).outDraws = s.outDraws := rfl
@[simp] theorem startCommand_cfg (s : State) : (startCommand s).cfg = s.cfg := rfl
@[simp] theorem startCommand_script (s : State) : (startCommand s).script = s.script := rfl

@[simp] theorem consume_width (rest : List Byte) (s : State) : (consume rest s).width = s.width := rfl
@[simp] theorem consume_height (rest : List Byte) (s : State) : (consume rest s).height = s.height := rfl
@[simp] theorem consume_pixbuf (rest : List Byte) (s : State) : (consume rest s).pixbuf = s.pixbuf := rfl
@[simp] theorem consume_arg0 (rest : List Byte) (s : State) : (consume rest s).arg0 = s.arg0 := rfl
@[simp] theorem consume_arg1 (rest : List Byte) (s : State) : (consume rest s).arg1 = s.arg1 := rfl
@[simp] theorem consume_arg2 (rest : List Byte) (s : State) : (consume rest s).arg2 = s.arg2 := rfl
@[simp] theorem consume_result (rest : List Byte) (s : State) : (consume rest s).result = s.result := rfl
@[simp] theorem consume_status (rest : List Byte) (s : State) : (consume rest s).status = s.status := rfl
@[simp] theorem consume_dec (rest : List Byte) (s : State) : (consume rest s).dec = { s.dec with pos := s.dec.pos + 1 } := rfl
@[simp] theorem consume_input (rest : List Byte) (s : State) : (consume rest s).input = rest := rfl
@[simp] theorem consume_output (rest : List Byte) (s : State) : (consume rest s).output = s.output := rfl
@[simp] theorem consume_pixIn (rest : List Byte) (s : State) : (consume rest s).pixIn = s.pixIn := rfl
@[simp] theorem consume_pixOut (rest : List Byte) (s : State) : (consume rest s).pixOut = s.pixOut := rfl
@[simp] theorem consume_inDraws (rest : List Byte) (s : State) : (consume rest s).inDraws = s.inDraws := rfl
@[simp] theorem consume_outDraws (rest : List Byte) (s : State) : (consume rest s).outDraws = s.outDraws := rfl
@[simp] theorem consume_cfg (rest : List Byte) (s : State) : (consume rest s).cfg = s.cfg := rfl
@[simp] theorem consume_script (rest : List Byte) (s : State) : (consume rest s).script = s.script := rfl

@[simp] theorem closeInput_width (s : State) : (closeInput s).width = s.width := rfl
@[simp] theorem closeInput_height (s : State) : (closeInput s).height = s.height := rfl
@[simp] theorem closeInput_pixbuf (s : State) : (closeInput s).pixbuf = s.pixbuf := rfl
@[simp] theorem closeInput_arg0 (s : State) : (closeInput s).arg0 = s.arg0 := rfl
@[simp] theorem closeInput_arg1 (s : State) : (closeInput s).arg1 = s.arg1 := rfl
@[simp] theorem closeInput_arg2 (s : State) : (closeInput s).arg2 = s.arg2 := rfl
@[simp] theorem closeInput_result (s : State) : (closeInput s).result = s.result := rfl
@[simp] theorem closeInput_status (s : State) : (closeInput s).status = s.status := rfl
@[simp] theorem closeInput_dec (s : State) : (closeInput s).dec = Decoder.idle := rfl
@[simp] theorem closeInput_input (s : State) : (closeInput s).input = [] := rfl
@[simp] theorem closeInput_output (s : State) : (closeInput s).output = s.output := rfl
@[simp] theorem closeInput_pixIn (s : State) : (closeInput s).pixIn = s.pixIn := rfl
@[simp] theorem closeInput_pixOut (s : State) : (closeInput s).pixOut = s.pixOut := rfl
@[simp] theorem closeInput_inDraws (s : State) : (closeInput s).inDraws = Draws.none := rfl
@[simp] theorem closeInput_outDraws (s : State) : (closeInput s).outDraws = s.outDraws := rfl
@[simp] theorem closeInput_cfg (s : State) : (closeInput s).cfg = s.cfg := rfl
@[simp] theorem closeInput_script (s : State) : (closeInput s).script = s.script := rfl

@[simp] theorem closeOutput_width (s : State) : (closeOutput s).width = s.width := rfl
@[simp] theorem closeOutput_height (s : State) : (closeOutput s).height = s.height := rfl
@[simp] theorem closeOutput_pixbuf (s : State) : (closeOutput s).pixbuf = s.pixbuf := rfl
@[simp] theorem closeOutput_arg0 (s : State) : (closeOutput s).arg0 = s.arg0 := rfl
@[simp] theorem closeOutput_arg1 (s : State) : (closeOutput s).arg1 = s.arg1 := rfl
@[simp] theorem closeOutput_arg2 (s : State) : (closeOutput s).arg2 = s.arg2 := rfl
@[simp] theorem closeOutput_result (s : State) : (closeOutput s).result = s.result := rfl
@[simp] theorem closeOutput_status (s : State) : (closeOutput s).status = s.status := rfl
@[simp] theorem closeOutput_dec (s : State) : (closeOutput s).dec = s.dec := rfl
@[simp] theorem closeOutput_input (s : State) : (closeOutput s).input = s.input := rfl
@[simp] theorem closeOutput_output (s : State) : (closeOutput s).output = s.output := rfl
@[simp] theorem closeOutput_pixIn (s : State) : (closeOutput s).pixIn = s.pixIn := rfl
@[simp] theorem closeOutput_pixOut (s : State) : (closeOutput s).pixOut = s.pixOut := rfl
@[simp] theorem closeOutput_inDraws (s : State) : (closeOutput s).inDraws = s.inDraws := rfl
@[simp] theorem closeOutput_outDraws (s : State) : (closeOutput s).outDraws = Draws.none := rfl
@[simp] theorem closeOutput_cfg (s : State) : (closeOutput s).cfg = s.cfg := rfl
@[simp] theorem closeOutput_script (s : State) : (closeOutput s).script = s.script := rfl

@[simp] theorem clearPixIn_width (s : State) : (clearPixIn s).width = s.width := rfl
@[simp] theorem clearPixIn_height (s : State) : (clearPixIn s).height = s.height := rfl
@[simp] theorem clearPixIn_pixbuf (s : State) : (clearPixIn s).pixbuf = s.pixbuf := rfl
@[simp] theorem clearPixIn_arg0 (s : State) : (clearPixIn s).arg0 = s.arg0 := rfl
@[simp] theorem clearPixIn_arg1 (s : State) : (clearPixIn s).arg1 = s.arg1 := rfl
@[simp] theorem clearPixIn_arg2 (s : State) : (clearPixIn s).arg2 = s.arg2 := rfl
@[simp] theorem clearPixIn_result (s : State) : (clearPixIn s).result = s.result := rfl
@[simp] theorem clearPixIn_status (s : State) : (clearPixIn s).status = s.status := rfl
@[simp] theorem clearPixIn_dec (s : State) : (clearPixIn s).dec = s.dec := rfl
@[simp] theorem clearPixIn_input (s : State) : (clearPixIn s).input = s.input := rfl
@[simp] theorem clearPixIn_output (s : State) : (clearPixIn s).output = s.output := rfl
@[simp] theorem clearPixIn_pixIn (s : State) : (clearPixIn s).pixIn = [] := rfl
@[simp] theorem clearPixIn_pixOut (s : State) : (clearPixIn s).pixOut = s.pixOut := rfl
@[simp] theorem clearPixIn_inDraws (s : State) : (clearPixIn s).inDraws = s.inDraws := rfl
@[simp] theorem clearPixIn_outDraws (s : State) : (clearPixIn s).outDraws = s.outDraws := rfl
@[simp] theorem clearPixIn_cfg (s : State) : (clearPixIn s).cfg = s.cfg := rfl
@[simp] theorem clearPixIn_script (s : State) : (clearPixIn s).script = s.script := rfl

@[simp] theorem attachInput_width (bytes : List Byte) (d : Draws) (s : State) : (attachInput bytes d s).width = s.width := rfl
@[simp] theorem attachInput_height (bytes : List Byte) (d : Draws) (s : State) : (attachInput bytes d s).height = s.height := rfl
@[simp] theorem attachInput_pixbuf (bytes : List Byte) (d : Draws) (s : State) : (attachInput bytes d s).pixbuf = s.pixbuf := rfl
@[simp] theorem attachInput_arg0 (bytes : List Byte) (d : Draws) (s : State) : (attachInput bytes d s).arg0 = s.arg0 := rfl
@[simp] theorem attachInput_arg1 (bytes : List Byte) (d : Draws) (s : State) : (attachInput bytes d s).arg1 = s.arg1 := rfl
@[simp] theorem attachInput_arg2 (bytes : List Byte) (d : Draws) (s : State) : (attachInput bytes d s).arg2 = s.arg2 := rfl
@[simp] theorem attachInput_result (bytes : List Byte) (d : Draws) (s : State) : (attachInput bytes d s).result = s.result := rfl
@[simp] theorem attachInput_status (bytes : List Byte) (d : Draws) (s : State) : (attachInput bytes d s).status = s.status := rfl
@[simp] theorem attachInput_dec (bytes : List Byte) (d : Draws) (s : State) : (attachInput bytes d s).dec = s.dec := rfl
@[simp] theorem attachInput_input (bytes : List Byte) (d : Draws) (s : State) : (attachInput bytes d s).input = bytes := rfl
@[simp] theorem attachInput_output (bytes : List Byte) (d : Draws) (s : State) : (attachInput bytes d s).output = s.output := rfl
@[simp] theorem attachInput_pixIn (bytes : List Byte) (d : Draws) (s : State) : (attachInput bytes d s).pixIn = s.pixIn := rfl
@[simp] theorem attachInput_pixOut (bytes : List Byte) (d : Draws) (s : State) : (attachInput bytes d s).pixOut = s.pixOut := rfl
@[simp] theorem attachInput_inDraws (bytes : List Byte) (d : Draws) (s : State) : (attachInput bytes d s).inDraws = d := rfl
@[simp] theorem attachInput_outDraws (bytes : List Byte) (d : Draws) (s : State) : (attachInput bytes d s).outDraws = s.outDraws := rfl
@[simp] theorem attachInput_cfg (bytes : List Byte) (d : Draws) (s : State) : (attachInput bytes d s).cfg = s.cfg := rfl
@[simp] theorem attachInput_script (bytes : List Byte) (d : Draws) (s : State) : (attachInput bytes d s).script = s.script := rfl

@[simp] theorem attachOutput_width (d : Draws) (s : State) : (attachOutput d s).width = s.width := rfl
@[simp] theorem attachOutput_height (d : Draws) (s : State) : (attachOutput d s).height = s.height := rfl
@[simp] theorem attachOutput_pixbuf (d : Draws) (s : State) : (attachOutput d s).pixbuf = s.pixbuf := rfl
@[simp] theorem attachOutput_arg0 (d : Draws) (s : State) : (attachOutput d s).arg0 = s.arg0 := rfl
@[simp] theorem attachOutput_arg1 (d : Draws) (s : State) : (attachOutput d s).arg1 = s.arg1 := rfl
@[simp] theorem attachOutput_arg2 (d : Draws) (s : State) : (attachOutput d s).arg2 = s.arg2 := rfl
@[simp] theorem attachOutput_result (d : Draws) (s : State) : (attachOutput d s).result = s.result := rfl
@[simp] theorem attachOutput_status (d : Draws) (s : State) : (attachOutput d s).status = s.status := rfl
@[simp] theorem attachOutput_dec (d : Draws) (s : State) : (attachOutput d s).dec = s.dec := rfl
@[simp] theorem attachOutput_input (d : Draws) (s : State) : (attachOutput d s).input = s.input := rfl
@[simp] theorem attachOutput_output (d : Draws) (s : State) : (attachOutput d s).output = [] := rfl
@[simp] theorem attachOutput_pixIn (d : Draws) (s : State) : (attachOutput d s).pixIn = s.pixIn := rfl
@[simp] theorem attachOutput_pixOut (d : Draws) (s : State) : (attachOutput d s).pixOut = s.pixOut := rfl
@[simp] theorem attachOutput_inDraws (d : Draws) (s : State) : (attachOutput d s).inDraws = s.inDraws := rfl
@[simp] theorem attachOutput_outDraws (d : Draws) (s : State) : (attachOutput d s).outDraws = d := rfl
@[simp] theorem attachOutput_cfg (d : Draws) (s : State) : (attachOutput d s).cfg = s.cfg := rfl
@[simp] theorem attachOutput_script (d : Draws) (s : State) : (attachOutput d s).script = s.script := rfl

@[simp] theorem hostReset_width (s : State) : (hostReset s).width = 0 := rfl
@[simp] theorem hostReset_height (s : State) : (hostReset s).height = 0 := rfl
@[simp] theorem hostReset_pixbuf (s : State) : (hostReset s).pixbuf = [] := rfl
@[simp] theorem hostReset_arg0 (s : State) : (hostReset s).arg0 = 0 := rfl
@[simp] theorem hostReset_arg1 (s : State) : (hostReset s).arg1 = 0 := rfl
@[simp] theorem hostReset_arg2 (s : State) : (hostReset s).arg2 = 0 := rfl
@[simp] theorem hostReset_result (s : State) : (hostReset s).result = 0 := rfl
@[simp] theorem hostReset_status (s : State) : (hostReset s).status = 0 := rfl
@[simp] theorem hostReset_dec (s : State) : (hostReset s).dec = Decoder.idle := rfl
@[simp] theorem hostReset_input (s : State) : (hostReset s).input = [] := rfl
@[simp] theorem hostReset_output (s : State) : (hostReset s).output = s.output := rfl
@[simp] theorem hostReset_pixIn (s : State) : (hostReset s).pixIn = [] := rfl
@[simp] theorem hostReset_pixOut (s : State) : (hostReset s).pixOut = [] := rfl
@[simp] theorem hostReset_inDraws (s : State) : (hostReset s).inDraws = Draws.none := rfl
@[simp] theorem hostReset_outDraws (s : State) : (hostReset s).outDraws = Draws.none := rfl
@[simp] theorem hostReset_cfg (s : State) : (hostReset s).cfg = s.cfg := rfl
@[simp] theorem hostReset_script (s : State) : (hostReset s).script = s.script := rfl

end Sys2Proof.Machine
end

