-- ==== Sys2Proof/Laws/Flags.lean ====
section
/-! SUPPORT. What each write of a STATUS field does to every bit (`10_state.md` R39), and what the compositions that end a command do. -/

namespace Sys2Proof.Machine

open Sys2Proof

theorem fieldMask_getLsbD (lo len i : Nat) (hi : i < 32) :
    (fieldMask lo len).getLsbD i = decide (lo ≤ i ∧ i < lo + len) := by
  simp only [fieldMask, BitVec.getLsbD_ofNat, hi, decide_true, Bool.true_and,
    Nat.testBit_mul_two_pow, Nat.testBit_two_pow_sub_one]
  by_cases h : lo ≤ i <;> simp [h]
  omega

/-- A field write puts `v` into the field and keeps every other bit. -/
theorem putField_getLsbD (w v : Word) (lo len i : Nat) (hi : i < 32) :
    (putField w lo len v).getLsbD i =
      if lo ≤ i ∧ i < lo + len then v.getLsbD (i - lo) else w.getLsbD i := by
  simp only [putField, BitVec.getLsbD_or, BitVec.getLsbD_and, BitVec.getLsbD_not,
    BitVec.getLsbD_shiftLeft, fieldMask_getLsbD lo len i hi, hi, decide_true, Bool.true_and]
  by_cases h : lo ≤ i ∧ i < lo + len
  · have : ¬ i < lo := by omega
    simp [h, this]
  · simp [h]

theorem setCode_getLsbD (w : Word) (c : ResultCode) (i : Nat) (hi : i < 32) :
    (setCode w c).getLsbD i = if i < 4 then (codeNumber c).getLsbD i else w.getLsbD i := by
  rw [setCode, putField_getLsbD _ _ _ _ _ hi]
  simp [hi]

theorem putBit_getLsbD (w : Word) (k i : Nat) (b : Bool) (hi : i < 32) :
    (putBit w k b).getLsbD i = if i = k then b else w.getLsbD i := by
  rw [putBit, putField_getLsbD _ _ _ _ _ hi]
  by_cases h : i = k
  · subst h; cases b <;> simp
  · rw [if_neg (by omega), if_neg h]

theorem setVwarn_getLsbD (w : Word) (b : Bool) (i : Nat) (hi : i < 32) :
    (setVwarn w b).getLsbD i = if i = 4 then b else w.getLsbD i := putBit_getLsbD w 4 i b hi

theorem setTrunc_getLsbD (w : Word) (b : Bool) (i : Nat) (hi : i < 32) :
    (setTrunc w b).getLsbD i = if i = 5 then b else w.getLsbD i := putBit_getLsbD w 5 i b hi

theorem setFault_getLsbD (w : Word) (c : Cause) (i : Nat) (hi : i < 32) :
    (setFault w c).getLsbD i =
      if i = 8 then true else if 9 ≤ i ∧ i ≤ 11 then (causeNumber c).getLsbD (i - 9) else w.getLsbD i := by
  rw [setFault, putField_getLsbD _ _ _ _ _ hi, putBit_getLsbD _ _ _ _ hi]
  have hc : ∀ j, j < 3 → ((causeNumber c).setWidth 32).getLsbD j = (causeNumber c).getLsbD j := by
    intro j hj
    rw [BitVec.getLsbD_setWidth]
    simp [show j < 32 by omega]
  by_cases h8 : i = 8
  · subst h8; simp
  · by_cases h9 : 9 ≤ i ∧ i ≤ 11
    · rw [if_pos (by omega), if_neg h8, if_pos h9, hc _ (by omega)]
    · rw [if_neg (by omega), if_neg h8, if_neg h8, if_neg h9]

theorem clearWarnings_getLsbD (w : Word) (i : Nat) (hi : i < 32) :
    (clearWarnings w).getLsbD i = if i = 4 ∨ i = 5 then false else w.getLsbD i := by
  rw [clearWarnings, setTrunc_getLsbD _ _ _ hi, setVwarn_getLsbD _ _ _ hi]
  by_cases h4 : i = 4 <;> by_cases h5 : i = 5 <;> simp [h4, h5]

/-- STATUS of a command that ends by `finish(code)` and sets no warning. -/
theorem statusAfter_finish (c : ResultCode) (w : Word) :
    StatusAfter c false false w (setCode (clearWarnings w) c) := by
  intro i hi
  rw [setCode_getLsbD _ _ _ hi, clearWarnings_getLsbD _ _ hi]
  by_cases h : i < 4
  · simp [h]
  · by_cases h4 : i = 4 <;> by_cases h5 : i = 5 <;> simp [h, h4, h5]

/-- STATUS of a command that ends by `finish(code)` with TRUNC set. -/
theorem statusAfter_finish_trunc (c : ResultCode) (w : Word) :
    StatusAfter c false true w (setCode (setTrunc (clearWarnings w) true) c) := by
  intro i hi
  rw [setCode_getLsbD _ _ _ hi, setTrunc_getLsbD _ _ _ hi, clearWarnings_getLsbD _ _ hi]
  by_cases h : i < 4
  · simp [h]
  · by_cases h4 : i = 4 <;> by_cases h5 : i = 5 <;> simp [h, h4, h5]

/-- STATUS of a command that ends by `raise Fault(cause)` and has set no warning. -/
theorem statusFaulted_raise (c : Cause) (w : Word) :
    StatusFaulted c false w (setFault (clearWarnings w) c) := by
  intro i hi
  rw [setFault_getLsbD _ _ _ hi, clearWarnings_getLsbD _ _ hi]
  by_cases h4 : i = 4
  · subst h4; simp
  · by_cases h5 : i = 5
    · subst h5; simp
    · simp [h4, h5]

@[simp] theorem statusFault_setCode (w : Word) (c : ResultCode) :
    statusFault (setCode w c) = statusFault w := by
  rw [statusFault, setCode_getLsbD _ _ _ (by omega)]
  rfl

@[simp] theorem statusFault_setVwarn (w : Word) (b : Bool) :
    statusFault (setVwarn w b) = statusFault w := by
  rw [statusFault, setVwarn_getLsbD _ _ _ (by omega)]
  rfl

@[simp] theorem statusFault_setTrunc (w : Word) (b : Bool) :
    statusFault (setTrunc w b) = statusFault w := by
  rw [statusFault, setTrunc_getLsbD _ _ _ (by omega)]
  rfl

@[simp] theorem statusFault_clearWarnings (w : Word) :
    statusFault (clearWarnings w) = statusFault w := by
  rw [statusFault, clearWarnings_getLsbD _ _ (by omega)]
  rfl

@[simp] theorem statusFault_setFault (w : Word) (c : Cause) : statusFault (setFault w c) = true := by
  rw [statusFault, setFault_getLsbD _ _ _ (by omega)]
  rfl

@[simp] theorem statusVwarn_setCode (w : Word) (c : ResultCode) :
    statusVwarn (setCode w c) = statusVwarn w := by
  rw [statusVwarn, setCode_getLsbD _ _ _ (by omega)]
  rfl

@[simp] theorem statusVwarn_setVwarn (w : Word) (b : Bool) : statusVwarn (setVwarn w b) = b := by
  rw [statusVwarn, setVwarn_getLsbD _ _ _ (by omega)]
  rfl

@[simp] theorem statusVwarn_setTrunc (w : Word) (b : Bool) :
    statusVwarn (setTrunc w b) = statusVwarn w := by
  rw [statusVwarn, setTrunc_getLsbD _ _ _ (by omega)]
  rfl

@[simp] theorem statusVwarn_setFault (w : Word) (c : Cause) :
    statusVwarn (setFault w c) = statusVwarn w := by
  rw [statusVwarn, setFault_getLsbD _ _ _ (by omega)]
  rfl

@[simp] theorem statusVwarn_clearWarnings (w : Word) : statusVwarn (clearWarnings w) = false := by
  rw [statusVwarn, clearWarnings_getLsbD _ _ (by omega)]
  rfl

@[simp] theorem statusTrunc_setCode (w : Word) (c : ResultCode) :
    statusTrunc (setCode w c) = statusTrunc w := by
  rw [statusTrunc, setCode_getLsbD _ _ _ (by omega)]
  rfl

@[simp] theorem statusTrunc_setVwarn (w : Word) (b : Bool) :
    statusTrunc (setVwarn w b) = statusTrunc w := by
  rw [statusTrunc, setVwarn_getLsbD _ _ _ (by omega)]
  rfl

@[simp] theorem statusTrunc_setTrunc (w : Word) (b : Bool) : statusTrunc (setTrunc w b) = b := by
  rw [statusTrunc, setTrunc_getLsbD _ _ _ (by omega)]
  rfl

@[simp] theorem statusTrunc_setFault (w : Word) (c : Cause) :
    statusTrunc (setFault w c) = statusTrunc w := by
  rw [statusTrunc, setFault_getLsbD _ _ _ (by omega)]
  rfl

@[simp] theorem statusTrunc_clearWarnings (w : Word) : statusTrunc (clearWarnings w) = false := by
  rw [statusTrunc, clearWarnings_getLsbD _ _ (by omega)]
  rfl

/-- A field read is decided by the bits it covers. -/
theorem extract_congr (v w : Word) (lo len : Nat)
    (h : ∀ i, lo ≤ i → i < lo + len → v.getLsbD i = w.getLsbD i) :
    v.extractLsb' lo len = w.extractLsb' lo len := by
  apply BitVec.eq_of_getLsbD_eq
  intro i hi
  simp only [BitVec.getLsbD_extractLsb', hi, decide_true, Bool.true_and]
  exact h _ (by omega) (by omega)

@[simp] theorem statusCode_setCode (w : Word) (c : ResultCode) :
    statusCode (setCode w c) = codeNumber c := by
  apply BitVec.eq_of_getLsbD_eq
  intro i hi
  simp [statusCode, hi, setCode_getLsbD _ _ _ (show i < 32 by omega)]

@[simp] theorem statusCode_setVwarn (w : Word) (b : Bool) :
    statusCode (setVwarn w b) = statusCode w :=
  extract_congr _ _ _ _ fun i _ h => by
    rw [setVwarn_getLsbD _ _ _ (by omega), if_neg (by omega)]

@[simp] theorem statusCode_setTrunc (w : Word) (b : Bool) :
    statusCode (setTrunc w b) = statusCode w :=
  extract_congr _ _ _ _ fun i _ h => by
    rw [setTrunc_getLsbD _ _ _ (by omega), if_neg (by omega)]

@[simp] theorem statusCode_setFault (w : Word) (c : Cause) :
    statusCode (setFault w c) = statusCode w :=
  extract_congr _ _ _ _ fun i _ h => by
    rw [setFault_getLsbD _ _ _ (by omega), if_neg (by omega), if_neg (by omega)]

@[simp] theorem statusCode_clearWarnings (w : Word) :
    statusCode (clearWarnings w) = statusCode w :=
  extract_congr _ _ _ _ fun i _ h => by
    rw [clearWarnings_getLsbD _ _ (by omega), if_neg (by omega)]

@[simp] theorem statusFcause_setFault (w : Word) (c : Cause) :
    statusFcause (setFault w c) = causeNumber c := by
  apply BitVec.eq_of_getLsbD_eq
  intro i hi
  simp only [statusFcause, BitVec.getLsbD_extractLsb', hi, decide_true, Bool.true_and]
  rw [setFault_getLsbD _ _ _ (by omega), if_neg (by omega), if_pos (by omega)]
  simp

@[simp] theorem statusFcause_setCode (w : Word) (c : ResultCode) :
    statusFcause (setCode w c) = statusFcause w :=
  extract_congr _ _ _ _ fun i _ h => by
    rw [setCode_getLsbD _ _ _ (by omega), if_neg (by omega)]

@[simp] theorem statusFcause_setVwarn (w : Word) (b : Bool) :
    statusFcause (setVwarn w b) = statusFcause w :=
  extract_congr _ _ _ _ fun i _ h => by
    rw [setVwarn_getLsbD _ _ _ (by omega), if_neg (by omega)]

@[simp] theorem statusFcause_setTrunc (w : Word) (b : Bool) :
    statusFcause (setTrunc w b) = statusFcause w :=
  extract_congr _ _ _ _ fun i _ h => by
    rw [setTrunc_getLsbD _ _ _ (by omega), if_neg (by omega)]

@[simp] theorem statusFcause_clearWarnings (w : Word) :
    statusFcause (clearWarnings w) = statusFcause w :=
  extract_congr _ _ _ _ fun i _ h => by
    rw [clearWarnings_getLsbD _ _ (by omega), if_neg (by omega)]

end Sys2Proof.Machine
end

