-- ==== Sys2Proof/Laws/Ops.lean ====
section
/-! SUPPORT. One lemma per shared operation that says once everything it can do; a proof cites it and does not unfold the operation. -/

namespace Sys2Proof.Machine

open Sys2Proof

/-! The dispatch (R130, R265). -/

theorem runCommand_of_faulted (body : State → State) (s : State) (h : s.faulted = true) :
    runCommand body s = .next s := by
  simp [runCommand, h]

theorem runCommand_of_running (body : State → State) (s : State) (h : s.faulted = false) :
    runCommand body s = .next (body (startCommand s)) := by
  simp [runCommand, h]

/-- The two ways a command can go. -/
theorem runCommand_next {body : State → State} {s t : State} (h : runCommand body s = .next t) :
    (s.faulted = true ∧ t = s) ∨ (s.faulted = false ∧ t = body (startCommand s)) := by
  cases hf : s.faulted
  · rw [runCommand_of_running body s hf] at h
    exact .inr ⟨rfl, by simpa using h.symm⟩
  · rw [runCommand_of_faulted body s hf] at h
    exact .inl ⟨rfl, by simpa using h.symm⟩

/-! Progress of a command. -/

@[simp] theorem Flow.andThen_more (s : State) (k : State → Flow) : (Flow.more s).andThen k = k s := rfl

@[simp] theorem Flow.andThen_ended (s : State) (k : State → Flow) :
    (Flow.ended s).andThen k = .ended s := rfl

@[simp] theorem Flow.state_more (s : State) : (Flow.more s).state = s := rfl

@[simp] theorem Flow.state_ended (s : State) : (Flow.ended s).state = s := rfl

theorem Flow.andThen_assoc (f : Flow) (k l : State → Flow) :
    (f.andThen k).andThen l = f.andThen (fun s => (k s).andThen l) := by
  cases f <;> rfl

/-- A property that each part keeps, the whole keeps. -/
theorem Flow.andThen_state_prop {P : State → Prop} {f : Flow} {k : State → Flow}
    (hf : P f.state) (hk : ∀ s, P s → P (k s).state) : P (f.andThen k).state := by
  cases f with
  | more s => exact hk s hf
  | ended s => exact hf

/-! The pixel buffer (R62 to R64). -/

theorem pixRead_eq_none_iff (k : Nat) (s : State) : pixRead k s = none ↔ s.pixbuf.length ≤ k := by
  simp [pixRead]

theorem pixRead_of_lt (k : Nat) (s : State) (h : k < s.pixbuf.length) :
    pixRead k s = some s.pixbuf[k] := by
  simp [pixRead, h]

theorem grownWrite_length (d : Pixel) (buf : List Pixel) (k : Nat) (p : Pixel) :
    (grownWrite d buf k p).length = max buf.length (k + 1) := by
  simp [grownWrite]; omega

/-- Every slot after a write: the one written, the old ones, and the default in between. -/
theorem grownWrite_getElem? (d : Pixel) (buf : List Pixel) (k j : Nat) (p : Pixel) :
    (grownWrite d buf k p)[j]? =
      if j = k then some p
      else if j < buf.length then buf[j]?
      else if j < k then some d
      else none := by
  rw [grownWrite, List.getElem?_set]
  by_cases hjk : j = k
  · subst hjk
    simp
    omega
  · rw [if_neg (fun h => hjk h.symm), if_neg hjk, List.getElem?_append]
    by_cases hl : j < buf.length
    · simp [hl]
    · rw [if_neg hl, if_neg hl, List.getElem?_replicate]
      by_cases hlt : j < k
      · rw [if_pos (by omega), if_pos hlt]
      · rw [if_neg (by omega), if_neg hlt]

/-- `PixWrite` ends in Fault(CAPACITY), or writes the grown buffer (R63). -/
theorem pixWrite_cases (k : Nat) (p : Pixel) (s : State) :
    (s.cfg.maxPixels ≤ k ∧ pixWrite k p s = .ended (raiseFault .capacity s)) ∨
      (k < s.cfg.maxPixels ∧
        pixWrite k p s = .more { s with pixbuf := grownWrite s.cfg.defaultPixel s.pixbuf k p }) := by
  by_cases h : s.cfg.maxPixels ≤ k
  · exact .inl ⟨h, by simp [pixWrite, h]⟩
  · exact .inr ⟨by omega, by simp [pixWrite, h]⟩

/-- `PixAppend` ends in Fault(CAPACITY), or appends one pixel (R64). -/
theorem pixAppend_cases (p : Pixel) (s : State) :
    (s.cfg.maxPixels ≤ s.pixbuf.length ∧ pixAppend p s = .ended (raiseFault .capacity s)) ∨
      (s.pixbuf.length < s.cfg.maxPixels ∧
        pixAppend p s = .more { s with pixbuf := s.pixbuf ++ [p] }) := by
  by_cases h : s.cfg.maxPixels ≤ s.pixbuf.length
  · exact .inl ⟨h, by simp [pixAppend, h]⟩
  · exact .inr ⟨by omega, by simp [pixAppend, h]⟩

/-! The output stream (R68, R69). -/

theorem outOpen_cases (s : State) :
    (s.outDraws.openFail = true ∧ outOpen s = .ended (finish .ioError { s with output := [] })) ∨
      (s.outDraws.openFail = false ∧ outOpen s = .more { s with output := [] }) := by
  cases h : s.outDraws.openFail <;> simp [outOpen, h]

/-- `OutWrite` where no transfer fails: the bytes are appended (R69). -/
theorem outWrite_ok (bs : List Byte) (s : State)
    (h : ∀ j, j < bs.length → s.outDraws.xferFails (s.output.length + j) = false) :
    outWrite bs s = .more { s with output := s.output ++ bs } := by
  induction bs generalizing s with
  | nil => simp [outWrite]
  | cons b rest ih =>
    have h0 : s.outDraws.xferFails s.output.length = false := by simpa using h 0 (by simp)
    rw [outWrite, if_neg (by simp [h0]), ih]
    · simp
    · intro j hj
      have := h (j + 1) (by simpa using hj)
      simpa [Nat.add_assoc, Nat.add_comm 1 j] using this

/-- `OutWrite` where the transfer of byte `i` is the first to fail: IO_ERROR, and the bytes before it stay (R69). -/
theorem outWrite_fail (bs : List Byte) (s : State) (i : Nat) (hi : i < bs.length)
    (hf : s.outDraws.xferFails (s.output.length + i) = true)
    (h : ∀ j, j < i → s.outDraws.xferFails (s.output.length + j) = false) :
    outWrite bs s = .ended (finish .ioError { s with output := s.output ++ bs.take i }) := by
  induction bs generalizing s i with
  | nil => simp at hi
  | cons b rest ih =>
    rw [outWrite]
    cases i with
    | zero =>
      simp only [Nat.add_zero] at hf
      simp [hf]
    | succ i =>
      have h0 : s.outDraws.xferFails s.output.length = false := by simpa using h 0 (by omega)
      rw [if_neg (by simp [h0]), ih _ i (by simpa using hi)]
      · simp
      · simpa [Nat.add_assoc, Nat.add_comm 1 i] using hf
      · intro j hj
        have := h (j + 1) (by omega)
        simpa [Nat.add_assoc, Nat.add_comm 1 j] using this

/-- `OutWrite` goes one of the two ways, whatever the draws are. -/
theorem outWrite_cases (bs : List Byte) (s : State) :
    outWrite bs s = .more { s with output := s.output ++ bs } ∨
      ∃ i, i < bs.length ∧
        outWrite bs s = .ended (finish .ioError { s with output := s.output ++ bs.take i }) := by
  classical
  by_cases h : ∃ j, j < bs.length ∧ s.outDraws.xferFails (s.output.length + j) = true
  · right
    have hs := Nat.find_spec h
    refine ⟨Nat.find h, hs.1, outWrite_fail bs s _ hs.1 hs.2 fun j hj => ?_⟩
    have := Nat.find_min h hj
    have hlt : j < bs.length := by omega
    simpa [hlt] using this
  · left
    exact outWrite_ok bs s fun j hj => by simpa using fun hc => h ⟨j, hj, hc⟩

/-- What a part of SAVE may change: OUT and STATUS only (R174). -/
def OnlyOutputAndStatus (s t : State) : Prop := t = { s with output := t.output, status := t.status }

theorem OnlyOutputAndStatus.rfl' (s : State) : OnlyOutputAndStatus s s := rfl

theorem OnlyOutputAndStatus.trans' {s t u : State} (h : OnlyOutputAndStatus s t)
    (h' : OnlyOutputAndStatus t u) : OnlyOutputAndStatus s u := by
  unfold OnlyOutputAndStatus at *
  rw [h'] ; simp only; rw [h]

theorem outWrite_frame (bs : List Byte) (s : State) : OnlyOutputAndStatus s (outWrite bs s).state := by
  obtain h | ⟨i, _, h⟩ := outWrite_cases bs s <;> rw [h] <;> rfl

theorem savePixels_frame (n k : Nat) (s : State) :
    OnlyOutputAndStatus s (savePixels n k s).state := by
  induction n generalizing k s with
  | zero => rfl
  | succ n ih =>
    rw [savePixels]
    split
    · rfl
    · refine Flow.andThen_state_prop (P := OnlyOutputAndStatus s)
        (Flow.andThen_state_prop (Flow.andThen_state_prop (outWrite_frame _ s) ?_) ?_) ?_
      · exact fun t ht => ht.trans' (outWrite_frame _ t)
      · exact fun t ht => ht.trans' (outWrite_frame _ t)
      · exact fun t ht => ht.trans' (ih _ t)

theorem saveHeader_frame (s : State) : OnlyOutputAndStatus s (saveHeader s).state := by
  refine Flow.andThen_state_prop (P := OnlyOutputAndStatus s)
    (Flow.andThen_state_prop (Flow.andThen_state_prop (outWrite_frame _ s) ?_) ?_) ?_ <;>
  exact fun t ht => ht.trans' (outWrite_frame _ t)

/-! The input stream (R66, R67). -/

theorem inOpen_cases (d : Decoder) (s : State) :
    (s.inDraws.openFail = true ∧ inOpen d s = .ended (finish .ioError s)) ∨
      (s.inDraws.openFail = false ∧ inOpen d s = .more { s with dec := d }) := by
  cases h : s.inDraws.openFail <;> simp [inOpen, h]

/-- The induction over the bytes of a stream, once: a property that one byte, the exhaustion and a read failure keep,
the whole loop keeps. -/
theorem readLoop_preserves {P : State → Prop} {onByte : Byte → State → Flow} {onEnd : State → State}
    (hbyte : ∀ b rest s, P s → P (onByte b (consume rest s)).state)
    (hend : ∀ s, P s → P (onEnd s)) (hfail : ∀ s, P s → P (finish .ioError s)) :
    ∀ (bytes : List Byte) (s : State), P s → P (readLoop onByte onEnd bytes s).state := by
  intro bytes
  induction bytes with
  | nil => exact fun s hs => hend s hs
  | cons b rest ih =>
    intro s hs
    rw [readLoop]
    split
    · exact hfail s hs
    · exact Flow.andThen_state_prop (hbyte b rest s hs) ih

/-- The bytes before the first failing transfer are taken as if none failed; the command ends there, or they are all there is (R67, R261). -/
theorem readLoop_cons_of_ok (onByte : Byte → State → Flow) (onEnd : State → State) (b : Byte)
    (rest : List Byte) (s : State) (h : s.inDraws.xferFails s.dec.pos = false) :
    readLoop onByte onEnd (b :: rest) s =
      (onByte b (consume rest s)).andThen (readLoop onByte onEnd rest) := by
  simp [readLoop, h]

theorem readLoop_cons_of_fail (onByte : Byte → State → Flow) (onEnd : State → State) (b : Byte)
    (rest : List Byte) (s : State) (h : s.inDraws.xferFails s.dec.pos = true) :
    readLoop onByte onEnd (b :: rest) s = .ended (finish .ioError s) := by
  simp [readLoop, h]

/-! One step: the host's next action, or none (R274). -/

theorem step_idle (s : State) (h : s.script = []) : step s = .next s := by
  simp [step, nextAction, h]

theorem step_action (s : State) (a : HostAct) (rest : List HostAct) (h : s.script = a :: rest) :
    step s = hostAct a { s with script := rest } := by
  simp [step, nextAction, h]

/-- A command that has a meaning always answers a next state: no arm refuses and none stops (R250, log 3). -/
theorem exec_next (i : Instr) (s : State) : ∃ t, exec i s = .next t := by
  cases i <;> exact ⟨_, rfl⟩

theorem issue_next (w : Word) (s : State) : ∃ t, issue w s = .next t := by
  unfold issue
  split
  · exact exec_next _ s
  · exact ⟨_, rfl⟩

end Sys2Proof.Machine
end

