-- ==== Sys2Proof/Laws/Memory.lean ====
section
/-! SUPPORT. The canonical form of the pixel memory, `LEN <= P_MAX_PIXELS` (R35, log 4): every memory operation keeps it, and reset has it. -/

namespace Sys2Proof.Machine

open Sys2Proof

/-- The form holds in a state. -/
abbrev PixbufFits (s : State) : Prop := Memory.wf s.cfg s.pixbuf = true

theorem memory_wf_iff (c : Config) (buf : List Pixel) :
    Memory.wf c buf = true ↔ buf.length ≤ c.maxPixels := by
  simp [Memory.wf]

theorem memory_wf_nil (c : Config) : Memory.wf c [] = true := by simp [Memory.wf]

theorem memory_wf_reset : PixbufFits State.reset := memory_wf_nil _

theorem memory_wf_hostReset (s : State) : PixbufFits (hostReset s) := memory_wf_nil _

theorem memory_wf_pixWrite (k : Nat) (p : Pixel) (s : State) (h : PixbufFits s) :
    PixbufFits (pixWrite k p s).state := by
  obtain ⟨_, e⟩ | ⟨hk, e⟩ := pixWrite_cases k p s
  · rw [e]; exact h
  · rw [e]
    rw [PixbufFits, memory_wf_iff] at h ⊢
    simp only [Flow.state_more, grownWrite_length]
    omega

theorem memory_wf_pixAppend (p : Pixel) (s : State) (h : PixbufFits s) :
    PixbufFits (pixAppend p s).state := by
  obtain ⟨_, e⟩ | ⟨hk, e⟩ := pixAppend_cases p s
  · rw [e]; exact h
  · rw [e, PixbufFits, memory_wf_iff]
    simp only [Flow.state_more, List.length_append, List.length_singleton]
    omega

theorem memory_wf_setPixelBody (s : State) (h : PixbufFits s) : PixbufFits (setPixelBody s) :=
  Flow.andThen_state_prop (memory_wf_pixWrite _ _ s h) fun _ ht => ht

theorem memory_wf_setPixelsBody (s : State) (h : PixbufFits s) : PixbufFits (setPixelsBody s) := by
  unfold setPixelsBody
  split
  · exact h
  · rename_i hlen
    rw [PixbufFits, memory_wf_iff]
    simpa using hlen

theorem memory_wf_emitChannels (ch : List Byte) (s : State) (h : PixbufFits s) :
    PixbufFits (emitChannels ch s).state := by
  unfold emitChannels
  split
  · exact Flow.andThen_state_prop (memory_wf_pixAppend _ s h) fun _ ht => ht
  · exact h

theorem memory_wf_completeField (acc : List Byte) (s : State) (h : PixbufFits s) :
    PixbufFits (completeField acc s).state := by
  unfold completeField
  split
  · unfold completeSig
    split
    · exact h
    · simp only [Flow.state_more, PixbufFits]
      split
      · exact memory_wf_nil _
      · exact h
  · exact h
  · exact h
  · exact h
  · unfold completeBody
    split
    · split
      · exact memory_wf_emitChannels _ s h
      · exact h
    · exact h

theorem memory_wf_loadBody (s : State) (h : PixbufFits s) : PixbufFits (loadBody s) := by
  refine Flow.andThen_state_prop (P := PixbufFits) ?_ fun t ht => readLoop_preserves ?_ ?_ ?_ _ t ht
  · obtain ⟨_, e⟩ | ⟨_, e⟩ := inOpen_cases Decoder.loadStart s <;> rw [e] <;> exact h
  · intro b rest u hu
    unfold loadByte
    split
    · exact memory_wf_completeField _ _ hu
    · exact hu
  · intro u hu
    unfold loadEnd
    split <;> exact hu
  · exact fun u hu => hu

end Sys2Proof.Machine
end

