-- ==== Sys2Proof/Laws/Frames.lean ====
section
/-! SUPPORT. What the body of each stream command may change: everything else is as before. -/

namespace Sys2Proof.Machine

open Sys2Proof

/-- What LOAD may change before its stream is closed (R175 to R191, `30_encoding.md` R111). -/
def OnlyLoadWrites (s t : State) : Prop :=
  t = { s with
    width := t.width, height := t.height, pixbuf := t.pixbuf, result := t.result
    status := t.status, dec := t.dec, input := t.input }

theorem OnlyLoadWrites.trans' {s t u : State} (h : OnlyLoadWrites s t) (h' : OnlyLoadWrites t u) :
    OnlyLoadWrites s u := by
  unfold OnlyLoadWrites at *
  rw [h']; simp only; rw [h]

theorem pixAppend_loadWrites (p : Pixel) (s : State) : OnlyLoadWrites s (pixAppend p s).state := by
  obtain ⟨_, e⟩ | ⟨_, e⟩ := pixAppend_cases p s <;> rw [e] <;> rfl

theorem completeField_loadWrites (acc : List Byte) (s : State) :
    OnlyLoadWrites s (completeField acc s).state := by
  unfold completeField
  split
  · unfold completeSig; split <;> rfl
  · rfl
  · rfl
  · rfl
  · unfold completeBody
    split
    · split
      · unfold emitChannels
        split
        · exact Flow.andThen_state_prop (P := OnlyLoadWrites s) (pixAppend_loadWrites _ s)
            fun t ht => ht.trans' rfl
        · rfl
      · rfl
    · rfl

theorem loadByte_loadWrites (b : Byte) (s : State) : OnlyLoadWrites s (loadByte b s).state := by
  unfold loadByte
  split
  · exact completeField_loadWrites _ s
  · rfl

theorem loadEnd_loadWrites (s : State) : OnlyLoadWrites s (loadEnd s) := by
  unfold loadEnd
  split <;> rfl

/-- LOAD writes WIDTH, HEIGHT, PIXBUF, RESULT and STATUS, and consumes its input; it changes nothing else. -/
theorem loadBody_frame (s : State) : OnlyLoadWrites s (loadBody s) := by
  refine Flow.andThen_state_prop (P := OnlyLoadWrites s) ?_ fun t ht =>
    readLoop_preserves (P := OnlyLoadWrites s) ?_ ?_ ?_ _ t ht
  · obtain ⟨_, e⟩ | ⟨_, e⟩ := inOpen_cases Decoder.loadStart s <;> rw [e] <;> rfl
  · exact fun b rest u hu => (hu.trans' (by rfl : OnlyLoadWrites u (consume rest u))).trans'
      (loadByte_loadWrites b _)
  · exact fun u hu => hu.trans' (loadEnd_loadWrites u)
  · exact fun u hu => hu.trans' rfl

/-- What DEC_CHANNEL may change before its stream is closed (R228, `30_encoding.md` R111). -/
def OnlyDecodeWrites (s t : State) : Prop :=
  t = { s with result := t.result, status := t.status, dec := t.dec, input := t.input }

theorem OnlyDecodeWrites.trans' {s t u : State} (h : OnlyDecodeWrites s t)
    (h' : OnlyDecodeWrites t u) : OnlyDecodeWrites s u := by
  unfold OnlyDecodeWrites at *
  rw [h']; simp only; rw [h]

theorem decChannelByte_decodeWrites (b : Byte) (s : State) :
    OnlyDecodeWrites s (decChannelByte b s).state := by
  unfold decChannelByte
  split
  · unfold decChannelToken
    split
    · split <;> rfl
    · rfl
  · rfl

/-- DEC_CHANNEL writes RESULT and STATUS, and consumes its input; it changes nothing else. -/
theorem decChannelBody_frame (s : State) : OnlyDecodeWrites s (decChannelBody s) := by
  refine Flow.andThen_state_prop (P := OnlyDecodeWrites s) ?_ fun t ht =>
    readLoop_preserves (P := OnlyDecodeWrites s) ?_ ?_ ?_ _ t ht
  · obtain ⟨_, e⟩ | ⟨_, e⟩ := inOpen_cases Decoder.channelStart s <;> rw [e] <;> rfl
  · exact fun b rest u hu => (hu.trans' (by rfl : OnlyDecodeWrites u (consume rest u))).trans'
      (decChannelByte_decodeWrites b _)
  · exact fun u hu => hu.trans' rfl
  · exact fun u hu => hu.trans' rfl

/-- What an encoder may change before its stream is closed (R174, R227). -/
def OnlyEncodeWrites (s t : State) : Prop :=
  t = { s with result := t.result, status := t.status, output := t.output }

theorem OnlyEncodeWrites.trans' {s t u : State} (h : OnlyEncodeWrites s t)
    (h' : OnlyEncodeWrites t u) : OnlyEncodeWrites s u := by
  unfold OnlyEncodeWrites at *
  rw [h']; simp only; rw [h]

theorem OnlyOutputAndStatus.encodeWrites {s t : State} (h : OnlyOutputAndStatus s t) :
    OnlyEncodeWrites s t := by
  unfold OnlyOutputAndStatus at h
  unfold OnlyEncodeWrites
  rw [h]

theorem outOpen_encodeWrites (s : State) : OnlyEncodeWrites s (outOpen s).state := by
  obtain ⟨_, e⟩ | ⟨_, e⟩ := outOpen_cases s <;> rw [e] <;> rfl

/-- SAVE writes OUT, RESULT and STATUS; it changes nothing else. -/
theorem saveBody_frame (s : State) : OnlyEncodeWrites s (saveBody s) := by
  refine Flow.andThen_state_prop (P := OnlyEncodeWrites s) (Flow.andThen_state_prop
    (Flow.andThen_state_prop (outOpen_encodeWrites s) ?_) ?_) ?_
  · exact fun t ht => ht.trans' (saveHeader_frame t).encodeWrites
  · exact fun t ht => ht.trans' (savePixels_frame _ _ t).encodeWrites
  · exact fun t ht => ht.trans' rfl

/-- ENC_CHANNEL writes OUT, RESULT and STATUS; it changes nothing else. -/
theorem encChannelBody_frame (s : State) : OnlyEncodeWrites s (encChannelBody s) := by
  refine Flow.andThen_state_prop (P := OnlyEncodeWrites s)
    (Flow.andThen_state_prop (outOpen_encodeWrites s) ?_) ?_
  · exact fun t ht => ht.trans' (outWrite_frame _ t).encodeWrites
  · exact fun t ht => ht.trans' rfl

end Sys2Proof.Machine
end

