-- ==== Sys2Proof/Laws/PerInstr.lean ====
section
/-! SUPPORT. Statements for all instructions, one lemma per constructor. -/

namespace Sys2Proof.Laws.EncodingLegal

open Sys2Proof

/-- The instruction is well-formed, and its command word is one of the legal ones (`30_encoding.md` R107). -/
def Statement (i : Instr) : Prop := i.wf = true ∧ legalWord (encode i) = true

theorem getWidth : Statement .getWidth := ⟨rfl, by decide⟩
theorem getHeight : Statement .getHeight := ⟨rfl, by decide⟩
theorem getPixel : Statement .getPixel := ⟨rfl, by decide⟩
theorem getPixels : Statement .getPixels := ⟨rfl, by decide⟩
theorem setWidth : Statement .setWidth := ⟨rfl, by decide⟩
theorem setHeight : Statement .setHeight := ⟨rfl, by decide⟩
theorem setPixel : Statement .setPixel := ⟨rfl, by decide⟩
theorem setPixels : Statement .setPixels := ⟨rfl, by decide⟩
theorem save : Statement .save := ⟨rfl, by decide⟩
theorem load : Statement .load := ⟨rfl, by decide⟩
theorem encChannel : Statement .encChannel := ⟨rfl, by decide⟩
theorem decChannel : Statement .decChannel := ⟨rfl, by decide⟩

end Sys2Proof.Laws.EncodingLegal
end

