-- ==== Sys2Proof/Laws/Streams.lean ====
section
/-! SUPPORT. LOAD and DEC_CHANNEL over whole fields and tokens, instead of byte by byte, the token grid, and SAVE as one write. -/

namespace Sys2Proof.Machine

open Sys2Proof

/-! ## The token grid (R73, R98) -/

theorem cutTokens_short (t : Nat) (body : List Byte) (h : body.length < t) : cutTokens t body = [] := by
  simp [cutTokens, Nat.div_eq_of_lt h]

/-- One token from the front of the grid. -/
theorem cutTokens_cons (t : Nat) (ht : 1 ≤ t) (tok rest : List Byte) (h : tok.length = t) :
    cutTokens t (tok ++ rest) = tok :: cutTokens t rest := by
  have hlen : (tok ++ rest).length / t = rest.length / t + 1 := by
    rw [List.length_append, h, Nat.add_comm, Nat.add_div_right _ (by omega)]
  rw [cutTokens, hlen, List.range_succ_eq_map, List.map_cons, List.map_map]
  congr 1
  · simp [← h]
  · rw [cutTokens]
    apply List.map_congr_left
    intro i _
    have hdrop : (tok ++ rest).drop ((i + 1) * t) = rest.drop (i * t) := by
      rw [show (i + 1) * t = tok.length + i * t by rw [h]; ring, List.drop_append]
      simp
    simp [hdrop]

/-- A pixel stream is its tokens and what is left of the grid. -/
theorem cutTokens_flatten_append (t : Nat) (ht : 1 ≤ t) (toks : List (List Byte))
    (h : ∀ tok ∈ toks, tok.length = t) (rest : List Byte) :
    cutTokens t (toks.flatten ++ rest) = toks ++ cutTokens t rest := by
  induction toks with
  | nil => simp
  | cons tok toks ih =>
    rw [List.flatten_cons, List.append_assoc, cutTokens_cons t ht tok _ (h tok (by simp)),
      ih fun x hx => h x (by simp [hx]), List.cons_append]

theorem length_of_mem_cutTokens (t : Nat) (body tok : List Byte) (h : tok ∈ cutTokens t body) :
    tok.length = t := by
  rw [cutTokens, List.mem_map] at h
  obtain ⟨i, hi, rfl⟩ := h
  rw [List.mem_range] at hi
  rw [List.length_take, List.length_drop]
  have hle : (i + 1) * t ≤ body.length :=
    (Nat.mul_le_mul_right t (Nat.succ_le_of_lt hi)).trans (Nat.div_mul_le_self _ _)
  have : (i + 1) * t = i * t + t := by ring
  omega

/-- The bytes after the last complete token. -/
def gridTail (t : Nat) (body : List Byte) : List Byte := body.drop (body.length / t * t)

theorem gridTail_length (t : Nat) (body : List Byte) : (gridTail t body).length = body.length % t := by
  rw [gridTail, List.length_drop]
  have := Nat.div_add_mod body.length t
  rw [Nat.mul_comm] at this
  omega

theorem gridTail_cons (t : Nat) (ht : 1 ≤ t) (tok rest : List Byte) (h : tok.length = t) :
    gridTail t (tok ++ rest) = gridTail t rest := by
  have hlen : (tok ++ rest).length / t = rest.length / t + 1 := by
    rw [List.length_append, h, Nat.add_comm, Nat.add_div_right _ (by omega)]
  rw [gridTail, hlen, gridTail, show (rest.length / t + 1) * t = tok.length + rest.length / t * t by
    rw [h]; ring, List.drop_append]
  simp

theorem flatten_cutTokens_append_gridTail (t : Nat) (ht : 1 ≤ t) (body : List Byte) :
    (cutTokens t body).flatten ++ gridTail t body = body := by
  induction hn : body.length using Nat.strongRecOn generalizing body with
  | ind n ih =>
    by_cases hlt : body.length < t
    · rw [cutTokens_short t body hlt, gridTail, Nat.div_eq_of_lt hlt]
      simp
    · have htake : (body.take t).length = t := by rw [List.length_take]; omega
      have hdrop : (body.drop t).length < n := by rw [List.length_drop]; omega
      have hsplit := List.take_append_drop t body
      rw [← hsplit, cutTokens_cons t ht _ _ htake, gridTail_cons t ht _ _ htake, List.flatten_cons,
        List.append_assoc, ih _ hdrop _ rfl]

/-! ## Whole fields and tokens

LOAD and DEC_CHANNEL both gather bytes until a field or token is complete. -/

/-- One byte gathered, and `complete` called with the whole field or token (R177, R228). -/
def gatherByte (needOf : State → Nat) (complete : List Byte → State → Flow) (b : Byte) (s : State) :
    Flow :=
  if (s.dec.acc ++ [b]).length = needOf s then complete (s.dec.acc ++ [b]) s
  else .more { s with dec := { s.dec with acc := s.dec.acc ++ [b] } }

theorem loadByte_eq_gatherByte :
    loadByte = gatherByte (fun s => need s.cfg s.dec.phase) completeField := rfl

theorem decChannelByte_eq_gatherByte :
    decChannelByte = gatherByte (fun s => s.cfg.tokenLen) decChannelToken := rfl

/-- The state after `bs` is consumed from the front of the input and gathered, with `rest` to come. -/
def gathered (bs rest : List Byte) (s : State) : State :=
  { s with
    input := rest
    dec := { s.dec with acc := s.dec.acc ++ bs, pos := s.dec.pos + bs.length } }

/-- The state after `bs` is consumed from the front of the input, with `rest` to come. -/
def consumed (bs rest : List Byte) (s : State) : State :=
  { s with input := rest, dec := { s.dec with pos := s.dec.pos + bs.length } }

/-- What is needed does not depend on the bytes gathered, the offset or the input. -/
def Steady (needOf : State → Nat) : Prop :=
  ∀ (s : State) (acc input : List Byte) (pos : Nat),
    needOf { s with input := input, dec := { s.dec with acc := acc, pos := pos } } = needOf s

/-- Bytes that do not complete the field or token are gathered. -/
theorem readLoop_gather {needOf : State → Nat} {complete : List Byte → State → Flow}
    {onEnd : State → State} (hneed : Steady needOf) (bs rest : List Byte) (s : State)
    (hin : s.input = bs ++ rest) (hlen : s.dec.acc.length + bs.length < needOf s)
    (hok : ∀ j, j < bs.length → s.inDraws.xferFails (s.dec.pos + j) = false) :
    readLoop (gatherByte needOf complete) onEnd (bs ++ rest) s =
      readLoop (gatherByte needOf complete) onEnd rest (gathered bs rest s) := by
  induction bs generalizing s with
  | nil =>
    have : gathered [] rest s = s := by
      cases s; simp only [gathered, List.append_nil, List.length_nil, Nat.add_zero] at *
      simp_all
    rw [this, List.nil_append]
  | cons b bs ih =>
    have h0 : s.inDraws.xferFails s.dec.pos = false := by simpa using hok 0 (by simp)
    simp only [List.length_cons] at hlen
    have hn : needOf (consume (bs ++ rest) s) = needOf s := hneed s s.dec.acc _ _
    rw [List.cons_append, readLoop_cons_of_ok _ _ _ _ _ h0, gatherByte, if_neg, Flow.andThen_more, ih]
    · congr 1
      simp [gathered, consume, Nat.add_assoc, Nat.add_comm 1]
    · rfl
    · have := hneed s (s.dec.acc ++ [b]) (bs ++ rest) (s.dec.pos + 1)
      simp only [consume, List.length_append, List.length_singleton] at this ⊢
      rw [this]
      omega
    · intro j hj
      have := hok (j + 1) (by simp only [List.length_cons]; omega)
      simpa [consume, Nat.add_assoc, Nat.add_comm 1 j] using this
    · rw [hn]
      simp only [consume, List.length_append, List.length_singleton]
      omega

/-- Bytes that complete the field or token are handed over whole. -/
theorem readLoop_complete {needOf : State → Nat} {complete : List Byte → State → Flow}
    {onEnd : State → State} (hneed : Steady needOf) (bs rest : List Byte) (s : State)
    (hin : s.input = bs ++ rest) (hne : bs ≠ []) (hlen : s.dec.acc.length + bs.length = needOf s)
    (hok : ∀ j, j < bs.length → s.inDraws.xferFails (s.dec.pos + j) = false) :
    readLoop (gatherByte needOf complete) onEnd (bs ++ rest) s =
      (complete (s.dec.acc ++ bs) { consumed bs rest s with
        dec := { (consumed bs rest s).dec with acc := s.dec.acc ++ bs.dropLast } }).andThen
        (readLoop (gatherByte needOf complete) onEnd rest) := by
  obtain ⟨init, b, rfl⟩ : ∃ init b, bs = init ++ [b] :=
    ⟨bs.dropLast, bs.getLast hne, (List.dropLast_append_getLast hne).symm⟩
  simp only [List.length_append, List.length_singleton] at hlen hok
  have hn : needOf (gathered init ([b] ++ rest) s) = needOf s := hneed s _ _ _
  have hpos : (gathered init ([b] ++ rest) s).dec.pos = s.dec.pos + init.length := rfl
  have h0 : (gathered init ([b] ++ rest) s).inDraws.xferFails
      (gathered init ([b] ++ rest) s).dec.pos = false := by
    rw [hpos]; exact hok _ (by omega)
  rw [List.append_assoc, readLoop_gather hneed init _ s (by rw [hin, List.append_assoc]) (by omega)
    fun j hj => hok j (by omega)]
  rw [List.singleton_append, readLoop_cons_of_ok _ _ _ _ _ (by simpa using h0), gatherByte, if_pos]
  · congr 1
    simp only [consume, gathered, consumed, List.append_assoc, List.length_append,
      List.length_singleton, Nat.add_assoc, List.dropLast_concat]
  · have hn' : needOf (consume rest (gathered init (b :: rest) s)) = needOf s := by
      have := hneed s (s.dec.acc ++ init) rest (s.dec.pos + init.length + 1)
      simpa [consume, gathered] using this
    rw [hn', ← hlen]
    simp [consume, gathered, Nat.add_assoc]

theorem steady_loadNeed : Steady (fun s => need s.cfg s.dec.phase) := fun _ _ _ _ => rfl

theorem steady_tokenLen : Steady (fun s => s.cfg.tokenLen) := fun _ _ _ _ => rfl

/-! ## The token loop of LOAD -/

/-- What the result `r` of the token loop and the partial token `tail` say of the end `t` of a LOAD
whose pixels are appended to `base` (R188 to R191, R197). -/
def TokenOutcome (base : List Pixel) (tail : List Byte) (r : TokenResult) (s t : State) : Prop :=
  t.width = s.width ∧ t.height = s.height ∧ t.pixbuf = base ++ r.px ∧
    match r.fault with
    | none => t.result = BitVec.ofNat 32 r.px.length ∧
        t.status = setCode (if r.leftover || !tail.isEmpty then setTrunc s.status true else s.status) .ok
    | some c => t.result = s.result ∧ t.status = setFault s.status c

theorem completeBody_unit (tok : List Byte) (s : State) (h : tok ≠ s.cfg.term) :
    completeBody tok s = .more { s with dec := { s.dec with acc := [], run := s.dec.run + 1 } } := by
  simp [completeBody, h]

theorem completeBody_overflow (s : State) (h : chan s.cfg s.dec.run = none) :
    completeBody s.cfg.term s = .ended (raiseFault .runOverflow s) := by
  simp [completeBody, h]

theorem completeBody_channel (s : State) (c : Byte) (h : chan s.cfg s.dec.run = some c)
    (hch : (s.dec.ch ++ [c]).length ≠ 3) :
    completeBody s.cfg.term s =
      .more { s with dec := { s.dec with acc := [], run := 0, ch := s.dec.ch ++ [c] } } := by
  simp only [completeBody, if_true, h, emitChannels]
  split
  · rename_i r g b h3; simp [h3] at hch
  · rfl

theorem completeBody_pixel (s : State) (c r g b : Byte) (h : chan s.cfg s.dec.run = some c)
    (hch : s.dec.ch ++ [c] = [r, g, b]) (hroom : s.pixbuf.length < s.cfg.maxPixels) :
    completeBody s.cfg.term s =
      .more { s with
        pixbuf := s.pixbuf ++ [⟨r, g, b⟩]
        dec := { s.dec with acc := [], run := 0, ch := [], app := s.dec.app + 1 } } := by
  simp [completeBody, h, hch, emitChannels, pixAppend, Nat.not_le.mpr hroom]

theorem completeBody_full (s : State) (c r g b : Byte) (h : chan s.cfg s.dec.run = some c)
    (hch : s.dec.ch ++ [c] = [r, g, b]) (hfull : s.cfg.maxPixels ≤ s.pixbuf.length) :
    completeBody s.cfg.term s = .ended (raiseFault .capacity s) := by
  simp [completeBody, h, hch, emitChannels, pixAppend, hfull]

theorem decodeTokens_channel (c : Config) (room : Nat) (rest : List (List Byte)) (px : List Pixel)
    (run : Nat) (ch : List Byte) (v : Byte) (h : chan c run = some v) (hch : (ch ++ [v]).length ≠ 3) :
    decodeTokens c room (c.term :: rest) px run ch = decodeTokens c room rest px 0 (ch ++ [v]) := by
  simp only [decodeTokens, if_true, h]
  split
  · rename_i r g b h3; simp [h3] at hch
  · rfl

/-- The state in which `Complete(BODY)` gets the token `tok`, with `rest` to come. -/
def handed (tok rest : List Byte) (s : State) : State :=
  { s with
    input := rest
    dec := { s.dec with acc := tok.dropLast, pos := s.dec.pos + tok.length } }

/-- A whole token in the pixel stream is handed to `Complete(BODY)`. -/
theorem readLoop_token (tok rest : List Byte) (s : State) (hne : tok ≠ [])
    (htok : tok.length = s.cfg.tokenLen) (hphase : s.dec.phase = .body) (hacc : s.dec.acc = [])
    (hin : s.input = tok ++ rest)
    (hok : ∀ j, j < tok.length → s.inDraws.xferFails (s.dec.pos + j) = false) :
    readLoop loadByte loadEnd (tok ++ rest) s =
      (completeBody tok (handed tok rest s)).andThen (readLoop loadByte loadEnd rest) := by
  rw [loadByte_eq_gatherByte, readLoop_complete steady_loadNeed tok rest s hin hne
    (by simp [hacc, hphase, need, htok]) hok]
  congr 1
  simp [completeField, consumed, handed, hphase, hacc]

/-- The pixel stream of a LOAD, token by token: it gives what the token loop of `Decode` gives. -/
theorem readLoop_tokens (base px : List Pixel) (toks : List (List Byte)) (tail : List Byte) (s : State)
    (ht : 1 ≤ s.cfg.tokenLen) (htoks : ∀ tok ∈ toks, tok.length = s.cfg.tokenLen)
    (htail : tail.length < s.cfg.tokenLen) (hphase : s.dec.phase = .body) (hacc : s.dec.acc = [])
    (hin : s.input = toks.flatten ++ tail) (hok : ∀ i, s.inDraws.xferFails i = false)
    (hbuf : s.pixbuf = base ++ px) (happ : s.dec.app = px.length) :
    ∃ t, readLoop loadByte loadEnd (toks.flatten ++ tail) s = .ended t ∧
      TokenOutcome base tail
        (decodeTokens s.cfg (s.cfg.maxPixels - base.length) toks px s.dec.run s.dec.ch) s t := by
  induction toks generalizing px s with
  | nil =>
    rw [List.flatten_nil, List.nil_append] at hin ⊢
    have hg := readLoop_gather (complete := completeField) (onEnd := loadEnd) steady_loadNeed tail [] s
      (by simpa using hin) (by simpa [hacc, hphase, need] using htail) fun j _ => hok _
    rw [List.append_nil] at hg
    refine ⟨_, hg, ?_⟩
    have hend : loadEnd (gathered tail [] s) =
        finish .ok { gathered tail [] s with
          status := if bodyLeftover (gathered tail [] s).dec then setTrunc s.status true else s.status
          result := BitVec.ofNat 32 s.dec.app } := by
      simp [loadEnd, gathered, hphase]
    have hleft : bodyLeftover (gathered tail [] s).dec =
        ((decide (s.dec.run ≠ 0) || !s.dec.ch.isEmpty) || !tail.isEmpty) := by
      simp only [bodyLeftover, gathered, hacc, List.nil_append]
      cases tail.isEmpty <;> cases decide (s.dec.run ≠ 0) <;> cases s.dec.ch.isEmpty <;> rfl
    rw [hend, hleft, happ]
    exact ⟨rfl, rfl, hbuf, rfl, rfl⟩
  | cons tok toks ih =>
    have htok := htoks tok (by simp)
    have hrest : ∀ x ∈ toks, x.length = s.cfg.tokenLen := fun x hx => htoks x (by simp [hx])
    have hne : tok ≠ [] := by rintro rfl; simp at htok; omega
    rw [List.flatten_cons, List.append_assoc] at hin ⊢
    rw [readLoop_token tok _ s hne htok hphase hacc hin fun j _ => hok _]
    by_cases hterm : tok = s.cfg.term
    · subst hterm
      cases hchan : chan s.cfg s.dec.run with
      | none =>
        have hr : decodeTokens s.cfg (s.cfg.maxPixels - base.length) (s.cfg.term :: toks) px
            s.dec.run s.dec.ch = ⟨px, false, some .runOverflow⟩ := by simp [decodeTokens, hchan]
        rw [hr]
        have hc : completeBody s.cfg.term (handed s.cfg.term (toks.flatten ++ tail) s) = _ :=
          completeBody_overflow (handed s.cfg.term (toks.flatten ++ tail) s) hchan
        rw [hc]
        exact ⟨_, rfl, rfl, rfl, hbuf, rfl, rfl⟩
      | some c =>
        by_cases h3 : (s.dec.ch ++ [c]).length = 3
        · obtain ⟨r, g, b, hch⟩ := List.length_eq_three.mp h3
          by_cases hfull : s.cfg.maxPixels ≤ s.pixbuf.length
          · have hlen : s.cfg.maxPixels - base.length ≤ px.length := by
              rw [hbuf, List.length_append] at hfull; omega
            have hr : decodeTokens s.cfg (s.cfg.maxPixels - base.length) (s.cfg.term :: toks) px
                s.dec.run s.dec.ch = ⟨px, false, some .capacity⟩ := by
              simp [decodeTokens, hchan, hch, hlen]
            rw [hr]
            have hc : completeBody s.cfg.term (handed s.cfg.term (toks.flatten ++ tail) s) = _ :=
              completeBody_full (handed s.cfg.term (toks.flatten ++ tail) s) c r g b hchan hch hfull
            rw [hc]
            exact ⟨_, rfl, rfl, rfl, hbuf, rfl, rfl⟩
          · have hlen : ¬ s.cfg.maxPixels - base.length ≤ px.length := by
              rw [hbuf, List.length_append] at hfull; omega
            have hr : decodeTokens s.cfg (s.cfg.maxPixels - base.length) (s.cfg.term :: toks) px
                s.dec.run s.dec.ch =
                decodeTokens s.cfg (s.cfg.maxPixels - base.length) toks (px ++ [⟨r, g, b⟩]) 0 [] := by
              simp only [decodeTokens, if_true, hchan, hch, if_neg hlen]
            rw [hr]
            obtain ⟨t, h1, h2⟩ := ih (px ++ [⟨r, g, b⟩])
              { s with
                input := toks.flatten ++ tail
                pixbuf := s.pixbuf ++ [⟨r, g, b⟩]
                dec := { s.dec with
                  acc := [], run := 0, ch := []
                  pos := s.dec.pos + s.cfg.term.length, app := s.dec.app + 1 } }
              ht hrest htail hphase rfl rfl hok (by simp [hbuf]) (by simp [happ])
            have hc : completeBody s.cfg.term (handed s.cfg.term (toks.flatten ++ tail) s) = _ :=
              completeBody_pixel (handed s.cfg.term (toks.flatten ++ tail) s) c r g b hchan hch
                (Nat.not_le.mp hfull)
            rw [hc]
            exact ⟨t, h1, h2⟩
        · rw [decodeTokens_channel _ _ _ _ _ _ c hchan h3]
          obtain ⟨t, h1, h2⟩ := ih px
            { s with
              input := toks.flatten ++ tail
              dec := { s.dec with
                acc := [], run := 0, ch := s.dec.ch ++ [c], pos := s.dec.pos + s.cfg.term.length } }
            ht hrest htail hphase rfl rfl hok hbuf happ
          have hc : completeBody s.cfg.term (handed s.cfg.term (toks.flatten ++ tail) s) = _ :=
            completeBody_channel (handed s.cfg.term (toks.flatten ++ tail) s) c hchan h3
          rw [hc]
          exact ⟨t, h1, h2⟩
    · have hr : decodeTokens s.cfg (s.cfg.maxPixels - base.length) (tok :: toks) px s.dec.run s.dec.ch =
          decodeTokens s.cfg (s.cfg.maxPixels - base.length) toks px (s.dec.run + 1) s.dec.ch := by
        simp [decodeTokens, hterm]
      rw [hr]
      obtain ⟨t, h1, h2⟩ := ih px
        { s with
          input := toks.flatten ++ tail
          dec := { s.dec with acc := [], run := s.dec.run + 1, pos := s.dec.pos + tok.length } }
        ht hrest htail hphase rfl rfl hok hbuf happ
      have hc : completeBody tok (handed tok (toks.flatten ++ tail) s) = _ :=
        completeBody_unit tok (handed tok (toks.flatten ++ tail) s) hterm
      rw [hc]
      exact ⟨t, h1, h2⟩

/-! ## SAVE as one write

SAVE writes piece by piece; whatever the draws are, that is one `OutWrite` of the pieces in order. -/

theorem outWrite_append (as bs : List Byte) (s : State) :
    outWrite (as ++ bs) s = (outWrite as s).andThen (outWrite bs) := by
  induction as generalizing s with
  | nil => rfl
  | cons a as ih =>
    rw [List.cons_append, outWrite, outWrite]
    split
    · rfl
    · exact ih _

/-- The header of SAVE is one write (R170, R171). -/
theorem saveHeader_eq_outWrite (s : State) : saveHeader s = outWrite (frameHeader s) s := by
  simp only [frameHeader, outWrite_append, saveHeader]

/-- The slots from `k` on, all of them stored, are one write of their part of the pixel stream (R170, R171). -/
theorem savePixels_eq_outWrite (n k : Nat) (s : State) (hlen : k + n ≤ s.pixbuf.length) :
    savePixels n k s = outWrite (pixelStream s.cfg ((s.pixbuf.drop k).take n)) s := by
  induction n generalizing k s with
  | zero => rfl
  | succ n ih =>
    have hk : k < s.pixbuf.length := by omega
    have hstream : pixelStream s.cfg ((s.pixbuf.drop k).take (n + 1)) =
        pixelEnc s.cfg s.pixbuf[k] ++ pixelStream s.cfg ((s.pixbuf.drop (k + 1)).take n) := by
      rw [List.drop_eq_getElem_cons hk, List.take_succ_cons, pixelStream, List.map_cons,
        List.flatten_cons, pixelStream]
    rw [savePixels, pixRead_of_lt k s hk, hstream, outWrite_append, pixelEnc, outWrite_append,
      outWrite_append]
    simp only
    rw [← outWrite_append, ← outWrite_append]
    obtain h | ⟨i, _, h⟩ := outWrite_cases
      (chanEnc s.cfg s.pixbuf[k].r ++ chanEnc s.cfg s.pixbuf[k].g ++ chanEnc s.cfg s.pixbuf[k].b) s
    · rw [h, Flow.andThen_more, Flow.andThen_more]
      exact ih (k + 1) _ (by simp only; omega)
    · rw [h, Flow.andThen_ended, Flow.andThen_ended]

end Sys2Proof.Machine
end

