-- ==== Sys2Proof/Tests/Slice0.lean ====
section
/-! SUPPORT. Tests. Expected results are those of `spec/95_test_vectors.md` (named in each comment) or worked by hand from the rules. -/

namespace Sys2Proof.Tests

open Sys2Proof Sys2Proof.Machine

/-! ## States -/

/-- TC1 of `95_test_vectors.md`: a test configuration, not the device's. -/
def tc1 : Config where
  sig := [0xCE, 0xA9, 0x48, 0x57]
  unit := [0x11, 0x11]
  term := [0x00, 0xFF]
  maxPixels := 16
  defaultPixel := ⟨0, 0, 0⟩
  runOverflow := .wrap
  loadClears := false
  saveExtent := .sequence

/-- The reset state under TC1. -/
def start : State := { State.reset with cfg := tc1 }

/-- A faulted block: FAULT with FCAUSE = OOB_READ. -/
def faultedStart : State := { start with status := 0x300 }

/-- The frame F1 of `95_test_vectors.md` §2.4. -/
def f1 : List Byte :=
  [0xCE, 0xA9, 0x48, 0x57, 1, 0, 0, 0, 1, 0, 0, 0, 1, 0, 0, 0] ++
    [0x11, 0x11, 0x00, 0xFF, 0x00, 0xFF, 0x11, 0x11, 0x11, 0x11, 0x00, 0xFF]

/-- What `f` reads in the next state of a command, if there is one. -/
def after {α : Type} (o : Host.Outcome State Fault Refusal) (f : State → α) : Option α :=
  match o with
  | .next t => some (f t)
  | .fault _ => none
  | .refused _ => none

/-! ## Well-formedness: each check refuses an ill-formed term -/

theorem test_wf_sig_empty : { tc1 with sig := [] }.sigOk = false := by decide
theorem test_wf_token_empty : { tc1 with unit := [], term := [] }.tokenWidthOk = false := by decide
theorem test_wf_token_widths : { tc1 with unit := [0x11] }.tokenWidthOk = false := by decide
theorem test_wf_tokens_equal : { tc1 with unit := [0x00, 0xFF] }.tokensDiffer = false := by decide
theorem test_wf_capacity_zero : { tc1 with maxPixels := 0 }.capacityOk = false := by decide
theorem test_wf_capacity_large : { tc1 with maxPixels := 2 ^ 32 + 1 }.capacityOk = false := by decide
theorem test_wf_config_refused : { tc1 with sig := [] }.wf = false := by decide
theorem test_wf_tc1 : tc1.wf = true := by decide
theorem test_wf_reserved : reservedClear 0x00000101#32 = false := by decide
theorem test_wf_opcode : opcodeKnown 0x0000000D#32 = false := by decide
theorem test_wf_opcode_zero : legalWord 0x00000000#32 = false := by decide
theorem test_wf_word_operand : wordOperandOk (2 ^ 32) = false := by decide
theorem test_wf_channel_operand : channelOperandOk 256 = false := by decide
theorem test_wf_asm_width : asmLineOk (.setWidth (2 ^ 32)) = false := by decide
theorem test_wf_asm_height : asmLineOk (.setHeight (2 ^ 32)) = false := by decide
theorem test_wf_asm_pixel : asmLineOk (.setPixel 0 0 0 256 0) = false := by decide
theorem test_wf_asm_get_pixel : asmLineOk (.getPixel 0 (2 ^ 32)) = false := by decide
theorem test_wf_asm_pixels : asmLineOk (.setPixels [(0, 0, 256)]) = false := by decide
theorem test_wf_asm_channel : asmLineOk (.encChannel 256) = false := by decide
theorem test_wf_asm_new_image : asmLineOk (.newImage (2 ^ 32) 0) = false := by decide
theorem test_wf_asm_set_dim : asmLineOk (.setDim 0 (2 ^ 32)) = false := by decide
theorem test_wf_memory : Memory.wf { tc1 with maxPixels := 1 } [⟨0, 0, 0⟩, ⟨0, 0, 0⟩] = false := by decide
theorem test_wf_status_code : statusLegal 0x004 = false := by decide
theorem test_wf_status_cause : statusLegal 0x100 = false := by decide
theorem test_wf_status_fcause : statusLegal 0xB00 = false := by decide
theorem test_wf_status_reserved : statusLegal 0x040 = false ∧ statusLegal 0x1000 = false := by decide

/-! ## Decoding: each row of R104, OPC in bits 7:0 below 24 zero bits -/

theorem test_decode_get_width : decode 0b00000000000000000000000000000001#32 = .ok .getWidth := by rfl
theorem test_decode_get_height : decode 0b00000000000000000000000000000010#32 = .ok .getHeight := by rfl
theorem test_decode_get_pixel : decode 0b00000000000000000000000000000011#32 = .ok .getPixel := by rfl
theorem test_decode_get_pixels : decode 0b00000000000000000000000000000100#32 = .ok .getPixels := by rfl
theorem test_decode_set_width : decode 0b00000000000000000000000000000101#32 = .ok .setWidth := by rfl
theorem test_decode_set_height : decode 0b00000000000000000000000000000110#32 = .ok .setHeight := by rfl
theorem test_decode_set_pixel : decode 0b00000000000000000000000000000111#32 = .ok .setPixel := by rfl
theorem test_decode_set_pixels : decode 0b00000000000000000000000000001000#32 = .ok .setPixels := by rfl
theorem test_decode_save : decode 0b00000000000000000000000000001001#32 = .ok .save := by rfl
theorem test_decode_load : decode 0b00000000000000000000000000001010#32 = .ok .load := by rfl
theorem test_decode_enc_channel : decode 0b00000000000000000000000000001011#32 = .ok .encChannel := by rfl
theorem test_decode_dec_channel : decode 0b00000000000000000000000000001100#32 = .ok .decChannel := by rfl
theorem test_decode_table_word : decodeTableWord 32 0x0A = some .load := by decide
theorem test_decode_table_reserved : decodeTableWord 32 0x10A = none := by decide

/-- V-I3: RSV = 1 with the opcode of GET_WIDTH is illegal; nothing but STATUS changes. -/
theorem test_illegal_reserved :
    after (step { start with result := 7, script := [.issue 0x00000101] }) (fun t => (t.status, t.result)) =
      some (0x003, 7) := by decide

/-- V-I4: no effect while FAULT = 1, CODE included. -/
theorem test_illegal_faulted :
    after (step { faultedStart with script := [.issue 0x0000000D] }) (fun t => t.status) = some 0x300 := by
  decide

/-! ## Commands -/

/-- V-P2: after SET_WIDTH 2, GET_WIDTH gives 2. -/
theorem test_get_width : after (exec .getWidth { start with width := 2, status := 0x33 })
    (fun t => (t.result, t.status)) = some (2, 0) := by decide

/-- R132: after SET_HEIGHT 7, GET_HEIGHT gives 7. -/
theorem test_get_height : after (exec .getHeight { start with height := 7 }) (fun t => t.result) = some 7 := by
  decide

/-- V-P14: PACK((255,128,1)) = 0x000180FF. -/
theorem test_get_pixel : after (exec .getPixel
    { start with width := 2, arg0 := 1, pixbuf := [⟨0, 0, 0⟩, ⟨255, 128, 1⟩] })
    (fun t => (t.result, t.status)) = some (0x000180FF, 0) := by decide

/-- V-P13: the index 2^64 - 2^32 is exact, so GET_PIXEL faults. -/
theorem test_get_pixel_exact_index : after (exec .getPixel
    { start with width := 0xFFFFFFFF, arg0 := 0xFFFFFFFF, arg1 := 0xFFFFFFFF, pixbuf := [⟨1, 1, 1⟩] })
    (fun t => (t.result, t.status)) = some (0, 0x300) := by decide

/-- P4, step 3: the whole sequence on PIXOUT. -/
theorem test_get_pixels : after (exec .getPixels { start with pixbuf := [⟨7, 7, 7⟩, ⟨1, 0, 0⟩, ⟨0, 0, 0⟩] })
    (fun t => (t.pixOut, t.result)) = some ([⟨7, 7, 7⟩, ⟨1, 0, 0⟩, ⟨0, 0, 0⟩], 3) := by decide

/-- V-P2: SET_WIDTH does not resize. -/
theorem test_set_width : after (exec .setWidth { start with arg0 := 2 })
    (fun t => (t.width, t.height, t.pixbuf)) = some (2, 0, []) := by decide

/-- V-P5: no effect on a faulted block. -/
theorem test_set_width_faulted : after (exec .setWidth { faultedStart with arg0 := 5 })
    (fun t => (t.width, t.status)) = some (0, 0x300) := by decide

/-- R136: SET_HEIGHT 7. -/
theorem test_set_height : after (exec .setHeight { start with arg0 := 7 })
    (fun t => (t.width, t.height, t.pixbuf)) = some (0, 7, []) := by decide

/-- V-P3: growth to slot 3 with default pixels. -/
theorem test_set_pixel_grows : after (exec .setPixel { start with arg0 := 3, arg2 := 0x00030201 })
    (fun t => t.pixbuf) = some [⟨0, 0, 0⟩, ⟨0, 0, 0⟩, ⟨0, 0, 0⟩, ⟨1, 2, 3⟩] := by decide

/-- V-P9: slot 16 is past P_MAX_PIXELS = 16. -/
theorem test_set_pixel_capacity : after (exec .setPixel { start with arg0 := 16 })
    (fun t => (t.pixbuf, t.status)) = some ([], 0x500) := by decide

/-- V-P12: SET_PIXELS [] may shrink PIXBUF. -/
theorem test_set_pixels_shrinks : after (exec .setPixels { start with pixbuf := [⟨1, 1, 1⟩] })
    (fun t => (t.pixbuf, t.status)) = some ([], 0) := by decide

/-- V-P11: 17 pixels. -/
theorem test_set_pixels_capacity :
    after (exec .setPixels { start with pixIn := List.replicate 17 ⟨1, 1, 1⟩ })
      (fun t => (t.pixbuf, t.status)) = some ([], 0x500) := by decide

/-- V-F1: SAVE of the 1×1 image writes F1. -/
theorem test_save : after (exec .save { start with width := 1, height := 1, pixbuf := [⟨1, 0, 2⟩] })
    (fun t => (t.output, t.result, t.status)) = some (f1, 1, 0) := by decide

/-- V-F27: a failure at output byte 6. -/
theorem test_save_failure : after (exec .save
    { start with width := 3, result := 0x55, outDraws := ⟨false, [6]⟩ })
    (fun t => (t.output, t.result, t.status)) =
      some ([0xCE, 0xA9, 0x48, 0x57, 0x01, 0x00], 0x55, 0x001) := by decide

/-- V-F4: F1 with version 2. -/
theorem test_load_version : after (exec .load { start with input := f1.set 4 2 })
    (fun t => (t.width, t.height, t.pixbuf, t.result, t.status)) =
      some (1, 1, [⟨1, 0, 2⟩], 1, 0x010) := by decide

/-- V-F22: P_MAX_PIXELS = 1 and PIXBUF full. -/
theorem test_load_capacity : after (exec .load
    { start with cfg := { tc1 with maxPixels := 1 }, pixbuf := [⟨9, 9, 9⟩], input := f1 })
    (fun t => (t.width, t.height, t.pixbuf, t.status)) = some (1, 1, [⟨9, 9, 9⟩], 0x500) := by decide

/-- V-C3: ENC_CHANNEL 3; bits 31:8 of ARG0 are ignored (V-C5). -/
theorem test_enc_channel : after (exec .encChannel { start with arg0 := 0x00000103 })
    (fun t => (t.output, t.result)) =
      some ([0x11, 0x11, 0x11, 0x11, 0x11, 0x11, 0x00, 0xFF], 4) := by decide

/-- R227: a write failure at byte 3 leaves the bytes before it. -/
theorem test_enc_channel_failure : after (exec .encChannel { start with arg0 := 3, outDraws := ⟨false, [3]⟩ })
    (fun t => (t.output, t.result, t.status)) = some ([0x11, 0x11, 0x11], 0, 0x001) := by decide

/-- V-C9: tokens that are neither UNIT nor TERM count as units. -/
theorem test_dec_channel : after (exec .decChannel { start with input := [1, 2, 3, 4, 0x00, 0xFF] })
    (fun t => (t.result, t.status)) = some (2, 0) := by decide

/-- V-C7: 6 bytes consumed, 2 left when the command closes its stream. -/
theorem test_dec_channel_consumes :
    (decChannelBody { start with input := [0x11, 0x11, 0x11, 0x11, 0x00, 0xFF, 0x11, 0x11] }).input =
      [0x11, 0x11] := by decide

/-- R292: a reset after 2 output bytes of ENC_CHANNEL 3 keeps those 2. -/
theorem test_reset_during : after (step { start with arg0 := 3, width := 5, script := [.issueReset 0x0B 2] })
    (fun t => (t.output, t.arg0, t.width)) = some ([0x11, 0x11], 0, 0) := by decide

/-! ## Witnesses: states and operands that meet the hypotheses of each statement, each clause at a boundary -/

theorem witness_DecodeOfEncode : Instr.wf .getWidth = true ∧ Instr.wf .decChannel = true := by decide

theorem witness_EveryWordLegalOrIllegal :
    legalWord 0x01 = true ∧ legalWord 0x0C = true ∧ legalWord 0x00 = false ∧
      legalWord 0x0D = false ∧ legalWord 0x101 = false := by decide

theorem witness_OpcodeMapWrittenOut : 0x0D ≤ 0x0D ∧ 0x0D ≤ 0xFF ∧ 0xFF ≤ 0xFF := by decide

theorem witness_IllegalWordChangesOnlyStatus (w : Word) (rest : List HostAct) :
    ({ start with script := .issue w :: rest } : State).faulted = false ∧
      ({ start with script := .issue w :: rest } : State).script = .issue w :: rest ∧
      (0x00#32).extractLsb' 0 8 = 0#8 ∧ 0x0D ≤ ((0x0D#32).extractLsb' 0 8).toNat ∧
      (0x101#32).extractLsb' 8 24 ≠ 0#24 := ⟨(by decide : start.faulted = false), rfl, by decide, by decide, by decide⟩

/-- The statements whose only hypothesis is that FAULT = 0: GetWidthResult, GetHeightResult, GetPixelsDeliversBuffer,
SetWidthResult, SetHeightResult. -/
theorem witness_running : start.faulted = false := by decide

theorem witness_GetPixelReadsSlotOrFaults :
    let s : State := { start with width := 2, arg0 := 1, pixbuf := [⟨0, 0, 0⟩, ⟨9, 8, 7⟩] }
    let u : State := { start with width := 2, arg1 := 1, pixbuf := [⟨0, 0, 0⟩, ⟨9, 8, 7⟩] }
    s.faulted = false ∧ s.pixbuf[s.arg1.toNat * s.width.toNat + s.arg0.toNat]? = some ⟨9, 8, 7⟩ ∧
      u.faulted = false ∧ u.pixbuf.length ≤ u.arg1.toNat * u.width.toNat + u.arg0.toNat := by decide

theorem witness_SetPixelsReplacesOrFaults :
    let s : State := { start with pixIn := List.replicate 16 ⟨1, 1, 1⟩ }
    let u : State := { start with pixIn := List.replicate 17 ⟨1, 1, 1⟩ }
    s.faulted = false ∧ s.pixIn.length ≤ s.cfg.maxPixels ∧ u.faulted = false ∧
      u.cfg.maxPixels < u.pixIn.length := by decide

theorem witness_SetPixelWritesSlotOrFaults :
    let s : State := { start with arg0 := 15 }
    let v : State := { start with arg0 := 1, pixbuf := [⟨0, 0, 0⟩, ⟨9, 8, 7⟩] }
    let u : State := { start with arg0 := 16 }
    s.faulted = false ∧ 15 = s.arg1.toNat * s.width.toNat + s.arg0.toNat ∧ 15 < s.cfg.maxPixels ∧
      v.faulted = false ∧ 1 = v.arg1.toNat * v.width.toNat + v.arg0.toNat ∧ 1 < v.pixbuf.length ∧
      u.faulted = false ∧ 16 = u.arg1.toNat * u.width.toNat + u.arg0.toNat ∧ u.cfg.maxPixels ≤ 16 := by
  decide

theorem witness_PixelReadAfterWrite :
    ∃ t v, start.faulted = false ∧ exec .setPixel start = .next t ∧ t.faulted = false ∧
      exec .getPixels t = .next v ∧ v.faulted = false :=
  ⟨_, _, by decide, rfl, by decide, rfl, by decide⟩

theorem witness_MutatorsAreIdempotent :
    (∃ t, exec .setPixel start = .next t) ∧ (∃ t, exec .setPixels start = .next t) :=
  ⟨⟨_, rfl⟩, ⟨_, rfl⟩⟩

/-- Also for FrameLength, and with `v` at 0 and 254 for the clauses of ChannelEncodingLength. -/
theorem witness_ChannelEncodingLength :
    tc1.wf = true ∧ (0#8).toNat ≤ 254 ∧ (254#8).toNat ≤ 254 := by decide

theorem witness_RunToChannelValue :
    (255 : Nat) ≤ 255 ∧ (255 : Nat) < 256 ∧ tc1.runOverflow = .wrap ∧
      { tc1 with runOverflow := .saturate }.runOverflow = .saturate ∧
      { tc1 with runOverflow := .fault }.runOverflow = .fault := by decide

theorem witness_ChannelCodeInverts :
    tc1.wf = true ∧ 1 ≤ { tc1 with unit := [0x00, 0xFF] }.tokenLen ∧
      { tc1 with unit := [0x00, 0xFF] }.unit = { tc1 with unit := [0x00, 0xFF] }.term := by decide

theorem witness_EncChannelResult :
    start.faulted = false ∧ NoFailureBelow start.outDraws (chanEnc tc1 0#8).length ∧
      (⟨true, []⟩ : Draws).openFail = true ∧ FirstFailure ⟨false, [1]⟩ 1 ∧
      1 < (chanEnc tc1 0#8).length := by
  unfold NoFailureBelow FirstFailure
  decide

theorem witness_DecChannelResult :
    start.faulted = false ∧ start.cfg.wf = true ∧ NoFailureBelow start.inDraws 4 ∧
      (⟨true, []⟩ : Draws).openFail = true ∧ FirstFailure ⟨false, [3]⟩ 3 ∧
      3 < ([0x00, 0xFF, 0x00, 0xFF] : List Byte).length ∧
      chanDec tc1 (cutTokens tc1.tokenLen (([0x00, 0xFF, 0x00, 0xFF] : List Byte).take 3)) ≠ none ∧
      chanDec tc1 (cutTokens tc1.tokenLen (([0x11, 0x11, 0x00, 0xFF] : List Byte).take 3)) = none := by
  unfold NoFailureBelow FirstFailure
  decide

theorem witness_DecChannelInvertsEncChannel :
    ∃ t, start.faulted = false ∧ start.cfg.wf = true ∧ NoDraws start.outDraws ∧ NoDraws start.inDraws ∧
      exec .encChannel start = .next t :=
  ⟨_, by decide, by decide, ⟨rfl, rfl⟩, ⟨rfl, rfl⟩, rfl⟩

theorem witness_SaveWritesFrame :
    start.faulted = false ∧ saveExtent start ≤ start.pixbuf.length ∧
      NoFailureBelow start.outDraws (encodeFrame start).length := by
  unfold NoFailureBelow
  decide

theorem witness_SaveFailureLeavesPrefix :
    start.faulted = false ∧ (⟨true, []⟩ : Draws).openFail = true ∧ FirstFailure ⟨false, [15]⟩ 15 ∧
      15 < (encodeFrame start).length := by
  unfold FirstFailure
  decide

theorem witness_SaveBeyondBufferFaults :
    let s : State :=
      { start with cfg := { tc1 with saveExtent := .dimensions }, width := 2, height := 1, pixbuf := [⟨0, 0, 0⟩] }
    s.faulted = false ∧ s.pixbuf.length < saveExtent s ∧
      NoFailureBelow s.outDraws (encodeFrame s).length := by
  unfold NoFailureBelow
  decide

theorem witness_SaveKeepsImage : ∃ t, exec .save start = .next t := ⟨_, rfl⟩

theorem witness_LoadMatchesDecode :
    start.faulted = false ∧ start.cfg.wf = true ∧ NoDraws start.inDraws := by
  unfold NoDraws
  decide

theorem witness_LoadOpenFailure :
    ({ start with inDraws := ⟨true, []⟩ } : State).faulted = false ∧
      ({ start with inDraws := ⟨true, []⟩ } : State).inDraws.openFail = true := by decide

/-- The three ends of the prefix: inside the signature, past a matching one, past a wrong one. -/
theorem witness_LoadReadFailureKeepsPrefixEffects :
    (∃ t, exec .load { start with input := f1.take 3, inDraws := Draws.none } = .next t ∧ t.faulted = false) ∧
      (∃ t, exec .load { start with input := f1.take 4, inDraws := Draws.none } = .next t ∧
        t.faulted = false ∧ f1.take start.cfg.sigLen = start.cfg.sig) ∧
      (f1.set 3 0x58).take start.cfg.sigLen ≠ start.cfg.sig ∧ start.cfg.sigLen ≤ 4 ∧ 4 < f1.length ∧
      FirstFailure ⟨false, [3]⟩ 3 ∧ FirstFailure ⟨false, [4]⟩ 4 := by
  refine ⟨⟨_, rfl, by decide⟩, ⟨_, rfl, by decide, by decide⟩, by decide, by decide, by decide, ?_, ?_⟩ <;>
  unfold FirstFailure <;> decide

theorem witness_WrongSignatureIsFormatError :
    let s : State := { start with input := f1.take 3 }
    let u : State := { start with input := f1.set 3 0x58 }
    s.faulted = false ∧ NoDraws s.inDraws ∧ s.input.length < s.cfg.sigLen ∧
      u.faulted = false ∧ NoDraws u.inDraws ∧ u.input.take u.cfg.sigLen ≠ u.cfg.sig := by
  unfold NoDraws
  decide

/-- Also for VersionMismatchOnlyWarns: its hypotheses are the first three. -/
theorem witness_LoadOfSaveRoundTrip :
    let s : State := { start with width := 1, height := 1, pixbuf := [⟨1, 0, 2⟩] }
    s.faulted = false ∧ s.cfg.wf = true ∧ NoDraws s.inDraws ∧ NoDraws s.outDraws ∧
      s.pixbuf.length ≤ s.cfg.maxPixels ∧ s.pixbuf.length = s.width.toNat * s.height.toNat ∧
      s.cfg.saveExtent = .sequence ∧ start.faulted = false ∧ start.cfg = s.cfg ∧ start.pixbuf = [] ∧
      { tc1 with loadClears := true }.loadClears = true := by
  unfold NoDraws
  decide

theorem witness_EmptyImageRoundTrip :
    start.faulted = false ∧ start.cfg.wf = true ∧ NoDraws start.outDraws ∧ start.width = 0#32 ∧
      start.height = 0#32 ∧ start.pixbuf = [] := by
  unfold NoDraws
  decide

/-- At the last byte of the signature, and at the first byte of the pixel stream. -/
theorem witness_PhaseFollowsOffset :
    let s : State := { start with dec := ⟨.sig, [0xCE, 0xA9, 0x48], 0, [], 3, 0⟩ }
    let u : State := { start with dec := ⟨.body, [], 0, [], 16, 0⟩ }
    s.cfg.wf = true ∧ s.dec.phase = phaseAt s.cfg s.dec.pos ∧
      s.dec.acc.length = offsetInField s.cfg s.dec.pos ∧
      (∃ t, loadByte 0x57 (consume [] s) = .more t) ∧
      u.dec.phase = phaseAt u.cfg u.dec.pos ∧ u.dec.acc.length = offsetInField u.cfg u.dec.pos ∧
      ∃ t, loadByte 0x11 (consume [] u) = .more t :=
  ⟨by decide, by decide, by decide, ⟨_, rfl⟩, by decide, by decide, ⟨_, rfl⟩⟩

theorem witness_FaultedBlockIgnoresCommands :
    ({ faultedStart with script := [.issue 0x05] } : State).faulted = true ∧
      ({ faultedStart with script := [.issue 0x05] } : State).script = .issue 0x05 :: [] := by decide

theorem witness_FaultClearedOnlyByReset :
    ∃ s t : State, s.faulted = true ∧ s.script.head? ≠ some .reset ∧
      (∀ w n, s.script.head? ≠ some (.issueReset w n)) ∧ step s = .next t :=
  ⟨{ faultedStart with script := [.issue 0x05] }, _, by decide, by decide, by
    intro w n h; exact HostAct.noConfusion (Option.some.inj h), rfl⟩

/-- Also for FaultCausesByCommand: a fault of each cause. -/
theorem witness_FaultKeepsResultAndCode :
    (∃ t, exec .getPixel start = .next t ∧ t.faulted = true ∧ statusFcause t.status = 1) ∧
      (∃ t, exec .setPixel { start with arg0 := 16 } = .next t ∧ t.faulted = true ∧
        statusFcause t.status = 2) :=
  ⟨⟨_, rfl, by decide, by decide⟩, ⟨_, rfl, by decide, by decide⟩⟩

/-- A run of 256 tokens under P_RUN_OVERFLOW = FAULT, with one-byte tokens (after V-C15). -/
theorem witness_FaultCausesByCommand_run :
    ∃ t, exec .decChannel
        { start with
          cfg := { tc1 with unit := [0x11], term := [0x00], runOverflow := .fault }
          input := List.replicate 256 0x11 ++ [0x00] } = .next t ∧
      t.faulted = true ∧ statusFcause t.status = 3 :=
  ⟨_, rfl, by decide +kernel, by decide +kernel⟩

theorem witness_ResultCodesByCommand :
    (∃ t, exec .save { start with outDraws := ⟨true, []⟩ } = .next t ∧ t.faulted = false ∧
      statusCode t.status = 1) ∧
      (∃ t, exec .load start = .next t ∧ t.faulted = false ∧ statusCode t.status = 2) :=
  ⟨⟨_, rfl, by decide, by decide⟩, ⟨_, rfl, by decide, by decide⟩⟩

theorem witness_WarningsOnlyFromDecoders :
    ∃ t, exec .load { start with input := (f1.set 4 2).take 9 } = .next t ∧
      statusVwarn t.status = true ∧ statusTrunc t.status = true :=
  ⟨_, rfl, by decide, by decide⟩

theorem witness_RegisterWriters : ∃ t, exec .setWidth { start with arg0 := 2 } = .next t ∧ t.width ≠ 0 :=
  ⟨_, rfl, by decide⟩

theorem witness_ReadersLeaveNoInput :
    ∃ t, start.faulted = false ∧ exec .load { start with input := f1 } = .next t :=
  ⟨_, by decide, rfl⟩

theorem witness_StepRunsIssuedCommand :
    ({ start with script := [.issue 0x01] } : State).script = .issue 0x01 :: [] ∧
      decode 0x01 = .ok .getWidth ∧ Instr.wf .getWidth = true := ⟨rfl, rfl, rfl⟩

theorem witness_IdleStepHoldsState : start.script = [] := rfl

theorem witness_HostRegisterWrites :
    ({ start with script := [.write .arg0 5] } : State).script = .write .arg0 5 :: [] ∧
      ({ start with script := [.write .status 5] } : State).script = .write .status 5 :: [] := ⟨rfl, rfl⟩

theorem witness_ResetRestoresRegisters :
    ({ faultedStart with script := [.reset] } : State).script = .reset :: [] := rfl

theorem witness_ResetDuringCommand :
    ∃ u, ({ start with script := [.issueReset 0x09 0] } : State).script = .issueReset 0x09 0 :: [] ∧
      decode 0x09 = .ok .save ∧ exec .save { start with script := [] } = .next u ∧ start.faulted = false :=
  ⟨_, rfl, rfl, rfl, by decide⟩

theorem witness_OverlappingCommandRefused :
    ({ start with script := [.overlap 0x09 0x01] } : State).script = .overlap 0x09 0x01 :: [] := rfl

/-- Also for ConfigurationNeverChanges. -/
theorem witness_StepKeepsInvariant :
    ∃ t, ({ start with script := [.issue 0x07] } : State).inv = true ∧
      step { start with script := [.issue 0x07] } = .next t :=
  ⟨_, by decide, rfl⟩

theorem witness_PseudoInstructionsSetDimensions :
    start.faulted = false ∧ asmLineOk (.newImage (2 ^ 32 - 1) 0) = true := by decide

theorem witness_AssembledSetPixelWritesPixel :
    start.faulted = false ∧ asmLineOk (.setPixel 15 0 255 0 255) = true ∧
      0 * start.width.toNat + 15 < start.cfg.maxPixels := by decide

end Sys2Proof.Tests
end

