-- ==== Sys2Proof/Proofs/LittleEndian.lean ====
section
/-! PROOFS. Little-endian byte sequences (`00_scope.md` R22). A byte sequence is the base-256 digits of its
natural number: equally long sequences with the same number are equal. So `unLE32` has `le32` as inverse on both
sides once `le32 v` has the number `v`. -/

namespace Sys2Proof.Machine

open Sys2Proof

@[simp] theorem littleEndianNat_nil : littleEndianNat [] = 0 := rfl

@[simp] theorem littleEndianNat_cons (b : Byte) (bs : List Byte) :
    littleEndianNat (b :: bs) = b.toNat + 256 * littleEndianNat bs := rfl

@[simp] theorem length_le32 (v : Word) : (le32 v).length = 4 := rfl

theorem littleEndianNat_lt (bs : List Byte) : littleEndianNat bs < 256 ^ bs.length := by
  induction bs with
  | nil => simp
  | cons b bs ih =>
    have hb : b.toNat < 256 := b.isLt
    rw [littleEndianNat_cons, List.length_cons, pow_succ]
    omega

theorem eq_of_littleEndianNat_eq {bs cs : List Byte} (hlen : bs.length = cs.length)
    (h : littleEndianNat bs = littleEndianNat cs) : bs = cs := by
  induction bs generalizing cs with
  | nil => exact (List.length_eq_zero_iff.mp hlen.symm).symm
  | cons b bs ih =>
    cases cs with
    | nil => cases hlen
    | cons c cs =>
      have hb : b.toNat < 256 := b.isLt
      have hc : c.toNat < 256 := c.isLt
      rw [littleEndianNat_cons, littleEndianNat_cons] at h
      have hhead : b = c := BitVec.eq_of_toNat_eq (by omega)
      have htail : bs = cs := ih (Nat.succ.inj hlen) (by omega)
      rw [hhead, htail]

/-- Four bytes fit a word: `unLE32` loses nothing. -/
theorem toNat_unLE32 {bs : List Byte} (hlen : bs.length = 4) :
    (unLE32 bs).toNat = littleEndianNat bs := by
  have hlt : littleEndianNat bs < 2 ^ 32 := by simpa [hlen] using littleEndianNat_lt bs
  rw [unLE32, BitVec.toNat_ofNat, Nat.mod_eq_of_lt hlt]

/-- The bytes of `le32 v` are the four base-256 digits of `v`, lowest first. -/
theorem littleEndianNat_le32 (v : Word) : littleEndianNat (le32 v) = v.toNat := by
  have hv : v.toNat < 2 ^ 32 := v.isLt
  simp only [le32, littleEndianNat_cons, littleEndianNat_nil, BitVec.extractLsb'_toNat,
    Nat.shiftRight_eq_div_pow]
  omega

@[simp] theorem unLE32_le32 (v : Word) : unLE32 (le32 v) = v := by
  rw [unLE32, littleEndianNat_le32, BitVec.ofNat_toNat, BitVec.setWidth_eq]

theorem le32_unLE32 {bs : List Byte} (hlen : bs.length = 4) : le32 (unLE32 bs) = bs := by
  refine eq_of_littleEndianNat_eq ((length_le32 _).trans hlen.symm) ?_
  rw [littleEndianNat_le32, toNat_unLE32 hlen]

/-- Settles O16: a word is the number of its four bytes, and the bytes are determined by that number. -/
theorem littleEndianInverse : Obligations.LittleEndianInverse := by
  unfold Obligations.LittleEndianInverse
  refine ⟨unLE32_le32, fun b0 b1 b2 b3 => ⟨le32_unLE32 rfl, ?_⟩⟩
  rw [toNat_unLE32 rfl]
  simp only [littleEndianNat_cons, littleEndianNat_nil]
  omega

end Sys2Proof.Machine
end

