-- ==== Sys2Proof/Proofs/StatusWrites.lean ====
section
/-! PROOFS. What a command's body can do to STATUS (`10_state.md` R39 to R45). The status writes a body makes form a
trail from the value the dispatch left to the value at the end; every fact about STATUS is an induction over that trail. -/

namespace Sys2Proof.Machine

open Sys2Proof

/-- A body leads STATUS from `w` to another value by ending with a code (R252), by taking a fault (R256) and, where it
is a command that may, by setting VWARN (R41) or TRUNC (R42). -/
inductive StatusWrites (mayWarn mayTrunc : Bool) (w : Word) : Word → Prop where
  | unchanged : StatusWrites mayWarn mayTrunc w w
  | code {v : Word} (c : ResultCode) :
      StatusWrites mayWarn mayTrunc w v → StatusWrites mayWarn mayTrunc w (setCode v c)
  | fault {v : Word} (c : Cause) :
      StatusWrites mayWarn mayTrunc w v → StatusWrites mayWarn mayTrunc w (setFault v c)
  | vwarn {v : Word} : mayWarn = true →
      StatusWrites mayWarn mayTrunc w v → StatusWrites mayWarn mayTrunc w (setVwarn v true)
  | trunc {v : Word} : mayTrunc = true →
      StatusWrites mayWarn mayTrunc w v → StatusWrites mayWarn mayTrunc w (setTrunc v true)

/-! ## What the writes leave as it was -/

theorem StatusWrites.statusVwarn_imp {mayWarn mayTrunc : Bool} {w v : Word}
    (h : StatusWrites mayWarn mayTrunc w v) (hv : statusVwarn v = true) :
    statusVwarn w = true ∨ mayWarn = true := by
  induction h with
  | unchanged => exact .inl hv
  | code c _ ih => exact ih (by simpa using hv)
  | fault c _ ih => exact ih (by simpa using hv)
  | vwarn hmay _ _ => exact .inr hmay
  | trunc _ _ ih => exact ih (by simpa using hv)

theorem StatusWrites.statusTrunc_imp {mayWarn mayTrunc : Bool} {w v : Word}
    (h : StatusWrites mayWarn mayTrunc w v) (hv : statusTrunc v = true) :
    statusTrunc w = true ∨ mayTrunc = true := by
  induction h with
  | unchanged => exact .inl hv
  | code c _ ih => exact ih (by simpa using hv)
  | fault c _ ih => exact ih (by simpa using hv)
  | vwarn _ _ ih => exact ih (by simpa using hv)
  | trunc hmay _ _ => exact .inr hmay

/-! ## Legal STATUS values (R40, R44, R45) -/

/-- The reserved bits of STATUS: 7:6 and 31:12 (R39, R45). -/
def reservedStatusBit (i : Nat) : Prop := i = 6 ∨ i = 7 ∨ 12 ≤ i

/-- Every reserved bit of STATUS reads 0 (R45). -/
def ReservedBitsClear (w : Word) : Prop := ∀ i, i < 32 → reservedStatusBit i → w.getLsbD i = false

/-- A quotient by a power of two is the bits above it. -/
theorem toNat_div_4096_eq_zero_iff (w : Word) :
    w.toNat / 4096 = 0 ↔ ∀ i, i < 32 → 12 ≤ i → w.getLsbD i = false := by
  rw [Nat.div_eq_zero_iff_lt (by omega)]
  constructor
  · intro hlt i _ hi
    exact Nat.testBit_lt_two_pow (hlt.trans_le (Nat.pow_le_pow_right (n := 2) (by omega) hi))
  · intro hbits
    refine Nat.lt_pow_two_of_testBit (n := 12) w.toNat fun i hi => ?_
    by_cases h32 : i < 32
    · exact hbits i h32 hi
    · exact BitVec.getLsbD_of_ge w i (by omega)

theorem statusLegal_iff (w : Word) :
    statusLegal w = true ↔
      (statusCode w).toNat ≤ 3 ∧ (statusFcause w).toNat ≤ 3 ∧
        statusFault w = decide (statusFcause w ≠ 0) ∧ ReservedBitsClear w := by
  have hreserved : ReservedBitsClear w ↔
      w.getLsbD 6 = false ∧ w.getLsbD 7 = false ∧ w.toNat / 4096 = 0 := by
    rw [toNat_div_4096_eq_zero_iff]
    constructor
    · exact fun h => ⟨h 6 (by omega) (.inl rfl), h 7 (by omega) (.inr (.inl rfl)),
        fun i hi h12 => h i hi (.inr (.inr h12))⟩
    · rintro ⟨h6, h7, h12⟩ i hi (rfl | rfl | hle)
      · exact h6
      · exact h7
      · exact h12 i hi hle
  simp only [statusLegal, hreserved, Bool.and_eq_true, decide_eq_true_eq, beq_iff_eq,
    Bool.not_eq_true', and_assoc]

theorem codeNumber_le_three (c : ResultCode) : (codeNumber c).toNat ≤ 3 := by
  cases c <;> decide

theorem causeNumber_le_three (c : Cause) : (causeNumber c).toNat ≤ 3 := by
  cases c <;> decide

theorem causeNumber_ne_zero (c : Cause) : causeNumber c ≠ 0 := by
  cases c <;> decide

theorem statusLegal_zero : statusLegal 0 = true := by decide

theorem statusLegal_setCode (w : Word) (c : ResultCode) (h : statusLegal w = true) :
    statusLegal (setCode w c) = true := by
  rw [statusLegal_iff] at h ⊢
  obtain ⟨_, hcause, hfault, hreserved⟩ := h
  refine ⟨by simpa using codeNumber_le_three c, by simpa using hcause, by simpa using hfault,
    fun i hi hr => ?_⟩
  rw [setCode_getLsbD _ _ _ hi, if_neg (by unfold reservedStatusBit at hr; omega)]
  exact hreserved i hi hr

theorem statusLegal_setFault (w : Word) (c : Cause) (h : statusLegal w = true) :
    statusLegal (setFault w c) = true := by
  rw [statusLegal_iff] at h ⊢
  obtain ⟨hcode, _, _, hreserved⟩ := h
  refine ⟨by simpa using hcode, by simpa using causeNumber_le_three c,
    by simpa using causeNumber_ne_zero c, fun i hi hr => ?_⟩
  unfold reservedStatusBit at hr
  rw [setFault_getLsbD _ _ _ hi, if_neg (by omega), if_neg (by omega)]
  exact hreserved i hi hr

theorem statusLegal_setVwarn (w : Word) (b : Bool) (h : statusLegal w = true) :
    statusLegal (setVwarn w b) = true := by
  rw [statusLegal_iff] at h ⊢
  obtain ⟨hcode, hcause, hfault, hreserved⟩ := h
  refine ⟨by simpa using hcode, by simpa using hcause, by simpa using hfault, fun i hi hr => ?_⟩
  rw [setVwarn_getLsbD _ _ _ hi, if_neg (by unfold reservedStatusBit at hr; omega)]
  exact hreserved i hi hr

theorem statusLegal_setTrunc (w : Word) (b : Bool) (h : statusLegal w = true) :
    statusLegal (setTrunc w b) = true := by
  rw [statusLegal_iff] at h ⊢
  obtain ⟨hcode, hcause, hfault, hreserved⟩ := h
  refine ⟨by simpa using hcode, by simpa using hcause, by simpa using hfault, fun i hi hr => ?_⟩
  rw [setTrunc_getLsbD _ _ _ hi, if_neg (by unfold reservedStatusBit at hr; omega)]
  exact hreserved i hi hr

theorem statusLegal_clearWarnings (w : Word) (h : statusLegal w = true) :
    statusLegal (clearWarnings w) = true :=
  statusLegal_setTrunc _ _ (statusLegal_setVwarn _ _ h)

theorem StatusWrites.statusLegal {mayWarn mayTrunc : Bool} {w v : Word}
    (h : StatusWrites mayWarn mayTrunc w v) (hw : statusLegal w = true) : statusLegal v = true := by
  induction h with
  | unchanged => exact hw
  | code c _ ih => exact statusLegal_setCode _ c ih
  | fault c _ ih => exact statusLegal_setFault _ c ih
  | vwarn _ _ ih => exact statusLegal_setVwarn _ true ih
  | trunc _ _ ih => exact statusLegal_setTrunc _ true ih

/-! ## The status writes of the shared operations and of the stream commands

`w` is the value of STATUS at some earlier point of the command: each part makes the trail from there longer. -/

section Bodies

variable {mayWarn mayTrunc : Bool} {w : Word}

theorem outOpen_statusWrites (s : State) (h : StatusWrites mayWarn mayTrunc w s.status) :
    StatusWrites mayWarn mayTrunc w (outOpen s).state.status := by
  obtain ⟨_, e⟩ | ⟨_, e⟩ := outOpen_cases s <;> rw [e]
  · exact .code .ioError h
  · exact h

theorem outWrite_statusWrites (bs : List Byte) (s : State)
    (h : StatusWrites mayWarn mayTrunc w s.status) :
    StatusWrites mayWarn mayTrunc w (outWrite bs s).state.status := by
  obtain e | ⟨_, _, e⟩ := outWrite_cases bs s <;> rw [e]
  · exact h
  · exact .code .ioError h

theorem inOpen_statusWrites (d : Decoder) (s : State)
    (h : StatusWrites mayWarn mayTrunc w s.status) :
    StatusWrites mayWarn mayTrunc w (inOpen d s).state.status := by
  obtain ⟨_, e⟩ | ⟨_, e⟩ := inOpen_cases d s <;> rw [e]
  · exact .code .ioError h
  · exact h

theorem pixWrite_statusWrites (k : Nat) (p : Pixel) (s : State)
    (h : StatusWrites mayWarn mayTrunc w s.status) :
    StatusWrites mayWarn mayTrunc w (pixWrite k p s).state.status := by
  obtain ⟨_, e⟩ | ⟨_, e⟩ := pixWrite_cases k p s <;> rw [e]
  · exact .fault .capacity h
  · exact h

theorem pixAppend_statusWrites (p : Pixel) (s : State)
    (h : StatusWrites mayWarn mayTrunc w s.status) :
    StatusWrites mayWarn mayTrunc w (pixAppend p s).state.status := by
  obtain ⟨_, e⟩ | ⟨_, e⟩ := pixAppend_cases p s <;> rw [e]
  · exact .fault .capacity h
  · exact h

theorem savePixels_statusWrites (n k : Nat) (s : State)
    (h : StatusWrites mayWarn mayTrunc w s.status) :
    StatusWrites mayWarn mayTrunc w (savePixels n k s).state.status := by
  induction n generalizing k s with
  | zero => exact h
  | succ n ih =>
    rw [savePixels]
    split
    · exact .fault .oobRead h
    · exact Flow.andThen_state_prop (P := fun t => StatusWrites mayWarn mayTrunc w t.status)
        (Flow.andThen_state_prop (Flow.andThen_state_prop (outWrite_statusWrites _ s h)
          (outWrite_statusWrites _)) (outWrite_statusWrites _)) (ih _)

theorem saveBody_statusWrites (s : State) (h : StatusWrites mayWarn mayTrunc w s.status) :
    StatusWrites mayWarn mayTrunc w (saveBody s).status := by
  refine Flow.andThen_state_prop (P := fun t => StatusWrites mayWarn mayTrunc w t.status)
    (Flow.andThen_state_prop (Flow.andThen_state_prop (outOpen_statusWrites s h) ?_)
      (savePixels_statusWrites _ _)) fun t ht => .code .ok ht
  intro t ht
  rw [saveHeader_eq_outWrite]
  exact outWrite_statusWrites _ t ht

theorem encChannelBody_statusWrites (s : State) (h : StatusWrites mayWarn mayTrunc w s.status) :
    StatusWrites mayWarn mayTrunc w (encChannelBody s).status :=
  Flow.andThen_state_prop (P := fun t => StatusWrites mayWarn mayTrunc w t.status)
    (Flow.andThen_state_prop (outOpen_statusWrites s h) (outWrite_statusWrites _))
    fun _ ht => .code .ok ht

theorem getPixelBody_statusWrites (s : State) (h : StatusWrites mayWarn mayTrunc w s.status) :
    StatusWrites mayWarn mayTrunc w (getPixelBody s).status := by
  unfold getPixelBody
  split
  · exact .code .ok h
  · exact .fault .oobRead h

theorem setPixelBody_statusWrites (s : State) (h : StatusWrites mayWarn mayTrunc w s.status) :
    StatusWrites mayWarn mayTrunc w (setPixelBody s).status :=
  Flow.andThen_state_prop (P := fun t => StatusWrites mayWarn mayTrunc w t.status)
    (pixWrite_statusWrites _ _ s h) fun _ ht => .code .ok ht

theorem setPixelsBody_statusWrites (s : State) (h : StatusWrites mayWarn mayTrunc w s.status) :
    StatusWrites mayWarn mayTrunc w (setPixelsBody s).status := by
  unfold setPixelsBody
  split
  · exact .fault .capacity h
  · exact .code .ok h

theorem decChannelByte_statusWrites (b : Byte) (s : State)
    (h : StatusWrites mayWarn mayTrunc w s.status) :
    StatusWrites mayWarn mayTrunc w (decChannelByte b s).state.status := by
  unfold decChannelByte
  split
  · unfold decChannelToken
    split
    · split
      · exact .code .ok h
      · exact .fault .runOverflow h
    · exact h
  · exact h

/-- DEC_CHANNEL sets TRUNC at the end of its stream, and never VWARN (R228). -/
theorem decChannelBody_statusWrites (s : State) (h : StatusWrites mayWarn true w s.status) :
    StatusWrites mayWarn true w (decChannelBody s).status :=
  Flow.andThen_state_prop (P := fun t => StatusWrites mayWarn true w t.status)
    (inOpen_statusWrites _ s h)
    fun t ht => readLoop_preserves (P := fun u => StatusWrites mayWarn true w u.status)
      (fun b _ _ hu => decChannelByte_statusWrites b _ hu)
      (fun _ hu => .code .ok (.trunc rfl hu)) (fun _ hu => .code .ioError hu) _ t ht

theorem completeBody_statusWrites (tok : List Byte) (s : State)
    (h : StatusWrites mayWarn mayTrunc w s.status) :
    StatusWrites mayWarn mayTrunc w (completeBody tok s).state.status := by
  unfold completeBody
  split
  · split
    · unfold emitChannels
      split
      · exact Flow.andThen_state_prop (P := fun t => StatusWrites mayWarn mayTrunc w t.status)
          (pixAppend_statusWrites _ s h) fun _ ht => ht
      · exact h
    · exact .fault .runOverflow h
  · exact h

/-- LOAD sets VWARN where it has read the version (R184). -/
theorem loadByte_statusWrites (b : Byte) (s : State) (h : StatusWrites true mayTrunc w s.status) :
    StatusWrites true mayTrunc w (loadByte b s).state.status := by
  unfold loadByte
  split
  · unfold completeField
    cases s.dec.phase with
    | sig =>
      simp only [completeSig]
      split
      · exact .code .formatError h
      · exact h
    | ver =>
      simp only [completeVer, Flow.state_more]
      split
      · exact .vwarn rfl h
      · exact h
    | wid => exact h
    | hgt => exact h
    | body => exact completeBody_statusWrites _ s h
  · exact h

/-- LOAD sets TRUNC where its stream ends (R191). -/
theorem loadEnd_statusWrites (s : State) (h : StatusWrites mayWarn true w s.status) :
    StatusWrites mayWarn true w (loadEnd s).status := by
  have hcut : StatusWrites mayWarn true w (headerCutShort s).status := .code .ok (.trunc rfl h)
  unfold loadEnd
  cases s.dec.phase with
  | sig => exact .code .formatError h
  | ver => exact hcut
  | wid => exact hcut
  | hgt => exact hcut
  | body =>
    refine .code .ok ?_
    simp only
    split
    · exact .trunc rfl h
    · exact h

theorem loadBody_statusWrites (s : State) (h : StatusWrites true true w s.status) :
    StatusWrites true true w (loadBody s).status :=
  Flow.andThen_state_prop (P := fun t => StatusWrites true true w t.status)
    (inOpen_statusWrites _ s h)
    fun t ht => readLoop_preserves (P := fun u => StatusWrites true true w u.status)
      (fun b _ _ hu => loadByte_statusWrites b _ hu)
      (fun u hu => loadEnd_statusWrites u hu) (fun _ hu => .code .ioError hu) _ t ht

end Bodies

end Sys2Proof.Machine
end

