-- ==== Sys2Proof/Proofs/CommandWrites.lean ====
section
/-! PROOFS. What each command may write, read off one body per command: the write column of `30_encoding.md` R111
with the ports and the decoder state, and the statements about registers and warnings that follow from it. -/

namespace Sys2Proof.Machine

open Sys2Proof

/-! ## One body per command -/

/-- The body that `runCommand` puts behind the dispatch (R130). -/
def commandBody : Instr → State → State
  | .getWidth, s => finish .ok { s with result := s.width }
  | .getHeight, s => finish .ok { s with result := s.height }
  | .getPixel, s => getPixelBody s
  | .getPixels, s =>
    finish .ok { s with pixOut := s.pixbuf, result := BitVec.ofNat 32 s.pixbuf.length }
  | .setWidth, s => finish .ok { s with width := s.arg0 }
  | .setHeight, s => finish .ok { s with height := s.arg0 }
  | .setPixel, s => setPixelBody s
  | .setPixels, s => clearPixIn (setPixelsBody s)
  | .save, s => closeOutput (saveBody s)
  | .load, s => closeInput (loadBody s)
  | .encChannel, s => closeOutput (encChannelBody s)
  | .decChannel, s => closeInput (decChannelBody s)

theorem exec_eq_runCommand (i : Instr) (s : State) : exec i s = runCommand (commandBody i) s := by
  cases i <;> rfl

theorem exec_of_faulted (i : Instr) (s : State) (h : s.faulted = true) : exec i s = .next s := by
  rw [exec_eq_runCommand, runCommand_of_faulted _ s h]

/-- A command leaves a faulted block alone, or its body runs on the state the dispatch made. -/
theorem exec_cases {i : Instr} {s t : State} (h : exec i s = .next t) :
    (s.faulted = true ∧ t = s) ∨ (s.faulted = false ∧ t = commandBody i (startCommand s)) :=
  runCommand_next (exec_eq_runCommand i s ▸ h)

/-! ## The write column of R111 -/

/-- `s` with the fields that the command may write taken from `x`: the registers and outputs of its row in R111,
STATUS, and what the end of the command discards of its streams (R48, R65). -/
def tableWrites (i : Instr) (s x : State) : State :=
  match i with
  | .getWidth => { s with result := x.result, status := x.status }
  | .getHeight => { s with result := x.result, status := x.status }
  | .getPixel => { s with result := x.result, status := x.status }
  | .getPixels => { s with pixOut := x.pixOut, result := x.result, status := x.status }
  | .setWidth => { s with width := x.width, status := x.status }
  | .setHeight => { s with height := x.height, status := x.status }
  | .setPixel => { s with pixbuf := x.pixbuf, status := x.status }
  | .setPixels => { s with pixbuf := x.pixbuf, status := x.status, pixIn := x.pixIn }
  | .save =>
    { s with output := x.output, result := x.result, status := x.status, outDraws := x.outDraws }
  | .load =>
    { s with
      width := x.width, height := x.height, pixbuf := x.pixbuf, result := x.result
      status := x.status, dec := x.dec, input := x.input, inDraws := x.inDraws }
  | .encChannel =>
    { s with output := x.output, result := x.result, status := x.status, outDraws := x.outDraws }
  | .decChannel =>
    { s with
      result := x.result, status := x.status, dec := x.dec, input := x.input
      inDraws := x.inDraws }

theorem tableWrites_self (i : Instr) (s : State) : tableWrites i s s = s := by cases i <;> rfl

/-- STATUS is in every row, so the dispatch's write to it does not show. -/
theorem tableWrites_startCommand (i : Instr) (s x : State) :
    tableWrites i (startCommand s) x = tableWrites i s x := by cases i <;> rfl

@[simp] theorem tableWrites_cfg (i : Instr) (s x : State) : (tableWrites i s x).cfg = s.cfg := by
  cases i <;> rfl

theorem tableWrites_sameArgs (i : Instr) (s x : State) : SameArgs s (tableWrites i s x) := by
  cases i <;> exact ⟨rfl, rfl, rfl⟩

theorem tableWrites_width (i : Instr) (s x : State) :
    (tableWrites i s x).width = if i = .setWidth ∨ i = .load then x.width else s.width := by
  cases i <;> rfl

theorem tableWrites_height (i : Instr) (s x : State) :
    (tableWrites i s x).height = if i = .setHeight ∨ i = .load then x.height else s.height := by
  cases i <;> rfl

theorem tableWrites_pixbuf (i : Instr) (s x : State) :
    (tableWrites i s x).pixbuf =
      if i = .setPixel ∨ i = .setPixels ∨ i = .load then x.pixbuf else s.pixbuf := by
  cases i <;> rfl

theorem tableWrites_result (i : Instr) (s x : State) :
    (tableWrites i s x).result =
      if i ≠ .setWidth ∧ i ≠ .setHeight ∧ i ≠ .setPixel ∧ i ≠ .setPixels then x.result
      else s.result := by
  cases i <;> rfl

theorem tableWrites_output (i : Instr) (s x : State) :
    (tableWrites i s x).output = if i = .save ∨ i = .encChannel then x.output else s.output := by
  cases i <;> rfl

theorem tableWrites_pixOut (i : Instr) (s x : State) :
    (tableWrites i s x).pixOut = if i = .getPixels then x.pixOut else s.pixOut := by
  cases i <;> rfl

theorem tableWrites_dec (i : Instr) (s x : State) :
    (tableWrites i s x).dec = if i = .load ∨ i = .decChannel then x.dec else s.dec := by
  cases i <;> rfl

theorem getPixelBody_tableWrites (s : State) :
    getPixelBody s = tableWrites .getPixel s (getPixelBody s) := by
  unfold getPixelBody
  split <;> rfl

theorem setPixelBody_tableWrites (s : State) :
    setPixelBody s = tableWrites .setPixel s (setPixelBody s) := by
  obtain ⟨_, e⟩ | ⟨_, e⟩ := pixWrite_cases (pixelIndex s) (unpack s.arg2) s <;>
    rw [setPixelBody, e] <;> rfl

theorem setPixelsBody_tableWrites (s : State) :
    clearPixIn (setPixelsBody s) = tableWrites .setPixels s (clearPixIn (setPixelsBody s)) := by
  unfold setPixelsBody
  split <;> rfl

theorem OnlyEncodeWrites.closeOutput_eq {s t : State} (h : OnlyEncodeWrites s t) :
    closeOutput t = tableWrites .save s (closeOutput t) := by
  unfold OnlyEncodeWrites at h
  rw [h]
  rfl

theorem OnlyLoadWrites.closeInput_eq {s t : State} (h : OnlyLoadWrites s t) :
    closeInput t = tableWrites .load s (closeInput t) := by
  unfold OnlyLoadWrites at h
  rw [h]
  rfl

theorem OnlyDecodeWrites.closeInput_eq {s t : State} (h : OnlyDecodeWrites s t) :
    closeInput t = tableWrites .decChannel s (closeInput t) := by
  unfold OnlyDecodeWrites at h
  rw [h]
  rfl

/-- A body writes no field outside its row. -/
theorem commandBody_tableWrites (i : Instr) (s : State) :
    commandBody i s = tableWrites i s (commandBody i s) := by
  cases i with
  | getPixel => exact getPixelBody_tableWrites s
  | setPixel => exact setPixelBody_tableWrites s
  | setPixels => exact setPixelsBody_tableWrites s
  | save => exact (saveBody_frame s).closeOutput_eq
  | encChannel => exact (encChannelBody_frame s).closeOutput_eq
  | load => exact (loadBody_frame s).closeInput_eq
  | decChannel => exact (decChannelBody_frame s).closeInput_eq
  | getWidth | getHeight | getPixels | setWidth | setHeight => rfl

/-- A command writes no field outside its row, whatever its outcome. -/
theorem exec_tableWrites {i : Instr} {s t : State} (h : exec i s = .next t) :
    ∃ x, t = tableWrites i s x := by
  obtain ⟨_, rfl⟩ | ⟨_, rfl⟩ := exec_cases h
  · exact ⟨t, (tableWrites_self i t).symm⟩
  · exact ⟨_, (commandBody_tableWrites i (startCommand s)).trans (tableWrites_startCommand i s _)⟩

theorem exec_cfg {i : Instr} {s t : State} (h : exec i s = .next t) : t.cfg = s.cfg := by
  obtain ⟨x, rfl⟩ := exec_tableWrites h
  exact tableWrites_cfg i s x

/-- PIXBUF grows or stays: SET_PIXEL never shrinks it (R63, R138). -/
theorem setPixelBody_length_le (s : State) : s.pixbuf.length ≤ (setPixelBody s).pixbuf.length := by
  obtain ⟨_, e⟩ | ⟨_, e⟩ := pixWrite_cases (pixelIndex s) (unpack s.arg2) s <;> rw [setPixelBody, e]
  · exact le_rfl
  · simp only [Flow.andThen_more, Flow.state_ended, finish_pixbuf, grownWrite_length]
    exact le_max_left _ _

theorem exec_setPixel_length_le {s t : State} (h : exec .setPixel s = .next t) :
    s.pixbuf.length ≤ t.pixbuf.length := by
  obtain ⟨_, rfl⟩ | ⟨_, rfl⟩ := exec_cases h
  · exact le_rfl
  · exact setPixelBody_length_le (startCommand s)

/-- Settles O42: each register's writers are the rows of R111 that name it. -/
theorem registerWriters : Obligations.RegisterWriters := by
  unfold Obligations.RegisterWriters
  intro i s t h
  have hgrow : i = .setPixel → s.pixbuf.length ≤ t.pixbuf.length := by
    rintro rfl
    exact exec_setPixel_length_le h
  obtain ⟨x, rfl⟩ := exec_tableWrites h
  refine ⟨tableWrites_sameArgs i s x, ?_, ?_, ?_, hgrow, ?_, ?_, ?_⟩
  · rw [tableWrites_width]; exact fun hne => (ite_ne_right_iff.mp hne).1
  · rw [tableWrites_height]; exact fun hne => (ite_ne_right_iff.mp hne).1
  · rw [tableWrites_pixbuf]; exact fun hne => (ite_ne_right_iff.mp hne).1
  · rw [tableWrites_result]; exact fun hne => (ite_ne_right_iff.mp hne).1
  · rw [tableWrites_output]; exact fun hne => (ite_ne_right_iff.mp hne).1
  · rw [tableWrites_pixOut]; exact fun hne => (ite_ne_right_iff.mp hne).1

/-! ## STATUS after a command -/

/-- The commands that may set VWARN: LOAD (R41). -/
def setsVwarn (i : Instr) : Bool := decide (i = .load)

/-- The commands that may set TRUNC: LOAD and DEC_CHANNEL (R42). -/
def setsTrunc (i : Instr) : Bool := decide (i = .load ∨ i = .decChannel)

theorem commandBody_statusWrites (i : Instr) (s : State) :
    StatusWrites (setsVwarn i) (setsTrunc i) s.status (commandBody i s).status := by
  cases i with
  | getPixel => exact getPixelBody_statusWrites s .unchanged
  | setPixel => exact setPixelBody_statusWrites s .unchanged
  | setPixels => exact setPixelsBody_statusWrites s .unchanged
  | save => exact saveBody_statusWrites s .unchanged
  | encChannel => exact encChannelBody_statusWrites s .unchanged
  | load => exact loadBody_statusWrites s .unchanged
  | decChannel => exact decChannelBody_statusWrites s .unchanged
  | getWidth | getHeight | getPixels | setWidth | setHeight => exact .code .ok .unchanged

/-- A command that runs leads STATUS on from its value with both warnings cleared (R130). -/
theorem exec_statusWrites {i : Instr} {s t : State} (hrun : s.faulted = false)
    (h : exec i s = .next t) :
    StatusWrites (setsVwarn i) (setsTrunc i) (clearWarnings s.status) t.status := by
  obtain ⟨hf, _⟩ | ⟨_, rfl⟩ := exec_cases h
  · rw [hrun] at hf; cases hf
  · exact commandBody_statusWrites i (startCommand s)

/-- Settles O41: the dispatch clears both warnings, and only the decoders' trails set one again. -/
theorem warningsOnlyFromDecoders : Obligations.WarningsOnlyFromDecoders := by
  unfold Obligations.WarningsOnlyFromDecoders
  intro i s t hrun h
  have htrail := exec_statusWrites hrun h
  constructor
  · intro hv
    have := htrail.statusVwarn_imp hv
    simpa [setsVwarn] using this
  · intro hv
    have := htrail.statusTrunc_imp hv
    simpa [setsTrunc] using this

end Sys2Proof.Machine
end

