-- ==== Sys2Proof/Proofs/HostSteps.lean ====
section
/-! PROOFS. One step of the machine by the host's action it takes: what it writes (`10_state.md` R37, R38, R45), that it
keeps the configuration (R46), and that nothing but reset clears a fault (R43). -/

namespace Sys2Proof.Machine

open Sys2Proof

/-! ## What a step can do -/

/-- A step is idle, or takes the host's next action with the rest of them to come (R274). -/
theorem step_cases {s t : State} (h : step s = .next t) :
    (s.script = [] ∧ t = s) ∨
      ∃ a rest, s.script = a :: rest ∧ hostAct a { s with script := rest } = .next t := by
  cases hs : s.script with
  | nil =>
    rw [step_idle s hs] at h
    exact .inl ⟨rfl, (Host.Outcome.next.inj h).symm⟩
  | cons a rest => exact .inr ⟨a, rest, rfl, step_action s a rest hs ▸ h⟩

/-- An issued word runs its command, or is an illegal one (R102, R105). -/
theorem issue_cases {w : Word} {s t : State} (h : issue w s = .next t) :
    (∃ i, exec i s = .next t) ∨ illegalCommand s = .next t := by
  unfold issue at h
  split at h
  · exact .inl ⟨_, h⟩
  · exact .inr h

/-- An illegal word does nothing to a faulted block, and otherwise writes STATUS alone (R105, R265). -/
theorem illegalCommand_cases {s t : State} (h : illegalCommand s = .next t) :
    (s.faulted = true ∧ t = s) ∨
      (s.faulted = false ∧ t = { s with status := setCode (clearWarnings s.status) .illegalCmd }) :=
  runCommand_next h

/-- A reset inside a command is a reset, but for the output that was written (R292). -/
theorem issueReset_cases {w : Word} {n : Nat} {s t : State} (h : issueReset w n s = .next t) :
    ∃ out, t = { hostReset s with output := out } := by
  obtain ⟨u, hu⟩ := issue_next w s
  simp only [issueReset, hu, Host.Outcome.next.injEq] at h
  split at h
  · exact ⟨_, h.symm⟩
  · exact ⟨s.output, h.symm⟩

/-- Settles O46: one action of the host writes the one register it names, or none. -/
theorem hostRegisterWrites : Obligations.HostRegisterWrites := by
  unfold Obligations.HostRegisterWrites
  intro s r v rest hs
  refine ⟨hostWrite r v { s with script := rest }, step_action s _ rest hs, ?_, ?_⟩
  · cases r <;> rfl
  · cases r <;> rfl

/-! ## The configuration -/

theorem hostWrite_cfg (r : HostReg) (v : Word) (s : State) : (hostWrite r v s).cfg = s.cfg := by
  cases r <;> rfl

theorem hostWrite_status (r : HostReg) (v : Word) (s : State) :
    (hostWrite r v s).status = s.status := by
  cases r <;> rfl

theorem issue_cfg {w : Word} {s t : State} (h : issue w s = .next t) : t.cfg = s.cfg := by
  obtain ⟨i, hi⟩ | hill := issue_cases h
  · exact exec_cfg hi
  · obtain ⟨_, rfl⟩ | ⟨_, rfl⟩ := illegalCommand_cases hill <;> rfl

theorem hostAct_cfg {a : HostAct} {s t : State} (h : hostAct a s = .next t) : t.cfg = s.cfg := by
  cases a with
  | write r v => cases h; exact hostWrite_cfg r v s
  | pixIn ps => cases h; rfl
  | attachIn bytes d => cases h; rfl
  | attachOut d => cases h; rfl
  | issue w => exact issue_cfg h
  | issueReset w n => obtain ⟨_, rfl⟩ := issueReset_cases h; rfl
  | overlap first second => cases h
  | reset => cases h; rfl

/-- Settles O50: no action of the host writes the configuration. -/
theorem configurationNeverChanges : Obligations.ConfigurationNeverChanges := by
  unfold Obligations.ConfigurationNeverChanges
  intro s t h
  obtain ⟨_, rfl⟩ | ⟨a, rest, _, ha⟩ := step_cases h
  · rfl
  · exact hostAct_cfg (s := { s with script := rest }) ha

/-! ## The sticky fault -/

theorem issue_of_faulted (w : Word) (s : State) (h : s.faulted = true) : issue w s = .next s := by
  unfold issue
  split
  · exact exec_of_faulted _ s h
  · exact runCommand_of_faulted _ s h

/-- A faulted block keeps STATUS through every action but the two that assert reset. -/
theorem hostAct_status_of_faulted {a : HostAct} {s t : State} (hf : s.faulted = true)
    (hreset : a ≠ .reset) (hissueReset : ∀ w n, a ≠ .issueReset w n)
    (h : hostAct a s = .next t) : t.status = s.status := by
  cases a with
  | write r v => cases h; exact hostWrite_status r v s
  | pixIn ps => cases h; rfl
  | attachIn bytes d => cases h; rfl
  | attachOut d => cases h; rfl
  | issue w =>
    have hnext : issue w s = .next t := h
    rw [issue_of_faulted w s hf] at hnext
    cases hnext
    rfl
  | issueReset w n => exact absurd rfl (hissueReset w n)
  | overlap first second => cases h
  | reset => exact absurd rfl hreset

/-- Settles O37: the action a faulted block takes is no reset, so STATUS stays. -/
theorem faultClearedOnlyByReset : Obligations.FaultClearedOnlyByReset := by
  unfold Obligations.FaultClearedOnlyByReset
  intro s t hf hreset hissueReset h
  obtain ⟨_, rfl⟩ | ⟨a, rest, hs, ha⟩ := step_cases h
  · rfl
  · rw [hs, List.head?_cons] at hreset
    simp only [hs, List.head?_cons] at hissueReset
    exact hostAct_status_of_faulted (s := { s with script := rest }) hf (fun e => hreset (congrArg some e))
      (fun w n e => hissueReset w n (congrArg some e)) ha

end Sys2Proof.Machine
end

