-- ==== Sys2Proof/Proofs/Invariant.lean ====
section
/-! PROOFS. The invariant between two commands (`10_state.md` R35, R40, R44, R45, R48): every command's body keeps
each of its four parts, and so does every action of the host. -/

namespace Sys2Proof.Machine

open Sys2Proof

theorem inv_iff (s : State) :
    s.inv = true ↔
      s.cfg.wf = true ∧ PixbufFits s ∧ statusLegal s.status = true ∧ s.dec = Decoder.idle := by
  simp only [State.inv, PixbufFits, Bool.and_eq_true, decide_eq_true_eq, and_assoc]

theorem inv_hostReset (s : State) (h : s.cfg.wf = true) : (hostReset s).inv = true :=
  (inv_iff _).mpr ⟨h, memory_wf_hostReset s, statusLegal_zero, rfl⟩

theorem inv_hostWrite (r : HostReg) (v : Word) (s : State) : (hostWrite r v s).inv = s.inv := by
  cases r <;> rfl

/-- Only SET_PIXEL, SET_PIXELS and LOAD write PIXBUF, and each of them checks the capacity (R35). -/
theorem commandBody_pixbufFits (i : Instr) (s : State) (h : PixbufFits s) :
    PixbufFits (commandBody i s) := by
  by_cases hi : i = .setPixel ∨ i = .setPixels ∨ i = .load
  · obtain rfl | rfl | rfl := hi
    · exact memory_wf_setPixelBody s h
    · exact memory_wf_setPixelsBody s h
    · exact memory_wf_loadBody s h
  · rw [commandBody_tableWrites, PixbufFits, tableWrites_cfg, tableWrites_pixbuf, if_neg hi]
    exact h

/-- The decoder state does not outlive a command (R48). -/
theorem commandBody_dec (i : Instr) (s : State) (h : s.dec = Decoder.idle) :
    (commandBody i s).dec = Decoder.idle := by
  by_cases hi : i = .load ∨ i = .decChannel
  · obtain rfl | rfl := hi
    · exact closeInput_dec _
    · exact closeInput_dec _
  · rw [commandBody_tableWrites, tableWrites_dec, if_neg hi]
    exact h

theorem commandBody_cfg (i : Instr) (s : State) : (commandBody i s).cfg = s.cfg := by
  rw [commandBody_tableWrites, tableWrites_cfg]

theorem commandBody_inv (i : Instr) (s : State) (h : s.inv = true) :
    (commandBody i s).inv = true := by
  rw [inv_iff] at h ⊢
  obtain ⟨hcfg, hfits, hstatus, hdec⟩ := h
  exact ⟨commandBody_cfg i s ▸ hcfg, commandBody_pixbufFits i s hfits,
    (commandBody_statusWrites i s).statusLegal hstatus, commandBody_dec i s hdec⟩

/-- A write to STATUS that leaves it legal keeps the invariant. -/
theorem inv_of_status {s : State} {w : Word} (h : s.inv = true) (hw : statusLegal w = true) :
    ({ s with status := w } : State).inv = true := by
  rw [inv_iff] at h ⊢
  obtain ⟨hcfg, hfits, _, hdec⟩ := h
  exact ⟨hcfg, hfits, hw, hdec⟩

theorem inv_status {s : State} (h : s.inv = true) : statusLegal s.status = true := by
  obtain ⟨_, _, hstatus, _⟩ := (inv_iff s).mp h
  exact hstatus

theorem exec_inv {i : Instr} {s t : State} (hinv : s.inv = true) (h : exec i s = .next t) :
    t.inv = true := by
  obtain ⟨_, rfl⟩ | ⟨_, rfl⟩ := exec_cases h
  · exact hinv
  · exact commandBody_inv i _ (inv_of_status hinv (statusLegal_clearWarnings _ (inv_status hinv)))

theorem issue_inv {w : Word} {s t : State} (hinv : s.inv = true) (h : issue w s = .next t) :
    t.inv = true := by
  obtain ⟨i, hi⟩ | hill := issue_cases h
  · exact exec_inv hinv hi
  · obtain ⟨_, rfl⟩ | ⟨_, rfl⟩ := illegalCommand_cases hill
    · exact hinv
    · exact inv_of_status hinv
        (statusLegal_setCode _ _ (statusLegal_clearWarnings _ (inv_status hinv)))

theorem hostAct_inv {a : HostAct} {s t : State} (hinv : s.inv = true)
    (h : hostAct a s = .next t) : t.inv = true := by
  obtain ⟨hcfg, _⟩ := (inv_iff s).mp hinv
  cases a with
  | write r v => cases h; rw [inv_hostWrite]; exact hinv
  | pixIn ps => cases h; exact hinv
  | attachIn bytes d => cases h; exact hinv
  | attachOut d => cases h; exact hinv
  | issue w => exact issue_inv hinv h
  | issueReset w n => obtain ⟨_, rfl⟩ := issueReset_cases h; exact inv_hostReset s hcfg
  | overlap first second => cases h
  | reset => cases h; exact inv_hostReset s hcfg

/-- Settles O51: the idle step, every command and every other action of the host keep the invariant. -/
theorem stepKeepsInvariant : Obligations.StepKeepsInvariant := by
  unfold Obligations.StepKeepsInvariant
  intro s t hinv h
  obtain ⟨_, rfl⟩ | ⟨a, rest, _, ha⟩ := step_cases h
  · exact hinv
  · exact hostAct_inv (s := { s with script := rest }) hinv ha

end Sys2Proof.Machine
end

