-- ==== Sys2Proof/Proofs/LoadPhase.lean ====
section
/-! PROOFS. LOAD's phase and the number of bytes it has gathered are functions of the bytes consumed
(`10_state.md` R50, `20_memory.md` R73). The layout of a frame says what one more byte does to the phase and the offset;
one byte of LOAD does the same to the decoder. -/

namespace Sys2Proof.Machine

open Sys2Proof

/-! ## The layout of a frame -/

/-- The phase after the field or token of a phase is complete (R181 to R190). -/
def nextPhase : Phase → Phase
  | .sig => .ver
  | .ver => .wid
  | .wid => .hgt
  | .hgt => .body
  | .body => .body

/-- The offset of the first byte of a phase (R92). -/
def fieldStart (c : Config) : Phase → Nat
  | .sig => 0
  | .ver => c.sigLen
  | .wid => c.sigLen + 4
  | .hgt => c.sigLen + 8
  | .body => c.sigLen + 12

/-- Byte `k` of a phase exists: the pixel stream has no last byte, a field has its length. -/
def InField (c : Config) (ph : Phase) (k : Nat) : Prop := ph = .body ∨ k < need c ph

theorem exists_inField (c : Config) (pos : Nat) :
    ∃ ph k, pos = fieldStart c ph + k ∧ InField c ph k := by
  by_cases hsig : pos < c.sigLen
  · exact ⟨.sig, pos, (Nat.zero_add pos).symm, .inr hsig⟩
  by_cases hver : pos < c.sigLen + 4
  · exact ⟨.ver, pos - c.sigLen, by simp only [fieldStart]; omega,
      .inr (by simp only [need]; omega)⟩
  by_cases hwid : pos < c.sigLen + 8
  · exact ⟨.wid, pos - (c.sigLen + 4), by simp only [fieldStart]; omega,
      .inr (by simp only [need]; omega)⟩
  by_cases hhgt : pos < c.sigLen + 12
  · exact ⟨.hgt, pos - (c.sigLen + 8), by simp only [fieldStart]; omega,
      .inr (by simp only [need]; omega)⟩
  · exact ⟨.body, pos - (c.sigLen + 12), by simp only [fieldStart]; omega, .inl rfl⟩

theorem phaseAt_fieldStart_add (c : Config) (ph : Phase) (k : Nat) (hk : InField c ph k) :
    phaseAt c (fieldStart c ph + k) = ph := by
  cases ph with
  | sig =>
    have hstart : fieldStart c .sig = 0 := rfl
    have hlt : k < c.sigLen := hk.resolve_left (by decide)
    rw [phaseAt, if_pos (by omega)]
  | ver =>
    have hstart : fieldStart c .ver = c.sigLen := rfl
    have hlt : k < 4 := hk.resolve_left (by decide)
    rw [phaseAt, if_neg (by omega), if_pos (by omega)]
  | wid =>
    have hstart : fieldStart c .wid = c.sigLen + 4 := rfl
    have hlt : k < 4 := hk.resolve_left (by decide)
    rw [phaseAt, if_neg (by omega), if_neg (by omega), if_pos (by omega)]
  | hgt =>
    have hstart : fieldStart c .hgt = c.sigLen + 8 := rfl
    have hlt : k < 4 := hk.resolve_left (by decide)
    rw [phaseAt, if_neg (by omega), if_neg (by omega), if_neg (by omega), if_pos (by omega)]
  | body =>
    have hstart : fieldStart c .body = c.sigLen + 12 := rfl
    rw [phaseAt, if_neg (by omega), if_neg (by omega), if_neg (by omega), if_neg (by omega)]

theorem offsetInField_fieldStart_add (c : Config) (ph : Phase) (k : Nat) (hk : InField c ph k) :
    offsetInField c (fieldStart c ph + k) = if ph = .body then k % c.tokenLen else k := by
  rw [offsetInField, phaseAt_fieldStart_add c ph k hk]
  cases ph <;> simp [fieldStart]

theorem fieldStart_nextPhase (c : Config) (ph : Phase) (h : ph ≠ .body) :
    fieldStart c (nextPhase ph) = fieldStart c ph + need c ph := by
  cases ph with
  | sig => exact (Nat.zero_add _).symm
  | ver | wid | hgt => rfl
  | body => exact absurd rfl h

theorem inField_nextPhase_zero (c : Config) (ph : Phase) : InField c (nextPhase ph) 0 := by
  cases ph with
  | sig | ver | wid => exact .inr (by decide : 0 < 4)
  | hgt | body => exact .inl rfl

/-- The token grid: one more byte either completes a token or does not. -/
theorem succ_mod_eq_ite (k t : Nat) (ht : 1 ≤ t) :
    (k + 1) % t = if k % t + 1 = t then 0 else k % t + 1 := by
  have hlt : k % t < t := Nat.mod_lt k ht
  rw [← Nat.mod_add_mod]
  split
  · next h => rw [h, Nat.mod_self]
  · exact Nat.mod_eq_of_lt (by omega)

/-- One more byte completes the field or token, and the next one begins, or it is one more of the same (R50, R73). -/
theorem phaseAt_offsetInField_succ (c : Config) (pos : Nat) (ht : 1 ≤ c.tokenLen) :
    phaseAt c (pos + 1) =
        (if offsetInField c pos + 1 = need c (phaseAt c pos) then nextPhase (phaseAt c pos)
          else phaseAt c pos) ∧
      offsetInField c (pos + 1) =
        (if offsetInField c pos + 1 = need c (phaseAt c pos) then 0
          else offsetInField c pos + 1) := by
  obtain ⟨ph, k, rfl, hk⟩ := exists_inField c pos
  rw [phaseAt_fieldStart_add c ph k hk, offsetInField_fieldStart_add c ph k hk, Nat.add_assoc]
  by_cases hbody : ph = .body
  · subst hbody
    have hk' : InField c .body (k + 1) := .inl rfl
    rw [phaseAt_fieldStart_add c _ _ hk', offsetInField_fieldStart_add c _ _ hk']
    simp [nextPhase, need, succ_mod_eq_ite k _ ht]
  · rw [if_neg hbody]
    by_cases hlast : k + 1 = need c ph
    · have hzero := inField_nextPhase_zero c ph
      rw [if_pos hlast, if_pos hlast, hlast, ← fieldStart_nextPhase c ph hbody,
        ← Nat.add_zero (fieldStart c (nextPhase ph)), phaseAt_fieldStart_add c _ _ hzero,
        offsetInField_fieldStart_add c _ _ hzero]
      simp
    · have hk' : InField c ph (k + 1) := by
        obtain h | h := hk
        · exact absurd h hbody
        · exact .inr (by omega)
      rw [if_neg hlast, if_neg hlast, phaseAt_fieldStart_add c _ _ hk',
        offsetInField_fieldStart_add c _ _ hk', if_neg hbody]
      exact ⟨rfl, rfl⟩

/-! ## One byte of LOAD -/

/-- The decoder after a field or token is complete: it begins the next one, and consumed no byte of its own. -/
def BeginsNext (s t : State) : Prop :=
  t.dec.phase = nextPhase s.dec.phase ∧ t.dec.acc = [] ∧ t.dec.pos = s.dec.pos

theorem nextPhase_of_body {ph : Phase} (h : ph = .body) : nextPhase ph = ph := by rw [h]; rfl

theorem emitChannels_beginsNext {ch : List Byte} {s t : State} (hphase : s.dec.phase = .body)
    (h : emitChannels ch s = .more t) : BeginsNext s t := by
  unfold emitChannels at h
  split at h
  · next r g b =>
    obtain ⟨_, e⟩ | ⟨_, e⟩ := pixAppend_cases ⟨r, g, b⟩ s <;> rw [e] at h <;> cases h
    exact ⟨(nextPhase_of_body hphase).symm, rfl, rfl⟩
  · cases h
    exact ⟨(nextPhase_of_body hphase).symm, rfl, rfl⟩

theorem completeBody_beginsNext {tok : List Byte} {s t : State} (hphase : s.dec.phase = .body)
    (h : completeBody tok s = .more t) : BeginsNext s t := by
  unfold completeBody at h
  split at h
  · split at h
    · exact emitChannels_beginsNext hphase h
    · cases h
  · cases h
    exact ⟨(nextPhase_of_body hphase).symm, rfl, rfl⟩

theorem completeField_beginsNext {acc : List Byte} {s t : State}
    (h : completeField acc s = .more t) : BeginsNext s t := by
  cases hphase : s.dec.phase <;> simp only [completeField, hphase] at h
  case sig =>
    unfold completeSig at h
    split at h <;> cases h
    exact ⟨by rw [hphase]; rfl, rfl, rfl⟩
  case ver => cases h; exact ⟨by rw [hphase]; rfl, rfl, rfl⟩
  case wid => cases h; exact ⟨by rw [hphase]; rfl, rfl, rfl⟩
  case hgt => cases h; exact ⟨by rw [hphase]; rfl, rfl, rfl⟩
  case body => exact completeBody_beginsNext hphase h

/-- A byte after which LOAD goes on completes the field or token, or is gathered (R177). -/
theorem loadByte_more {b : Byte} {s t : State} (h : loadByte b s = .more t) :
    t.dec.pos = s.dec.pos ∧
      t.dec.phase =
        (if s.dec.acc.length + 1 = need s.cfg s.dec.phase then nextPhase s.dec.phase
          else s.dec.phase) ∧
      t.dec.acc.length =
        (if s.dec.acc.length + 1 = need s.cfg s.dec.phase then 0 else s.dec.acc.length + 1) := by
  rw [loadByte, List.length_append, List.length_singleton] at h
  split at h
  · next hdone =>
    obtain ⟨hphase, hacc, hpos⟩ := completeField_beginsNext h
    rw [if_pos hdone, if_pos hdone, hacc]
    exact ⟨hpos, hphase, rfl⟩
  · next hmore =>
    cases h
    rw [if_neg hmore, if_neg hmore]
    exact ⟨rfl, rfl, List.length_append⟩

theorem tokenLen_pos_of_wf {c : Config} (h : c.wf = true) : 1 ≤ c.tokenLen := by
  simp only [Config.wf, Config.tokenWidthOk, Bool.and_eq_true, decide_eq_true_eq] at h
  obtain ⟨⟨⟨_, hterm, _⟩, _⟩, _⟩ := h
  exact hterm

/-- Settles O35: the decoder and the layout take the same step on one more byte. -/
theorem phaseFollowsOffset : Obligations.PhaseFollowsOffset := by
  unfold Obligations.PhaseFollowsOffset
  intro s t b rest hwf hphase hacc h
  obtain ⟨hpos, htphase, htacc⟩ := loadByte_more h
  have hconsumed : (consume rest s).dec.phase = phaseAt s.cfg s.dec.pos := hphase
  have hgathered : (consume rest s).dec.acc.length = offsetInField s.cfg s.dec.pos := hacc
  obtain ⟨hlayout, hoffset⟩ := phaseAt_offsetInField_succ s.cfg s.dec.pos (tokenLen_pos_of_wf hwf)
  have hnext : t.dec.pos = s.dec.pos + 1 := hpos
  rw [hconsumed, hgathered] at htphase htacc
  rw [hnext, hlayout, hoffset]
  exact ⟨rfl, htphase, htacc⟩

end Sys2Proof.Machine
end

