-- ==== Sys2Proof/Proofs/MemoryCommands.lean ====
section
/-! PROOFS. Two rules of `20_memory.md` about a command and the one after it: a mutator issued again changes nothing
(R77), and a command that reads a stream leaves nothing of it (R65). -/

namespace Sys2Proof.Machine

open Sys2Proof

/-! ## A command on a running block (R130) -/

theorem exec_of_running {i : Instr} {s : State} (h : s.faulted = false) :
    exec i s = .next (commandBody i (startCommand s)) := by
  rw [exec_eq_runCommand, runCommand_of_running _ s h]

theorem eq_commandBody_of_running {i : Instr} {s t : State} (hrun : s.faulted = false)
    (h : exec i s = .next t) : t = commandBody i (startCommand s) := by
  rw [exec_of_running hrun] at h
  exact (Host.Outcome.next.inj h).symm

/-! ## What a reader leaves (R48, R65) -/

/-- Settles O43: both readers end in `closeInput`. -/
theorem readersLeaveNoInput : Obligations.ReadersLeaveNoInput := by
  unfold Obligations.ReadersLeaveNoInput
  intro i s t hi hrun h
  obtain rfl := eq_commandBody_of_running hrun h
  obtain rfl | rfl := hi
  · exact ⟨closeInput_input _, closeInput_dec _, closeInput_inDraws _⟩
  · exact ⟨closeInput_input _, closeInput_dec _, closeInput_inDraws _⟩

/-! ## STATUS written twice -/

/-- The STATUS of a command that warned of nothing is what the next such command writes again. -/
theorem setCode_clearWarnings_idem (c : ResultCode) (w : Word) :
    setCode (clearWarnings (setCode (clearWarnings w) c)) c = setCode (clearWarnings w) c := by
  refine BitVec.eq_of_getLsbD_eq fun i hi => ?_
  simp only [setCode_getLsbD _ _ _ hi, clearWarnings_getLsbD _ _ hi]
  split_ifs <;> rfl

theorem finish_startCommand_of_status {c : ResultCode} {w : Word} {t : State}
    (h : t.status = setCode (clearWarnings w) c) : finish c (startCommand t) = t := by
  have hstatus : setCode (clearWarnings t.status) c = t.status := by
    rw [h, setCode_clearWarnings_idem]
  calc finish c (startCommand t)
      = { t with status := setCode (clearWarnings t.status) c } := rfl
    _ = t := by rw [hstatus]

theorem raiseFault_faulted (c : Cause) (s : State) : (raiseFault c s).faulted = true :=
  statusFault_setFault s.status c

/-! ## The pixel writes -/

/-- Writing into a slot the pixel it holds neither grows nor changes the buffer (R63). -/
theorem grownWrite_of_getElem?_eq {buf : List Pixel} {k : Nat} {p : Pixel} (d : Pixel)
    (h : buf[k]? = some p) : grownWrite d buf k p = buf := by
  obtain ⟨hk, rfl⟩ := List.getElem?_eq_some_iff.mp h
  rw [grownWrite, Nat.sub_eq_zero_of_le hk, List.replicate_zero, List.append_nil,
    List.set_getElem_self]

theorem grownWrite_getElem?_self (d : Pixel) (buf : List Pixel) (k : Nat) (p : Pixel) :
    (grownWrite d buf k p)[k]? = some p := by
  rw [grownWrite_getElem?, if_pos rfl]

/-- SET_PIXEL ends in Fault(CAPACITY), or writes the grown buffer and ends with OK (R138). -/
theorem setPixelBody_cases (s : State) :
    (s.cfg.maxPixels ≤ pixelIndex s ∧ setPixelBody s = raiseFault .capacity s) ∨
      (pixelIndex s < s.cfg.maxPixels ∧ setPixelBody s = finish .ok
        { s with
          pixbuf := grownWrite s.cfg.defaultPixel s.pixbuf (pixelIndex s) (unpack s.arg2) }) := by
  obtain ⟨hk, e⟩ | ⟨hk, e⟩ := pixWrite_cases (pixelIndex s) (unpack s.arg2) s
  · exact .inl ⟨hk, by rw [setPixelBody, e]; rfl⟩
  · exact .inr ⟨hk, by rw [setPixelBody, e]; rfl⟩

theorem setPixelBody_of_written {s : State} (hk : pixelIndex s < s.cfg.maxPixels)
    (hp : s.pixbuf[pixelIndex s]? = some (unpack s.arg2)) : setPixelBody s = finish .ok s := by
  obtain ⟨hcap, _⟩ | ⟨_, e⟩ := setPixelBody_cases s
  · exact absurd hk (not_lt.mpr hcap)
  · rw [e, grownWrite_of_getElem?_eq _ hp]

theorem setPixelBody_startCommand_of_written {t : State} {w : Word}
    (hk : pixelIndex t < t.cfg.maxPixels) (hp : t.pixbuf[pixelIndex t]? = some (unpack t.arg2))
    (hstatus : t.status = setCode (clearWarnings w) .ok) : setPixelBody (startCommand t) = t :=
  (setPixelBody_of_written (s := startCommand t) hk hp).trans (finish_startCommand_of_status hstatus)

/-- SET_PIXELS ends in Fault(CAPACITY), or replaces the buffer and ends with OK (R137). -/
theorem setPixelsBody_cases (s : State) :
    (s.cfg.maxPixels < s.pixIn.length ∧ setPixelsBody s = raiseFault .capacity s) ∨
      (s.pixIn.length ≤ s.cfg.maxPixels ∧
        setPixelsBody s = finish .ok { s with pixbuf := s.pixIn }) := by
  by_cases h : s.cfg.maxPixels < s.pixIn.length
  · exact .inl ⟨h, if_pos h⟩
  · exact .inr ⟨not_lt.mp h, if_neg h⟩

theorem setPixelsBody_of_stored {s : State} (hlen : s.pixIn.length ≤ s.cfg.maxPixels)
    (h : s.pixbuf = s.pixIn) : setPixelsBody s = finish .ok s := by
  obtain ⟨hcap, _⟩ | ⟨_, e⟩ := setPixelsBody_cases s
  · exact absurd hcap (not_lt.mpr hlen)
  · exact e.trans (congrArg (fun ps => finish .ok { s with pixbuf := ps }) h.symm)

/-! ## A command issued again (R77) -/

/-- What a run of the command gives, a second run gives again, unless the first took a fault. -/
def BodyIdempotent (i : Instr) : Prop :=
  ∀ s : State, (commandBody i (startCommand s)).faulted = false →
    commandBody i (startCommand (commandBody i (startCommand s))) = commandBody i (startCommand s)

/-- A faulted block keeps its state (R265), so a body's idempotence is the command's. -/
theorem BodyIdempotent.exec_again {i : Instr} {s t : State} (hi : BodyIdempotent i)
    (h : exec i s = .next t) : exec i t = .next t := by
  cases ht : t.faulted with
  | true => exact exec_of_faulted i t ht
  | false =>
    obtain ⟨_, rfl⟩ | ⟨_, rfl⟩ := exec_cases h
    · exact h
    · rw [exec_of_running ht, hi s ht]

theorem bodyIdempotent_setWidth : BodyIdempotent .setWidth :=
  fun s _ => finish_startCommand_of_status (c := .ok) (w := s.status)
    (t := commandBody .setWidth (startCommand s)) rfl

theorem bodyIdempotent_setHeight : BodyIdempotent .setHeight :=
  fun s _ => finish_startCommand_of_status (c := .ok) (w := s.status)
    (t := commandBody .setHeight (startCommand s)) rfl

/-- The first write leaves WIDTH and the operands, so the second one finds its slot holding its pixel. -/
theorem bodyIdempotent_setPixel : BodyIdempotent .setPixel := by
  intro s hrun
  simp only [commandBody] at hrun ⊢
  obtain ⟨_, e⟩ | ⟨hk, e⟩ := setPixelBody_cases (startCommand s)
  · rw [e, raiseFault_faulted] at hrun; cases hrun
  · rw [e]
    exact setPixelBody_startCommand_of_written (w := s.status) hk (grownWrite_getElem?_self ..) rfl

/-- SET_PIXELS on a block that has just stored the same sequence: only PIXIN is emptied again. -/
theorem exec_setPixels_of_stored {t : State} {ps : List Pixel} {w : Word} (ht : t.faulted = false)
    (hlen : ps.length ≤ t.cfg.maxPixels) (hbuf : t.pixbuf = ps) (hin : t.pixIn = [])
    (hstatus : t.status = setCode (clearWarnings w) .ok) :
    exec .setPixels { t with pixIn := ps } = .next t := by
  have hrefilled : ({ t with pixIn := ps } : State).faulted = false := ht
  have hbody : setPixelsBody (startCommand { t with pixIn := ps }) = { t with pixIn := ps } :=
    (setPixelsBody_of_stored hlen hbuf).trans (finish_startCommand_of_status hstatus)
  have hcleared : clearPixIn { t with pixIn := ps } = t :=
    calc clearPixIn { t with pixIn := ps }
        = { t with pixIn := [] } := rfl
      _ = t := by rw [← hin]
  rw [exec_of_running hrefilled, commandBody, hbody, hcleared]

/-- SET_PIXELS empties PIXIN, so it is issued again with the sequence put back (log 7). -/
theorem exec_setPixels_again {s t : State} (hs : s.faulted = false) (ht : t.faulted = false)
    (h : exec .setPixels s = .next t) :
    exec .setPixels { t with pixIn := s.pixIn } = .next t := by
  obtain rfl := eq_commandBody_of_running hs h
  simp only [commandBody] at ht ⊢
  obtain ⟨_, e⟩ | ⟨hlen, e⟩ := setPixelsBody_cases (startCommand s)
  · rw [e] at ht
    cases ht.symm.trans (raiseFault_faulted .capacity (startCommand s))
  · rw [e] at ht ⊢
    exact exec_setPixels_of_stored (w := s.status) ht hlen rfl rfl rfl

/-- Settles O15: a faulted block keeps its state, and a second run writes what the first one wrote. -/
theorem mutatorsAreIdempotent : Obligations.MutatorsAreIdempotent := by
  unfold Obligations.MutatorsAreIdempotent
  refine fun s t => ⟨fun i hi h => ?_, fun h => ?_⟩
  · obtain rfl | rfl | rfl := hi
    · exact bodyIdempotent_setWidth.exec_again h
    · exact bodyIdempotent_setHeight.exec_again h
    · exact bodyIdempotent_setPixel.exec_again h
  · cases hs : s.faulted with
    | true =>
      rw [exec_of_faulted .setPixels s hs] at h
      cases h
      rw [Bool.true_or, if_pos rfl]
      exact exec_of_faulted .setPixels _ hs
    | false =>
      cases ht : t.faulted with
      | true =>
        rw [Bool.or_true, if_pos rfl]
        exact exec_of_faulted .setPixels _ ht
      | false => exact exec_setPixels_again hs ht h

end Sys2Proof.Machine
end

