-- ==== Sys2Proof/Proofs/CommandWords.lean ====
section
/-! PROOFS. Command words (`30_encoding.md` R101 to R107). A word is its reserved bits above its operation code, so the
decoder gives a command exactly on that command's own word, and an error exactly where the reserved bits are set or the
opcode map has no row. -/

namespace Sys2Proof.Machine

open Sys2Proof

/-! ## The two fields of a word (R101) -/

theorem rsv_append_opc (w : Word) : (rsv w ++ opc w : BitVec 32) = w :=
  (BitVec.extractLsb'_append_extractLsb'_eq_extractLsb' rfl).trans BitVec.extractLsb'_eq_self

@[simp] theorem rsv_encode (i : Instr) : rsv (encode i) = 0 := BitVec.extractLsb'_append_eq_left

@[simp] theorem opc_encode (i : Instr) : opc (encode i) = opcodeOf i :=
  BitVec.extractLsb'_append_eq_right

theorem encode_of_fields {w : Word} {i : Instr} (hrsv : rsv w = 0) (hopc : opcodeOf i = opc w) :
    encode i = w := by
  calc encode i = (rsv w ++ opc w : BitVec 32) := by rw [hrsv, ← hopc]; rfl
    _ = w := rsv_append_opc w

theorem toNat_opc (w : Word) : (opc w).toNat = w.toNat % 256 := by
  simp [opc, BitVec.extractLsb'_toNat]

theorem rsv_eq_zero_iff (w : Word) : rsv w = 0 ↔ w.toNat / 256 = 0 := by
  have hw : w.toNat < 2 ^ 32 := w.isLt
  rw [← BitVec.toNat_inj, rsv, BitVec.extractLsb'_toNat, Nat.shiftRight_eq_div_pow]
  simp only [BitVec.ofNat_eq_ofNat, BitVec.toNat_zero]
  omega

theorem legalWord_iff (w : Word) :
    legalWord w = true ↔ rsv w = 0 ∧ 1 ≤ (opc w).toNat ∧ (opc w).toNat ≤ 12 := by
  simp only [legalWord, reservedClear, opcodeKnown, Bool.and_eq_true, decide_eq_true_eq,
    rsv_eq_zero_iff, toNat_opc]

/-! ## The opcode map (R104) -/

theorem decodeOpcode_opcodeOf (i : Instr) : decodeOpcode (opcodeOf i) = .ok i := by
  cases i <;> rfl

theorem opcodeOf_of_decodeOpcode {c : Byte} {i : Instr} (h : decodeOpcode c = .ok i) :
    opcodeOf i = c := by
  unfold decodeOpcode at h
  split at h <;> cases h <;> exact BitVec.eq_of_toNat_eq (Eq.symm ‹c.toNat = _›)

/-- The map has a row for each of 0x01 to 0x0C, and none for another opcode (R105). -/
theorem decodeOpcode_cases (c : Byte) :
    (1 ≤ c.toNat ∧ c.toNat ≤ 12 ∧ ∃ i, decodeOpcode c = .ok i) ∨
      ((c.toNat = 0 ∨ 13 ≤ c.toNat) ∧ decodeOpcode c = .error .illegalOpcode) := by
  unfold decodeOpcode
  split
  case h_13 =>
    refine .inr ⟨?_, rfl⟩
    simp only [imp_false] at *
    omega
  all_goals exact .inl ⟨by omega, by omega, _, rfl⟩

theorem decodeOpcode_of_no_row {c : Byte} (h : c.toNat = 0 ∨ 13 ≤ c.toNat) :
    decodeOpcode c = .error .illegalOpcode := by
  obtain ⟨_, _, _⟩ | ⟨_, e⟩ := decodeOpcode_cases c
  · omega
  · exact e

/-! ## The decoder -/

theorem decode_of_rsv_eq_zero {w : Word} (h : rsv w = 0) : decode w = decodeOpcode (opc w) :=
  if_pos h

theorem decode_of_rsv_ne_zero {w : Word} (h : rsv w ≠ 0) : decode w = .error .reservedBits :=
  if_neg h

@[simp] theorem decode_encode (i : Instr) : decode (encode i) = .ok i := by
  rw [decode_of_rsv_eq_zero (rsv_encode i), opc_encode, decodeOpcode_opcodeOf]

/-- The word of a command is the only word that decodes to it. -/
theorem encode_of_decode {w : Word} {i : Instr} (h : decode w = .ok i) : encode i = w := by
  by_cases hrsv : rsv w = 0
  · rw [decode_of_rsv_eq_zero hrsv] at h
    exact encode_of_fields hrsv (opcodeOf_of_decodeOpcode h)
  · rw [decode_of_rsv_ne_zero hrsv] at h
    cases h

/-- A word decodes to a command or to an error, and `legalWord` says which (R107). -/
theorem decode_cases (w : Word) :
    (legalWord w = true ∧ ∃ i, decode w = .ok i) ∨
      (legalWord w = false ∧ ∃ e, decode w = .error e) := by
  rw [← Bool.not_eq_true, legalWord_iff]
  by_cases hrsv : rsv w = 0
  · rw [decode_of_rsv_eq_zero hrsv]
    obtain ⟨hlo, hhi, hi⟩ | ⟨hno, e⟩ := decodeOpcode_cases (opc w)
    · exact .inl ⟨⟨hrsv, hlo, hhi⟩, hi⟩
    · exact .inr ⟨by omega, _, e⟩
  · exact .inr ⟨fun ⟨h, _⟩ => hrsv h, _, decode_of_rsv_ne_zero hrsv⟩

theorem decode_ok_of_legalWord {w : Word} (h : legalWord w = true) : ∃ i, decode w = .ok i := by
  obtain ⟨_, hi⟩ | ⟨hno, _⟩ := decode_cases w
  · exact hi
  · rw [h] at hno; cases hno

theorem decode_error_of_not_legalWord {w : Word} (h : legalWord w = false) :
    ∃ e, decode w = .error e := by
  obtain ⟨hyes, _⟩ | ⟨_, he⟩ := decode_cases w
  · rw [h] at hyes; cases hyes
  · exact he

/-- Settles O1: the reserved bits of a command's word are 0 and its operation code is in the map. -/
theorem decodeOfEncode : Obligations.DecodeOfEncode := by
  unfold Obligations.DecodeOfEncode
  exact fun i _ => decode_encode i

/-- Settles O2: `legalWord` decides between the two outcomes of the decoder. -/
theorem everyWordLegalOrIllegal : Obligations.EveryWordLegalOrIllegal := by
  unfold Obligations.EveryWordLegalOrIllegal
  refine fun w => ⟨fun h => ?_, decode_error_of_not_legalWord⟩
  obtain ⟨i, hi⟩ := decode_ok_of_legalWord h
  exact ⟨i, hi, encode_of_decode hi⟩

/-- A word that is an operation code alone, with no row in the map. -/
theorem decode_ofNat_of_no_row {c : Nat} (hlt : c < 256) (h : c = 0 ∨ 13 ≤ c) :
    decode (BitVec.ofNat 32 c) = .error .illegalOpcode := by
  have hnat : (BitVec.ofNat 32 c).toNat = c := by
    rw [BitVec.toNat_ofNat, Nat.mod_eq_of_lt (by omega)]
  have hrsv : rsv (BitVec.ofNat 32 c) = 0 := by rw [rsv_eq_zero_iff, hnat]; omega
  rw [decode_of_rsv_eq_zero hrsv]
  exact decodeOpcode_of_no_row (by rw [toNat_opc, hnat]; omega)

/-- Settles O3: the twelve rows are the commands' own words, and every other opcode has no row. -/
theorem opcodeMapWrittenOut : Obligations.OpcodeMapWrittenOut := by
  unfold Obligations.OpcodeMapWrittenOut
  exact ⟨decode_encode .getWidth, decode_encode .getHeight, decode_encode .getPixel,
    decode_encode .getPixels, decode_encode .setWidth, decode_encode .setHeight,
    decode_encode .setPixel, decode_encode .setPixels, decode_encode .save, decode_encode .load,
    decode_encode .encChannel, decode_encode .decChannel,
    decode_ofNat_of_no_row (by omega) (.inl rfl),
    fun _ hlo hhi => decode_ofNat_of_no_row (by omega) (.inr hlo)⟩

/-! ## A word issued (R102, R105) -/

theorem issue_of_decode_ok {w : Word} {i : Instr} (h : decode w = .ok i) (s : State) :
    issue w s = exec i s := by
  simp only [issue, h]

theorem issue_of_decode_error {w : Word} {e : DecodeError} (h : decode w = .error e) (s : State) :
    issue w s = illegalCommand s := by
  simp only [issue, h]

@[simp] theorem issue_encode (i : Instr) (s : State) : issue (encode i) s = exec i s :=
  issue_of_decode_ok (decode_encode i) s

theorem step_issue {s : State} {w : Word} {rest : List HostAct} (h : s.script = .issue w :: rest) :
    step s = issue w { s with script := rest } :=
  step_action s _ rest h

/-- A command word is its own 32 bits in the opcode table. -/
theorem tableWord_toNat (w : Word) : tableWord 32 w.toNat = w := by
  rw [tableWord, Nat.mod_eq_of_lt w.isLt, BitVec.ofNat_toNat, BitVec.setWidth_eq]

/-- Settles O44: the step issues the word, and the word's command runs. -/
theorem stepRunsIssuedCommand : Obligations.StepRunsIssuedCommand := by
  unfold Obligations.StepRunsIssuedCommand
  constructor
  · intro s w rest i hs hw _
    rw [step_issue hs, issue_of_decode_ok hw]
  · intro s w i hw
    have hscript : (s.withFetchWord 32 w.toNat).script = .issue w :: s.script := by
      rw [State.withFetchWord, tableWord_toNat]
    rw [step_issue hscript, issue_of_decode_ok hw]
    rfl

theorem illegalCommand_of_running {s : State} (h : s.faulted = false) :
    illegalCommand s =
      .next { s with status := setCode (clearWarnings s.status) .illegalCmd } :=
  runCommand_of_running _ s h

/-- R105 and R106 in the fields of a word: an opcode with no row, or reserved bits. -/
theorem not_legalWord_of_fields {w : Word}
    (h : (opc w = 0 ∨ 13 ≤ (opc w).toNat) ∨ rsv w ≠ 0) : legalWord w = false := by
  rw [← Bool.not_eq_true, legalWord_iff]
  rintro ⟨hrsv, hlo, hhi⟩
  obtain (hzero | hhigh) | hne := h
  · rw [hzero] at hlo; cases hlo
  · omega
  · exact hne hrsv

/-- Settles O4: the word is not legal, so the step is `finish(ILLEGAL_CMD)` after the dispatch. -/
theorem illegalWordChangesOnlyStatus : Obligations.IllegalWordChangesOnlyStatus := by
  unfold Obligations.IllegalWordChangesOnlyStatus
  intro s w rest hrun hs hfields
  obtain ⟨e, he⟩ := decode_error_of_not_legalWord (not_legalWord_of_fields hfields)
  refine ⟨_, statusAfter_finish .illegalCmd s.status, ?_⟩
  have hrest : ({ s with script := rest } : State).faulted = false := hrun
  rw [step_issue hs, issue_of_decode_error he, illegalCommand_of_running hrest]

end Sys2Proof.Machine
end

