-- ==== Sys2Proof/Proofs/PixelForms.lean ====
section
/-! PROOFS. The two forms of a pixel: packed into a word (`30_encoding.md` R103), and as bytes of a frame, whose lengths
add up to the length of the frame (R99, `42_channel_codec.md` R221). -/

namespace Sys2Proof.Machine

open Sys2Proof

/-! ## Packed pixels (R103) -/

/-- Every bit of a packed pixel; bits 31:24 are past the blue channel's own eight. -/
theorem pack_getLsbD (p : Pixel) (i : Nat) (hi : i < 32) :
    (pack p).getLsbD i =
      if i < 8 then p.r.getLsbD i
      else if i < 16 then p.g.getLsbD (i - 8)
      else p.b.getLsbD (i - 16) := by
  simp only [pack, BitVec.getLsbD_or, BitVec.getLsbD_shiftLeft, BitVec.getLsbD_setWidth, hi,
    decide_true, Bool.true_and]
  by_cases h8 : i < 8
  · simp [h8, show i < 16 by omega]
  · have hr : p.r.getLsbD i = false := BitVec.getLsbD_of_ge _ _ (by omega)
    by_cases h16 : i < 16
    · simp [h8, h16, hr, show i - 8 < 32 by omega]
    · have hg : p.g.getLsbD (i - 8) = false := BitVec.getLsbD_of_ge _ _ (by omega)
      simp [h8, h16, hr, hg, show i - 16 < 32 by omega]

theorem pack_getLsbD_red (p : Pixel) {i : Nat} (hi : i < 8) :
    (pack p).getLsbD i = p.r.getLsbD i := by
  rw [pack_getLsbD p i (by omega), if_pos hi]

theorem pack_getLsbD_green (p : Pixel) {i : Nat} (hi : i < 8) :
    (pack p).getLsbD (8 + i) = p.g.getLsbD i := by
  rw [pack_getLsbD p _ (by omega), if_neg (by omega), if_pos (by omega), Nat.add_sub_cancel_left]

theorem pack_getLsbD_blue (p : Pixel) {i : Nat} (hi : i < 8) :
    (pack p).getLsbD (16 + i) = p.b.getLsbD i := by
  rw [pack_getLsbD p _ (by omega), if_neg (by omega), if_neg (by omega), Nat.add_sub_cancel_left]

theorem pack_getLsbD_high (p : Pixel) {i : Nat} (hi : i < 8) :
    (pack p).getLsbD (24 + i) = false := by
  rw [pack_getLsbD p _ (by omega), if_neg (by omega), if_neg (by omega)]
  exact BitVec.getLsbD_of_ge _ _ (by omega)

theorem unpack_getLsbD_red (w : Word) {i : Nat} (hi : i < 8) :
    (unpack w).r.getLsbD i = w.getLsbD i := by
  simp [unpack, hi]

theorem unpack_getLsbD_green (w : Word) {i : Nat} (hi : i < 8) :
    (unpack w).g.getLsbD i = w.getLsbD (8 + i) := by
  simp [unpack, hi]

theorem unpack_getLsbD_blue (w : Word) {i : Nat} (hi : i < 8) :
    (unpack w).b.getLsbD i = w.getLsbD (16 + i) := by
  simp [unpack, hi]

/-- Unpacking takes each channel back from the bits where packing put it. -/
@[simp] theorem unpack_pack (p : Pixel) : unpack (pack p) = p := by
  have hr : (unpack (pack p)).r = p.r := BitVec.eq_of_getLsbD_eq fun _ hi =>
    (unpack_getLsbD_red _ hi).trans (pack_getLsbD_red p hi)
  have hg : (unpack (pack p)).g = p.g := BitVec.eq_of_getLsbD_eq fun _ hi =>
    (unpack_getLsbD_green _ hi).trans (pack_getLsbD_green p hi)
  have hb : (unpack (pack p)).b = p.b := BitVec.eq_of_getLsbD_eq fun _ hi =>
    (unpack_getLsbD_blue _ hi).trans (pack_getLsbD_blue p hi)
  calc unpack (pack p)
      = ⟨(unpack (pack p)).r, (unpack (pack p)).g, (unpack (pack p)).b⟩ := rfl
    _ = p := by rw [hr, hg, hb]

/-- Settles O13: the three channels stand at bits 0, 8 and 16, and nothing above them. -/
theorem pixelPackingBits : Obligations.PixelPackingBits := by
  unfold Obligations.PixelPackingBits
  refine ⟨fun p i hi => ?_, fun w i hi => ?_, unpack_pack⟩
  · exact ⟨pack_getLsbD_red p hi, pack_getLsbD_green p hi, pack_getLsbD_blue p hi,
      pack_getLsbD_high p hi⟩
  · exact ⟨unpack_getLsbD_red w hi, unpack_getLsbD_green w hi, unpack_getLsbD_blue w hi⟩

/-! ## The length of a frame (R99) -/

/-- R11: both tokens of a legal configuration are `T` bytes. -/
theorem length_unit_of_wf {c : Config} (h : c.wf = true) : c.unit.length = c.tokenLen := by
  simp only [Config.wf, Config.tokenWidthOk, Bool.and_eq_true, decide_eq_true_eq] at h
  obtain ⟨⟨⟨_, _, hunit⟩, _⟩, _⟩ := h
  exact hunit

/-- A channel value takes one unit token per step and a terminator (R221). -/
theorem length_chanEnc {c : Config} (h : c.unit.length = c.tokenLen) (v : Byte) :
    (chanEnc c v).length = (v.toNat + 1) * c.tokenLen := by
  simp only [chanEnc, List.length_append, List.length_flatten, List.map_replicate,
    List.sum_replicate, smul_eq_mul, h]
  rw [Nat.add_mul, Nat.one_mul, Config.tokenLen]

theorem length_pixelEnc {c : Config} (h : c.unit.length = c.tokenLen) (p : Pixel) :
    (pixelEnc c p).length = c.tokenLen * (p.r.toNat + p.g.toNat + p.b.toNat + 3) := by
  simp only [pixelEnc, List.length_append, length_chanEnc h]
  ring

theorem length_pixelStream {c : Config} (h : c.unit.length = c.tokenLen) (ps : List Pixel) :
    (pixelStream c ps).length =
      c.tokenLen * (ps.map fun p => p.r.toNat + p.g.toNat + p.b.toNat + 3).sum := by
  induction ps with
  | nil => rfl
  | cons p ps ih =>
    rw [pixelStream, List.map_cons, List.flatten_cons, List.length_append, length_pixelEnc h,
      ← pixelStream, ih, ← Nat.mul_add, List.map_cons, List.sum_cons]

/-- The signature and three 32-bit fields (R90). -/
theorem length_frameHeader (s : State) : (frameHeader s).length = s.cfg.sigLen + 12 := by
  simp only [frameHeader, List.length_append, length_le32, Config.sigLen]

/-- Settles O27: the header, and per pixel the tokens of its three channels. -/
theorem frameLength : Obligations.FrameLength := by
  unfold Obligations.FrameLength
  intro s hwf
  rw [encodeFrame, List.length_append, length_frameHeader,
    length_pixelStream (length_unit_of_wf hwf)]

end Sys2Proof.Machine
end

