-- ==== Sys2Proof/Proofs/AssemblerLines.lean ====
section
/-! PROOFS. Assembly lines as runs (`30_encoding.md` R109, R110): each action of a line's expansion is one step, so a line
is run action by action, and NEWIMAGE and SETDIM are put together from the runs of the lines they stand for. -/

namespace Sys2Proof.Machine

open Sys2Proof

/-! ## Running a list of actions -/

/-- One step of a run takes the host's first action. -/
theorem runSteps_cons {a : HostAct} {rest : List HostAct} {s t : State} (k : Nat)
    (h : hostAct a { s with script := rest } = .next t) :
    runSteps (k + 1) { s with script := a :: rest } = runSteps k t := by
  have hstep : step { s with script := a :: rest } = .next t := (step_action _ a rest rfl).trans h
  rw [runSteps, hstep]

theorem hostWrite_script (r : HostReg) (v : Word) (s : State) (rest : List HostAct) :
    hostWrite r v { s with script := rest } = { hostWrite r v s with script := rest } := by
  cases r <;> rfl

theorem runSteps_write (k : Nat) (r : HostReg) (v : Word) (rest : List HostAct) (s : State) :
    runSteps (k + 1) { s with script := .write r v :: rest } =
      runSteps k { hostWrite r v s with script := rest } :=
  runSteps_cons k (congrArg Host.Outcome.next (hostWrite_script r v s rest))

theorem runSteps_pixIn (k : Nat) (ps : List Pixel) (rest : List HostAct) (s : State) :
    runSteps (k + 1) { s with script := .pixIn ps :: rest } =
      runSteps k { s with pixIn := ps, script := rest } :=
  runSteps_cons k rfl

/-- Issuing a command's own word to a running block runs its body (R102, R130). -/
theorem runSteps_issue_encode (k : Nat) (i : Instr) (rest : List HostAct) {s : State}
    (h : s.faulted = false) :
    runSteps (k + 1) { s with script := .issue (encode i) :: rest } =
      runSteps k (commandBody i (startCommand { s with script := rest })) := by
  have hrest : ({ s with script := rest } : State).faulted = false := h
  exact runSteps_cons k ((issue_encode i _).trans (exec_of_running hrest))

/-! ## The lines of which NEWIMAGE and SETDIM are made (R110) -/

theorem startCommand_faulted (s : State) : (startCommand s).faulted = s.faulted :=
  statusFault_clearWarnings s.status

theorem finish_faulted (c : ResultCode) (s : State) : (finish c s).faulted = s.faulted :=
  statusFault_setCode s.status c

/-- What `SET_WIDTH w` leaves (R109, R135). -/
def widthSet (w : Nat) (s : State) : State :=
  finish .ok { startCommand s with arg0 := BitVec.ofNat 32 w, width := BitVec.ofNat 32 w }

/-- What `SET_HEIGHT h` leaves (R109, R136). -/
def heightSet (h : Nat) (s : State) : State :=
  finish .ok { startCommand s with arg0 := BitVec.ofNat 32 h, height := BitVec.ofNat 32 h }

/-- What `SET_PIXELS []` leaves (R109, R137). -/
def pixelsEmptied (s : State) : State :=
  finish .ok { startCommand s with pixIn := [], pixbuf := [] }

theorem widthSet_faulted (w : Nat) (s : State) : (widthSet w s).faulted = s.faulted :=
  (finish_faulted _ _).trans (startCommand_faulted s)

theorem heightSet_faulted (h : Nat) (s : State) : (heightSet h s).faulted = s.faulted :=
  (finish_faulted _ _).trans (startCommand_faulted s)

theorem pixelsEmptied_faulted (s : State) : (pixelsEmptied s).faulted = s.faulted :=
  (finish_faulted _ _).trans (startCommand_faulted s)

theorem runSteps_asmSetWidth (k w : Nat) (rest : List HostAct) {s : State}
    (hrun : s.faulted = false) :
    runSteps (k + 2) { s with script := asmSetWidth w ++ rest } =
      runSteps k { widthSet w s with script := rest } := by
  have hwritten : (hostWrite .arg0 (BitVec.ofNat 32 w) s).faulted = false := hrun
  exact (runSteps_write (k + 1) .arg0 _ _ s).trans (runSteps_issue_encode k .setWidth rest hwritten)

theorem runSteps_asmSetHeight (k h : Nat) (rest : List HostAct) {s : State}
    (hrun : s.faulted = false) :
    runSteps (k + 2) { s with script := asmSetHeight h ++ rest } =
      runSteps k { heightSet h s with script := rest } := by
  have hwritten : (hostWrite .arg0 (BitVec.ofNat 32 h) s).faulted = false := hrun
  exact (runSteps_write (k + 1) .arg0 _ _ s).trans (runSteps_issue_encode k .setHeight rest hwritten)

/-- The empty sequence fits every PIXBUF. -/
theorem setPixelsBody_nil {s : State} (h : s.pixIn = []) :
    setPixelsBody s = finish .ok { s with pixbuf := [] } := by
  obtain ⟨hcap, _⟩ | ⟨_, e⟩ := setPixelsBody_cases s
  · rw [h] at hcap; cases hcap
  · rw [e, h]

theorem runSteps_asmSetPixels_nil (k : Nat) (rest : List HostAct) {s : State}
    (hrun : s.faulted = false) :
    runSteps (k + 2) { s with script := .pixIn [] :: .issue (encode .setPixels) :: rest } =
      runSteps k { pixelsEmptied s with script := rest } := by
  have hfilled : ({ s with pixIn := [] } : State).faulted = false := hrun
  have hissue := runSteps_issue_encode k .setPixels rest hfilled
  rw [commandBody, setPixelsBody_nil rfl] at hissue
  exact (runSteps_pixIn (k + 1) [] _ s).trans hissue

/-- `SETDIM w, h`, with `rest` to come. -/
theorem runSteps_dimensions (k w h : Nat) (rest : List HostAct) {s : State}
    (hrun : s.faulted = false) :
    runSteps (k + 4) { s with script := asmSetWidth w ++ (asmSetHeight h ++ rest) } =
      runSteps k { heightSet h (widthSet w s) with script := rest } :=
  (runSteps_asmSetWidth (k + 2) w _ hrun).trans
    (runSteps_asmSetHeight k h rest ((widthSet_faulted w s).trans hrun))

theorem toNat_ofNat_of_wordOperandOk {n : Nat} (h : wordOperandOk n = true) :
    (BitVec.ofNat 32 n).toNat = n := by
  rw [BitVec.toNat_ofNat, Nat.mod_eq_of_lt (of_decide_eq_true h)]

theorem toNat_ofNat_of_channelOperandOk {n : Nat} (h : channelOperandOk n = true) :
    (BitVec.ofNat 8 n).toNat = n := by
  rw [BitVec.toNat_ofNat, Nat.mod_eq_of_lt (of_decide_eq_true h)]

/-- Settles O53: NEWIMAGE is SETDIM's two lines and then `SET_PIXELS []`. -/
theorem pseudoInstructionsSetDimensions : Obligations.PseudoInstructionsSetDimensions := by
  unfold Obligations.PseudoInstructionsSetDimensions
  intro s d w h hrun hok
  obtain ⟨hw, hh⟩ : wordOperandOk w = true ∧ wordOperandOk h = true := by
    simpa only [asmLineOk, Bool.and_eq_true] using hok
  have hdims : (heightSet h (widthSet w s)).faulted = false := by
    rw [heightSet_faulted, widthSet_faulted, hrun]
  have hwidth := toNat_ofNat_of_wordOperandOk hw
  have hheight := toNat_ofNat_of_wordOperandOk hh
  constructor
  · rw [asmExpand, List.append_assoc]
    exact ⟨_, (runSteps_dimensions 2 w h _ hrun).trans (runSteps_asmSetPixels_nil 0 [] hdims),
      hwidth, hheight, rfl, (pixelsEmptied_faulted _).trans hdims⟩
  · rw [asmExpand, ← List.append_nil (asmSetHeight h)]
    exact ⟨_, runSteps_dimensions 0 w h [] hrun, hwidth, hheight, rfl, hdims⟩

/-! ## The line SET_PIXEL (R109, R138) -/

/-- A SET_PIXEL within the capacity leaves the pixel of ARG2 in the slot that ARG0 and ARG1 name. -/
theorem setPixelBody_getElem? {s : State} (hk : pixelIndex s < s.cfg.maxPixels) :
    (setPixelBody s).pixbuf[pixelIndex s]? = some (unpack s.arg2) := by
  obtain ⟨hcap, _⟩ | ⟨_, e⟩ := setPixelBody_cases s
  · exact absurd hk (not_lt.mpr hcap)
  · rw [e, finish_pixbuf, grownWrite_getElem?_self]

/-- The operands of `SET_PIXEL x, y, p` in the registers (R109). -/
def pixelOperands (x y : Nat) (p : Pixel) (s : State) : State :=
  { s with arg0 := BitVec.ofNat 32 x, arg1 := BitVec.ofNat 32 y, arg2 := pack p }

theorem pixelIndex_pixelOperands {x y : Nat} (hx : wordOperandOk x = true)
    (hy : wordOperandOk y = true) (p : Pixel) (s : State) :
    pixelIndex (pixelOperands x y p s) = y * s.width.toNat + x := by
  simp only [pixelIndex, pixelOperands, toNat_ofNat_of_wordOperandOk hx,
    toNat_ofNat_of_wordOperandOk hy]

theorem setPixelBody_pixelOperands {x y : Nat} (hx : wordOperandOk x = true)
    (hy : wordOperandOk y = true) (p : Pixel) {s : State}
    (hcap : y * s.width.toNat + x < s.cfg.maxPixels) :
    (setPixelBody (pixelOperands x y p s)).pixbuf[y * s.width.toNat + x]? = some p := by
  have hindex := pixelIndex_pixelOperands hx hy p s
  have hpixel : unpack (pixelOperands x y p s).arg2 = p := unpack_pack p
  rw [← hindex, setPixelBody_getElem? (by rw [hindex]; exact hcap), hpixel]

theorem runSteps_asmSetPixel (d : Draws) (x y r g b : Nat) {s : State} (hrun : s.faulted = false) :
    runSteps 4 { s with script := asmExpand d (.setPixel x y r g b) } =
      some (setPixelBody
        (pixelOperands x y (asmPixel r g b) (startCommand { s with script := [] }))) := by
  have hwritten : (pixelOperands x y (asmPixel r g b) s).faulted = false := hrun
  calc runSteps 4 { s with script := asmExpand d (.setPixel x y r g b) }
      = runSteps 1 { pixelOperands x y (asmPixel r g b) s with
          script := [.issue (encode .setPixel)] } := by
        rw [asmExpand, runSteps_write, runSteps_write, runSteps_write]
        rfl
    _ = some (setPixelBody
          (pixelOperands x y (asmPixel r g b) (startCommand { s with script := [] }))) :=
        runSteps_issue_encode 0 .setPixel [] hwritten

/-- Settles O54: the operands of the line name its slot, and SET_PIXEL unpacks its pixel there. -/
theorem assembledSetPixelWritesPixel : Obligations.AssembledSetPixelWritesPixel := by
  unfold Obligations.AssembledSetPixelWritesPixel
  intro s d x y r g b hrun hok hcap
  obtain ⟨⟨⟨⟨hx, hy⟩, hr⟩, hg⟩, hb⟩ : (((wordOperandOk x = true ∧ wordOperandOk y = true) ∧
      channelOperandOk r = true) ∧ channelOperandOk g = true) ∧ channelOperandOk b = true := by
    simpa only [asmLineOk, Bool.and_eq_true] using hok
  have hslot := setPixelBody_pixelOperands hx hy (asmPixel r g b)
    (s := startCommand { s with script := [] }) hcap
  exact ⟨_, asmPixel r g b, runSteps_asmSetPixel d x y r g b hrun, hslot,
    toNat_ofNat_of_channelOperandOk hr, toNat_ofNat_of_channelOperandOk hg,
    toNat_ofNat_of_channelOperandOk hb⟩

end Sys2Proof.Machine
end

