-- ==== Sys2Proof/Proofs/PixelAccess.lean ====
section
/-! PROOFS. The accessors and mutators one by one (`40_pixel_access.md` R131 to R139): each is its body behind the
dispatch, and a body ends by `finish(OK)` or by a fault. Then GET_PIXEL after SET_PIXEL (R140): the slot holds the
written pixel until a command writes WIDTH or PIXBUF. -/

namespace Sys2Proof.Machine

open Sys2Proof

/-! ## The commands that always end with OK (R131, R132, R134 to R136) -/

/-- Settles O5: the body copies WIDTH to RESULT and cannot fail. -/
theorem getWidthResult : Obligations.GetWidthResult := by
  unfold Obligations.GetWidthResult
  exact ⟨decode_encode .getWidth, fun s hrun =>
    ⟨_, statusAfter_finish .ok s.status, exec_of_running hrun⟩⟩

/-- Settles O6: the body copies HEIGHT to RESULT and cannot fail. -/
theorem getHeightResult : Obligations.GetHeightResult := by
  unfold Obligations.GetHeightResult
  exact ⟨decode_encode .getHeight, fun s hrun =>
    ⟨_, statusAfter_finish .ok s.status, exec_of_running hrun⟩⟩

/-- Settles O8: PIXOUT takes the whole buffer, and RESULT its length as a 32-bit word. -/
theorem getPixelsDeliversBuffer : Obligations.GetPixelsDeliversBuffer := by
  unfold Obligations.GetPixelsDeliversBuffer
  exact ⟨decode_encode .getPixels, fun s hrun =>
    ⟨_, _, statusAfter_finish .ok s.status, BitVec.toNat_ofNat s.pixbuf.length 32,
      exec_of_running hrun⟩⟩

/-- Settles O9: the body copies ARG0 to WIDTH and cannot fail. -/
theorem setWidthResult : Obligations.SetWidthResult := by
  unfold Obligations.SetWidthResult
  exact ⟨decode_encode .setWidth, fun s hrun =>
    ⟨_, statusAfter_finish .ok s.status, exec_of_running hrun⟩⟩

/-- Settles O10: the body copies ARG0 to HEIGHT and cannot fail. -/
theorem setHeightResult : Obligations.SetHeightResult := by
  unfold Obligations.SetHeightResult
  exact ⟨decode_encode .setHeight, fun s hrun =>
    ⟨_, statusAfter_finish .ok s.status, exec_of_running hrun⟩⟩

/-! ## SET_PIXELS (R137) -/

theorem exec_setPixels_of_le {s : State} (hrun : s.faulted = false)
    (hlen : s.pixIn.length ≤ s.cfg.maxPixels) :
    exec .setPixels s =
      .next (clearPixIn (finish .ok { startCommand s with pixbuf := s.pixIn })) := by
  obtain ⟨hcap, _⟩ | ⟨_, e⟩ := setPixelsBody_cases (startCommand s)
  · exact absurd hcap (not_lt.mpr hlen)
  · exact (exec_of_running hrun).trans (congrArg (fun t => Host.Outcome.next (clearPixIn t)) e)

theorem exec_setPixels_of_lt {s : State} (hrun : s.faulted = false)
    (hlen : s.cfg.maxPixels < s.pixIn.length) :
    exec .setPixels s = .next (clearPixIn (raiseFault .capacity (startCommand s))) := by
  obtain ⟨_, e⟩ | ⟨hfits, _⟩ := setPixelsBody_cases (startCommand s)
  · rw [exec_of_running hrun, commandBody, e]
  · exact absurd hlen (not_lt.mpr hfits)

/-- Settles O11: the sequence fits and replaces the buffer, or it does not and the buffer stays. -/
theorem setPixelsReplacesOrFaults : Obligations.SetPixelsReplacesOrFaults := by
  unfold Obligations.SetPixelsReplacesOrFaults
  refine ⟨decode_encode .setPixels, fun s hrun => ⟨fun hlen => ?_, fun hlen => ?_⟩⟩
  · exact ⟨_, exec_setPixels_of_le hrun hlen, rfl, rfl, rfl, ⟨rfl, rfl, rfl⟩, rfl, ⟨rfl, rfl⟩,
      statusAfter_finish .ok s.status⟩
  · exact ⟨_, exec_setPixels_of_lt hrun hlen, ⟨rfl, rfl, rfl⟩, ⟨rfl, rfl, rfl⟩, rfl, ⟨rfl, rfl⟩,
      statusFaulted_raise .capacity s.status⟩

/-! ## GET_PIXEL (R133) -/

theorem exec_getPixel_of_stored {s : State} {p : Pixel} (hrun : s.faulted = false)
    (hp : s.pixbuf[pixelIndex s]? = some p) :
    exec .getPixel s = .next (finish .ok { startCommand s with result := pack p }) := by
  have hread : pixRead (pixelIndex (startCommand s)) (startCommand s) = some p := hp
  rw [exec_of_running hrun, commandBody, getPixelBody, hread]

theorem exec_getPixel_of_le {s : State} (hrun : s.faulted = false)
    (hlen : s.pixbuf.length ≤ pixelIndex s) :
    exec .getPixel s = .next (raiseFault .oobRead (startCommand s)) := by
  have hread : pixRead (pixelIndex (startCommand s)) (startCommand s) = none :=
    (pixRead_eq_none_iff _ _).mpr hlen
  rw [exec_of_running hrun, commandBody, getPixelBody, hread]

/-- Settles O7: the slot named by ARG0 and ARG1 exists and is packed, or it does not and is not read. -/
theorem getPixelReadsSlotOrFaults : Obligations.GetPixelReadsSlotOrFaults := by
  unfold Obligations.GetPixelReadsSlotOrFaults
  refine ⟨decode_encode .getPixel, fun s hrun => ⟨fun p hp => ?_, fun hlen => ?_⟩⟩
  · exact ⟨_, statusAfter_finish .ok s.status, exec_getPixel_of_stored hrun hp⟩
  · exact ⟨_, statusFaulted_raise .oobRead s.status, exec_getPixel_of_le hrun hlen⟩

/-! ## SET_PIXEL (R138, R139) -/

theorem exec_setPixel_of_lt {s : State} (hrun : s.faulted = false)
    (hk : pixelIndex s < s.cfg.maxPixels) :
    exec .setPixel s = .next (finish .ok
      { startCommand s with
        pixbuf := grownWrite s.cfg.defaultPixel s.pixbuf (pixelIndex s) (unpack s.arg2) }) := by
  obtain ⟨hcap, _⟩ | ⟨_, e⟩ := setPixelBody_cases (startCommand s)
  · exact absurd hk (not_lt.mpr hcap)
  · exact (exec_of_running hrun).trans (congrArg Host.Outcome.next e)

theorem exec_setPixel_of_le {s : State} (hrun : s.faulted = false)
    (hk : s.cfg.maxPixels ≤ pixelIndex s) :
    exec .setPixel s = .next (raiseFault .capacity (startCommand s)) := by
  obtain ⟨_, e⟩ | ⟨hlt, _⟩ := setPixelBody_cases (startCommand s)
  · rw [exec_of_running hrun, commandBody, e]
  · exact absurd hlt (not_lt.mpr hk)

theorem grownWrite_getElem?_of_lt_length {d p : Pixel} {buf : List Pixel} {k j : Nat}
    (hj : j < buf.length) (hne : j ≠ k) : (grownWrite d buf k p)[j]? = buf[j]? := by
  rw [grownWrite_getElem?, if_neg hne, if_pos hj]

theorem grownWrite_getElem?_of_length_le {d p : Pixel} {buf : List Pixel} {k j : Nat}
    (hj : buf.length ≤ j) (hlt : j < k) : (grownWrite d buf k p)[j]? = some d := by
  rw [grownWrite_getElem?, if_neg hlt.ne, if_neg (not_lt.mpr hj), if_pos hlt]

/-- Settles O12: the buffer left is the grown one, whose length and slots are known. -/
theorem setPixelWritesSlotOrFaults : Obligations.SetPixelWritesSlotOrFaults := by
  unfold Obligations.SetPixelWritesSlotOrFaults
  refine ⟨decode_encode .setPixel, fun s k hrun hindex => ?_⟩
  obtain rfl : k = pixelIndex s := hindex
  refine ⟨fun hk => ?_, fun hk => ?_⟩
  · refine ⟨_, _, statusAfter_finish .ok s.status, exec_setPixel_of_lt hrun hk,
      grownWrite_getElem?_self .., fun hin => ?_, fun hpast => ?_,
      fun j hj hne => grownWrite_getElem?_of_lt_length hj hne,
      fun j hj hlt => grownWrite_getElem?_of_length_le hj hlt⟩
    · rw [grownWrite_length, max_eq_left (Nat.succ_le_of_lt hin)]
    · rw [grownWrite_length, max_eq_right (Nat.le_succ_of_le hpast)]
  · exact ⟨_, statusFaulted_raise .capacity s.status, exec_setPixel_of_le hrun hk⟩

/-! ## A read after a write (R140) -/

/-- Packing what was unpacked clears bits 31:24 and keeps the rest (R103). -/
theorem pack_unpack (w : Word) : pack (unpack w) = w &&& 0x00FFFFFF#32 := by
  have hmask (i : Nat) : (0x00FFFFFF#32).getLsbD i = decide (i < 24) :=
    Nat.testBit_two_pow_sub_one 24 i
  refine BitVec.eq_of_getLsbD_eq fun i hi => ?_
  rw [pack_getLsbD _ _ hi, BitVec.getLsbD_and, hmask]
  split_ifs with h8 h16
  · rw [unpack_getLsbD_red w h8, decide_eq_true (by omega), Bool.and_true]
  · rw [unpack_getLsbD_green w (by omega), Nat.add_sub_cancel' (by omega),
      decide_eq_true (by omega), Bool.and_true]
  · by_cases h24 : i < 24
    · rw [unpack_getLsbD_blue w (by omega), Nat.add_sub_cancel' (by omega), decide_eq_true h24,
        Bool.and_true]
    · rw [decide_eq_false h24, Bool.and_false]
      exact BitVec.getLsbD_of_ge _ _ (by omega)

/-- GET_PIXEL would read `p`: the block runs, and the slot that ARG0 and ARG1 name holds `p`. -/
def ReadsPixel (p : Pixel) (s : State) : Prop :=
  s.faulted = false ∧ s.pixbuf[pixelIndex s]? = some p

theorem ReadsPixel.exec_getPixel {p : Pixel} {s : State} (h : ReadsPixel p s) :
    ∃ u, exec .getPixel s = .next u ∧ u.faulted = false ∧ statusCode u.status = 0 ∧
      u.result = pack p := by
  obtain ⟨hrun, hp⟩ := h
  refine ⟨_, exec_getPixel_of_stored hrun hp, ?_, statusCode_setCode _ .ok, rfl⟩
  exact (finish_faulted .ok _).trans ((startCommand_faulted s).trans hrun)

/-- A SET_PIXEL without a fault leaves the index as it was, and at it the pixel of ARG2 (R138). -/
theorem readsPixel_of_exec_setPixel {s t : State} (hrun : s.faulted = false)
    (h : exec .setPixel s = .next t) (ht : t.faulted = false) : ReadsPixel (unpack s.arg2) t := by
  refine ⟨ht, ?_⟩
  obtain hk | hk := lt_or_ge (pixelIndex s) s.cfg.maxPixels
  · rw [exec_setPixel_of_lt hrun hk] at h
    cases h
    exact grownWrite_getElem?_self ..
  · rw [exec_setPixel_of_le hrun hk] at h
    cases h
    cases ht.symm.trans (raiseFault_faulted .capacity (startCommand s))

/-- A command that writes neither WIDTH nor PIXBUF (R111) leaves every slot where it was. -/
theorem ReadsPixel.of_exec {p : Pixel} {i : Instr} {s t : State} (hp : ReadsPixel p s)
    (hwidth : ¬(i = .setWidth ∨ i = .load))
    (hpixbuf : ¬(i = .setPixel ∨ i = .setPixels ∨ i = .load))
    (h : exec i s = .next t) (ht : t.faulted = false) : ReadsPixel p t := by
  obtain ⟨_, hslot⟩ := hp
  obtain ⟨x, rfl⟩ := exec_tableWrites h
  obtain ⟨harg0, harg1, _⟩ := tableWrites_sameArgs i s x
  have hindex : pixelIndex (tableWrites i s x) = pixelIndex s := by
    rw [pixelIndex, harg0, harg1, tableWrites_width, if_neg hwidth, pixelIndex]
  exact ⟨ht, by rw [hindex, tableWrites_pixbuf, if_neg hpixbuf]; exact hslot⟩

/-- Settles O14: the slot written is the slot read, and the command in between writes none of what decides it. -/
theorem pixelReadAfterWrite : Obligations.PixelReadAfterWrite := by
  unfold Obligations.PixelReadAfterWrite
  intro s t hs hset ht
  have hpixel : ReadsPixel (unpack s.arg2) t := readsPixel_of_exec_setPixel hs hset ht
  rw [← pack_unpack]
  refine ⟨hpixel.exec_getPixel, fun i v hwidth hsetPixel hsetPixels hload h hv => ?_⟩
  exact (hpixel.of_exec (by simp [hwidth, hload]) (by simp [hsetPixel, hsetPixels, hload])
    h hv).exec_getPixel

end Sys2Proof.Machine
end

