-- ==== Sys2Proof/Proofs/SaveFrame.lean ====
section
/-! PROOFS. SAVE (`41_framing.md` R170 to R174). Whatever the draws are, SAVE opens an empty sink and writes `Encode(S)` to it
as one sequence; only then does its extent decide between OK and Fault(OOB_READ). -/

namespace Sys2Proof.Machine

open Sys2Proof

/-! ## One sequence written to a new sink (R68, R69) -/

/-- `s` with `bs` on OUT (R65). -/
def withOutput (bs : List Byte) (s : State) : State := { s with output := bs }

theorem openWrite_of_openFail (bs : List Byte) {s : State} (h : s.outDraws.openFail = true) :
    (outOpen s).andThen (outWrite bs) = .ended (finish .ioError (withOutput [] s)) := by
  simp [outOpen, h, withOutput]

theorem outOpen_of_open {s : State} (h : s.outDraws.openFail = false) :
    outOpen s = .more (withOutput [] s) := by
  simp [outOpen, h, withOutput]

theorem openWrite_of_noFailure {bs : List Byte} {s : State}
    (h : NoFailureBelow s.outDraws bs.length) :
    (outOpen s).andThen (outWrite bs) = .more (withOutput bs s) := by
  obtain ⟨hopen, hok⟩ := h
  rw [outOpen_of_open hopen, Flow.andThen_more, outWrite_ok bs _ (by simpa [withOutput] using hok)]
  rfl

theorem openWrite_of_firstFailure {bs : List Byte} {s : State} {i : Nat}
    (h : FirstFailure s.outDraws i) (hi : i < bs.length) :
    (outOpen s).andThen (outWrite bs) = .ended (finish .ioError (withOutput (bs.take i) s)) := by
  obtain ⟨hopen, hfail, hok⟩ := h
  rw [outOpen_of_open hopen, Flow.andThen_more, outWrite_fail bs _ i hi
    (by simpa [withOutput] using hfail) (by simpa [withOutput] using hok)]
  rfl

/-! ## The slots past LEN (R62, R170) -/

theorem savePixels_add (m n k : Nat) (s : State) :
    savePixels (m + n) k s = (savePixels m k s).andThen (savePixels n (k + m)) := by
  induction m generalizing k s with
  | zero => simp [savePixels]
  | succ m ih =>
    rw [Nat.succ_add, savePixels, savePixels]
    split
    · rfl
    · have hrest : savePixels (m + n) (k + 1) =
          fun t => (savePixels m (k + 1) t).andThen (savePixels n (k + (m + 1))) := by
        funext t
        rw [ih, Nat.add_assoc k 1 m, Nat.add_comm 1 m]
      rw [hrest, ← Flow.andThen_assoc]

theorem savePixels_of_length_le {n k : Nat} {s : State} (hn : 0 < n) (h : s.pixbuf.length ≤ k) :
    savePixels n k s = .ended (raiseFault .oobRead s) := by
  obtain ⟨n, rfl⟩ := Nat.exists_eq_add_one_of_ne_zero hn.ne'
  rw [savePixels, (pixRead_eq_none_iff k s).mpr h]

/-- What follows the stored pixels of an extent of `n` slots: nothing, or the read of the slot past LEN (R170, R172). -/
def pastBuffer (n : Nat) (s : State) : Flow :=
  if n ≤ s.pixbuf.length then .more s else .ended (raiseFault .oobRead s)

/-- The pixels of an extent are one write of those stored, and then the fault where there are fewer (R170). -/
theorem savePixels_eq_outWrite_andThen (n : Nat) (s : State) :
    savePixels n 0 s =
      (outWrite (pixelStream s.cfg (s.pixbuf.take n)) s).andThen (pastBuffer n) := by
  by_cases hn : n ≤ s.pixbuf.length
  · rw [savePixels_eq_outWrite n 0 s (by omega), List.drop_zero]
    obtain e | ⟨i, _, e⟩ := outWrite_cases (pixelStream s.cfg (s.pixbuf.take n)) s <;> rw [e]
    · rw [Flow.andThen_more, pastBuffer, if_pos hn]
    · rfl
  · obtain ⟨m, rfl⟩ := Nat.exists_eq_add_of_lt (Nat.lt_of_not_le hn)
    rw [Nat.add_assoc, savePixels_add, savePixels_eq_outWrite _ 0 s (by omega), List.drop_zero,
      List.take_length, List.take_of_length_le (by omega)]
    obtain e | ⟨i, _, e⟩ := outWrite_cases (pixelStream s.cfg s.pixbuf) s <;> rw [e]
    · rw [Flow.andThen_more, Flow.andThen_more, pastBuffer, if_neg (by simp only; omega)]
      exact savePixels_of_length_le (by omega) (by simp only; omega)
    · rfl

/-! ## The body of SAVE -/

/-- The end of a SAVE that has written all its bytes (R170). -/
def saveEnd (n : Nat) (s : State) : State :=
  if n ≤ s.pixbuf.length then finish .ok { s with result := BitVec.ofNat 32 n }
  else raiseFault .oobRead s

/-- SAVE is one write of `Encode(S)`, and then its end (R170, R171). -/
theorem saveBody_eq_openWrite (s : State) :
    saveBody s =
      (((outOpen s).andThen (outWrite (encodeFrame s))).andThen
        fun t => .ended (saveEnd (saveExtent s) t)).state := by
  obtain ⟨_, e⟩ | ⟨_, e⟩ := outOpen_cases s <;> rw [saveBody, e]
  · rfl
  · have hheader : frameHeader { s with output := [] } = frameHeader s := rfl
    rw [Flow.andThen_more, Flow.andThen_more, saveHeader_eq_outWrite, encodeFrame,
      outWrite_append, hheader]
    obtain e | ⟨i, _, e⟩ := outWrite_cases (frameHeader s) { s with output := [] } <;> rw [e]
    · rw [Flow.andThen_more, Flow.andThen_more, savePixels_eq_outWrite_andThen,
        Flow.andThen_assoc]
      congr 2
      funext t
      unfold pastBuffer saveEnd
      split <;> rfl
    · rfl

/-! ## The ways a SAVE can go (R170, R173) -/

theorem exec_save_of_openFail {s : State} (hrun : s.faulted = false)
    (h : s.outDraws.openFail = true) :
    exec .save s = .next (closeOutput (finish .ioError (withOutput [] (startCommand s)))) := by
  rw [exec_of_running hrun, commandBody, saveBody_eq_openWrite,
    openWrite_of_openFail _ (s := startCommand s) h, Flow.andThen_ended, Flow.state_ended]

theorem exec_save_of_firstFailure {s : State} {i : Nat} (hrun : s.faulted = false)
    (h : FirstFailure s.outDraws i) (hi : i < (encodeFrame s).length) :
    exec .save s =
      .next (closeOutput
        (finish .ioError (withOutput ((encodeFrame s).take i) (startCommand s)))) := by
  have hframe : encodeFrame (startCommand s) = encodeFrame s := rfl
  rw [exec_of_running hrun, commandBody, saveBody_eq_openWrite, hframe,
    openWrite_of_firstFailure (s := startCommand s) h hi, Flow.andThen_ended, Flow.state_ended]

theorem exec_save_of_noFailure {s : State} (hrun : s.faulted = false)
    (h : NoFailureBelow s.outDraws (encodeFrame s).length) :
    exec .save s =
      .next (closeOutput
        (saveEnd (saveExtent s) (withOutput (encodeFrame s) (startCommand s)))) := by
  have hframe : encodeFrame (startCommand s) = encodeFrame s := rfl
  rw [exec_of_running hrun, commandBody, saveBody_eq_openWrite, hframe,
    openWrite_of_noFailure (s := startCommand s) h, Flow.andThen_more, Flow.state_ended]
  rfl

theorem saveEnd_of_le {n : Nat} {s : State} (h : n ≤ s.pixbuf.length) :
    saveEnd n s = finish .ok { s with result := BitVec.ofNat 32 n } := if_pos h

theorem saveEnd_of_lt {n : Nat} {s : State} (h : s.pixbuf.length < n) :
    saveEnd n s = raiseFault .oobRead s := if_neg (Nat.not_le.mpr h)

/-- Settles O23: within LEN the end of SAVE is `finish(OK)`. -/
theorem saveWritesFrame : Obligations.SaveWritesFrame := by
  unfold Obligations.SaveWritesFrame
  intro s hrun hlen hok
  refine ⟨_, exec_save_of_noFailure hrun hok, ?_⟩
  rw [saveEnd_of_le (s := withOutput (encodeFrame s) (startCommand s)) hlen]
  exact ⟨rfl, BitVec.toNat_ofNat _ _, ⟨rfl, rfl, rfl⟩, ⟨rfl, rfl, rfl⟩, rfl,
    statusAfter_finish .ok s.status⟩

/-- Settles O24: SAVE is one write, which stops at the first byte whose transfer fails. -/
theorem saveFailureLeavesPrefix : Obligations.SaveFailureLeavesPrefix := by
  unfold Obligations.SaveFailureLeavesPrefix
  intro s hrun
  exact ⟨fun hopen => ⟨_, exec_save_of_openFail hrun hopen, rfl, rfl,
      statusAfter_finish .ioError s.status⟩,
    fun i hfail hi => ⟨_, exec_save_of_firstFailure hrun hfail hi, rfl, rfl,
      statusAfter_finish .ioError s.status⟩⟩

/-- Only P_SAVE_EXTENT = DIMENSIONS takes the extent from anything but LEN (R172). -/
theorem saveExtent_eq_dimensions_of_lt {s : State} (h : s.pixbuf.length < saveExtent s) :
    s.cfg.saveExtent = .dimensions := by
  cases hmode : s.cfg.saveExtent with
  | sequence => simp [saveExtent, hmode] at h
  | dimensions => rfl

/-- Settles O25: past LEN the end of SAVE is the fault, all of `Encode(S)` written before it. -/
theorem saveBeyondBufferFaults : Obligations.SaveBeyondBufferFaults := by
  unfold Obligations.SaveBeyondBufferFaults
  intro s hrun hlen hok
  have hframe : encodeFrame s = frameHeader s ++ pixelStream s.cfg s.pixbuf := by
    rw [encodeFrame, List.take_of_length_le hlen.le]
  refine ⟨saveExtent_eq_dimensions_of_lt hlen, _, exec_save_of_noFailure hrun hok, ?_⟩
  rw [saveEnd_of_lt (s := withOutput (encodeFrame s) (startCommand s)) hlen]
  exact ⟨hframe, rfl, ⟨rfl, rfl, rfl⟩, statusFaulted_raise .oobRead s.status⟩

/-- Settles O26: the row of SAVE in R111 names neither the image nor an input. -/
theorem saveKeepsImage : Obligations.SaveKeepsImage := by
  unfold Obligations.SaveKeepsImage
  intro s t h
  obtain ⟨x, rfl⟩ := exec_tableWrites h
  exact ⟨⟨rfl, rfl, rfl⟩, tableWrites_sameArgs .save s x, rfl, rfl, rfl⟩

end Sys2Proof.Machine
end

