-- ==== Sys2Proof/Proofs/LoadFields.lean ====
section
/-! PROOFS. LOAD field by field (`41_framing.md` R176 to R186, R191): what each whole field of the header does, and what
the end of the stream inside one does. The two failures that come before any effect, an open failure and a rejected
signature, follow from the signature's field alone. -/

namespace Sys2Proof.Machine

open Sys2Proof

/-! ## Whole and partial fields (R177, R178) -/

/-- LOAD where phase `ph` begins, `pos` bytes consumed, no pixel appended and `bytes` to come (R47, R177). -/
def beginning (ph : Phase) (pos : Nat) (bytes : List Byte) (s : State) : State :=
  { s with input := bytes, dec := ⟨ph, [], 0, [], pos, 0⟩ }

/-- A whole field is handed to `Complete`. -/
theorem readLoop_field {ph : Phase} {bs rest : List Byte} {pos : Nat} {s : State}
    (hne : bs ≠ []) (hlen : bs.length = need s.cfg ph)
    (hok : ∀ j, j < bs.length → s.inDraws.xferFails (pos + j) = false) :
    readLoop loadByte loadEnd (bs ++ rest) (beginning ph pos (bs ++ rest) s) =
      (completeField bs (handed bs rest (beginning ph pos (bs ++ rest) s))).andThen
        (readLoop loadByte loadEnd rest) := by
  have hstart : (beginning ph pos (bs ++ rest) s).dec.acc.length + bs.length = need s.cfg ph := by
    rw [← hlen]
    exact Nat.zero_add _
  rw [loadByte_eq_gatherByte, readLoop_complete steady_loadNeed bs rest _ rfl hne hstart hok]
  rfl

/-- Part of a field is gathered and takes no effect (R178). -/
theorem readLoop_part {ph : Phase} {bs rest : List Byte} {pos : Nat} {s : State}
    (hlen : bs.length < need s.cfg ph)
    (hok : ∀ j, j < bs.length → s.inDraws.xferFails (pos + j) = false) :
    readLoop loadByte loadEnd (bs ++ rest) (beginning ph pos (bs ++ rest) s) =
      readLoop loadByte loadEnd rest (gathered bs rest (beginning ph pos (bs ++ rest) s)) := by
  have hstart : (beginning ph pos (bs ++ rest) s).dec.acc.length + bs.length < need s.cfg ph :=
    (Nat.zero_add _).trans_lt hlen
  exact readLoop_gather (complete := completeField) (onEnd := loadEnd) steady_loadNeed bs rest
    (beginning ph pos (bs ++ rest) s) rfl hstart hok

/-- A stream that ends inside a field (R178, R191). -/
theorem readLoop_cut {ph : Phase} {bs : List Byte} {pos : Nat} {s : State}
    (hlen : bs.length < need s.cfg ph)
    (hok : ∀ j, j < bs.length → s.inDraws.xferFails (pos + j) = false) :
    readLoop loadByte loadEnd bs (beginning ph pos bs s) =
      .ended (loadEnd (gathered bs [] (beginning ph pos bs s))) := by
  have hpart := readLoop_part (rest := []) hlen hok
  rwa [List.append_nil] at hpart

/-! ## The header (R180 to R186) -/

theorem loadBody_of_open {s : State} (h : s.inDraws.openFail = false) :
    loadBody s = (readLoop loadByte loadEnd s.input (beginning .sig 0 s.input s)).state := by
  simp only [loadBody, inOpen, h]
  rfl

/-- The effect of a signature that matches (R182). -/
def withBase (s : State) : State := { s with pixbuf := loadBase s }

/-- The effect of the version `v` (R184). -/
def withVersion (v : Word) (s : State) : State :=
  { s with status := if versionDiffers v then setVwarn s.status true else s.status }

/-- The effect of the width `w` (R185). -/
def withWidth (w : Word) (s : State) : State := { s with width := w }

/-- The effect of the height `h` (R186). -/
def withHeight (h : Word) (s : State) : State := { s with height := h }

theorem readLoop_signature_eq {rest : List Byte} {s : State} (hne : s.cfg.sig ≠ [])
    (hok : ∀ j, j < s.cfg.sigLen → s.inDraws.xferFails j = false) :
    readLoop loadByte loadEnd (s.cfg.sig ++ rest) (beginning .sig 0 (s.cfg.sig ++ rest) s) =
      readLoop loadByte loadEnd rest (beginning .ver s.cfg.sigLen rest (withBase s)) := by
  rw [readLoop_field hne rfl fun j hj => by simpa using hok j hj]
  simp [completeField, completeSig, handed, beginning, withBase, loadBase, Config.sigLen]

theorem readLoop_signature_ne {bs rest : List Byte} {s : State} (hlen : bs.length = s.cfg.sigLen)
    (hne : bs ≠ s.cfg.sig) (hok : ∀ j, j < s.cfg.sigLen → s.inDraws.xferFails j = false) :
    readLoop loadByte loadEnd (bs ++ rest) (beginning .sig 0 (bs ++ rest) s) =
      .ended (finish .formatError (handed bs rest (beginning .sig 0 (bs ++ rest) s))) := by
  have hbs : bs ≠ [] := by
    rintro rfl
    exact hne (List.length_eq_zero_iff.mp hlen.symm).symm
  rw [readLoop_field (ph := .sig) (s := s) hbs hlen
    fun j hj => by simpa using hok j (hlen ▸ hj)]
  simp [completeField, completeSig, handed, beginning, hne]

theorem readLoop_version {v rest : List Byte} {pos : Nat} {s : State} (hlen : v.length = 4)
    (hok : ∀ i, s.inDraws.xferFails i = false) :
    readLoop loadByte loadEnd (v ++ rest) (beginning .ver pos (v ++ rest) s) =
      readLoop loadByte loadEnd rest (beginning .wid (pos + 4) rest (withVersion (unLE32 v) s)) := by
  rw [readLoop_field (by rintro rfl; cases hlen) hlen fun _ _ => hok _, ← hlen]
  rfl

theorem readLoop_width {w rest : List Byte} {pos : Nat} {s : State} (hlen : w.length = 4)
    (hok : ∀ i, s.inDraws.xferFails i = false) :
    readLoop loadByte loadEnd (w ++ rest) (beginning .wid pos (w ++ rest) s) =
      readLoop loadByte loadEnd rest (beginning .hgt (pos + 4) rest (withWidth (unLE32 w) s)) := by
  rw [readLoop_field (by rintro rfl; cases hlen) hlen fun _ _ => hok _, ← hlen]
  rfl

theorem readLoop_height {h rest : List Byte} {pos : Nat} {s : State} (hlen : h.length = 4)
    (hok : ∀ i, s.inDraws.xferFails i = false) :
    readLoop loadByte loadEnd (h ++ rest) (beginning .hgt pos (h ++ rest) s) =
      readLoop loadByte loadEnd rest (beginning .body (pos + 4) rest (withHeight (unLE32 h) s)) := by
  rw [readLoop_field (by rintro rfl; cases hlen) hlen fun _ _ => hok _, ← hlen]
  rfl

/-- The phases of the three fields that a stream may end inside with OK (R191). -/
def IntegerField (ph : Phase) : Prop := ph = .ver ∨ ph = .wid ∨ ph = .hgt

theorem readLoop_header_cut {ph : Phase} {bs : List Byte} {pos : Nat} {s : State}
    (hph : IntegerField ph) (hlen : bs.length < 4) (hok : ∀ i, s.inDraws.xferFails i = false) :
    readLoop loadByte loadEnd bs (beginning ph pos bs s) =
      .ended (headerCutShort (gathered bs [] (beginning ph pos bs s))) := by
  obtain rfl | rfl | rfl := hph <;>
    exact readLoop_cut (s := s) hlen fun _ _ => hok _

/-! ## A LOAD that ends before its first effect -/

theorem exec_load_of_openFail {s : State} (hrun : s.faulted = false)
    (h : s.inDraws.openFail = true) :
    exec .load s = .next (closeInput (finish .ioError (startCommand s))) := by
  have hopen : (startCommand s).inDraws.openFail = true := h
  rw [exec_of_running hrun, commandBody, loadBody, inOpen, if_pos hopen]
  rfl

theorem exec_load_of_open {s : State} (hrun : s.faulted = false)
    (h : s.inDraws.openFail = false) :
    exec .load s =
      .next (closeInput
        (readLoop loadByte loadEnd s.input (beginning .sig 0 s.input (startCommand s))).state) := by
  rw [exec_of_running hrun, commandBody, loadBody_of_open (s := startCommand s) h]
  rfl

/-- The state in which a LOAD of a rejected stream ends (R181, R191). -/
def rejected (s : State) : State := closeInput (finish .formatError (startCommand s))

theorem rejected_faulted (s : State) : (rejected s).faulted = s.faulted := by
  simp [rejected, State.faulted]

/-- A stream that is shorter than the signature, or begins with other bytes, is rejected before any effect
(R181, R191). -/
theorem exec_load_of_rejected {s : State} (hrun : s.faulted = false)
    (hread : NoFailureBelow s.inDraws (min s.cfg.sigLen s.input.length))
    (h : s.input.length < s.cfg.sigLen ∨ s.input.take s.cfg.sigLen ≠ s.cfg.sig) :
    exec .load s = .next (rejected s) := by
  obtain ⟨hopen, hok⟩ := hread
  rw [exec_load_of_open hrun hopen]
  by_cases hshort : s.input.length < s.cfg.sigLen
  · rw [readLoop_cut (ph := .sig) (s := startCommand s) hshort
      fun j hj => by simpa using hok j (by omega)]
    rfl
  · have hne := h.resolve_left hshort
    have hlen : (s.input.take s.cfg.sigLen).length = s.cfg.sigLen := by
      rw [List.length_take]; omega
    have hbad := readLoop_signature_ne (rest := s.input.drop s.cfg.sigLen) (s := startCommand s)
      hlen hne fun j hj => hok j (by rw [startCommand_cfg] at hj; omega)
    rw [List.take_append_drop] at hbad
    rw [hbad]
    rfl

/-- A LOAD whose signature matches goes on with the version (R182). -/
theorem exec_load_of_signature {s : State} {rest : List Byte} (hrun : s.faulted = false)
    (hne : s.cfg.sig ≠ []) (hread : NoFailureBelow s.inDraws s.cfg.sigLen)
    (hin : s.input = s.cfg.sig ++ rest) :
    exec .load s =
      .next (closeInput (readLoop loadByte loadEnd rest
        (beginning .ver s.cfg.sigLen rest (withBase (startCommand s)))).state) := by
  obtain ⟨hopen, hok⟩ := hread
  have hsig := readLoop_signature_eq (rest := rest) (s := startCommand s) hne hok
  rw [startCommand_cfg] at hsig
  rw [exec_load_of_open hrun hopen, hin, hsig]

/-- LOAD writes no ARG and no output (R111, R175). -/
theorem exec_load_frame {s t : State} (h : exec .load s = .next t) :
    SameArgs s t ∧ SameOutputs s t := by
  obtain ⟨x, rfl⟩ := exec_tableWrites h
  exact ⟨tableWrites_sameArgs .load s x, rfl, rfl⟩

theorem NoDraws.xferFails {d : Draws} (h : NoDraws d) (i : Nat) : d.xferFails i = false := by
  obtain ⟨_, hnone⟩ := h
  simp [Draws.xferFails, hnone]

theorem NoDraws.noFailureBelow {d : Draws} (h : NoDraws d) (n : Nat) : NoFailureBelow d n :=
  have ⟨hopen, _⟩ := h
  ⟨hopen, fun j _ => h.xferFails j⟩

theorem noDraws_none : NoDraws Draws.none := ⟨rfl, rfl⟩

/-! ## The statements -/

/-- Settles O29: the open is the first thing LOAD does. -/
theorem loadOpenFailure : Obligations.LoadOpenFailure := by
  unfold Obligations.LoadOpenFailure
  intro s hrun hopen
  have hexec := exec_load_of_openFail hrun hopen
  obtain ⟨hargs, houtputs⟩ := exec_load_frame hexec
  exact ⟨_, hexec, ⟨rfl, rfl, rfl⟩, rfl, hargs, houtputs, statusAfter_finish .ioError s.status⟩

/-- Settles O31: no field is written before the signature is complete and matches. -/
theorem wrongSignatureIsFormatError : Obligations.WrongSignatureIsFormatError := by
  unfold Obligations.WrongSignatureIsFormatError
  intro s hrun hdraws h
  have hexec := exec_load_of_rejected hrun (hdraws.noFailureBelow _) h
  obtain ⟨hargs, houtputs⟩ := exec_load_frame hexec
  exact ⟨_, hexec, ⟨rfl, rfl, rfl⟩, rfl, hargs, houtputs,
    statusAfter_finish .formatError s.status⟩

end Sys2Proof.Machine
end

