-- ==== Sys2Proof/Proofs/LoadDecode.lean ====
section
/-! PROOFS. The byte-driven LOAD and the closed form `Decode` agree (`41_framing.md` R196 to R198). Both go through the
signature, the version, the width and the height in this order; the pixel stream is `readLoop_tokens`. -/

namespace Sys2Proof.Machine

open Sys2Proof

/-! ## STATUS while LOAD runs (R130, R184) -/

/-- STATUS inside a LOAD that began at STATUS `w`: both warnings cleared, then VWARN `b`. -/
def runningStatus (w : Word) (b : Bool) : Word := setVwarn (clearWarnings w) b

theorem runningStatus_getLsbD (w : Word) (b : Bool) (i : Nat) (hi : i < 32) :
    (runningStatus w b).getLsbD i =
      if i = 4 then b else if i = 5 then false else w.getLsbD i := by
  rw [runningStatus, setVwarn_getLsbD _ _ _ hi, clearWarnings_getLsbD _ _ hi]
  by_cases h4 : i = 4 <;> simp [h4]

theorem runningStatus_false (w : Word) : runningStatus w false = clearWarnings w := by
  refine BitVec.eq_of_getLsbD_eq fun i hi => ?_
  rw [runningStatus_getLsbD _ _ _ hi, clearWarnings_getLsbD _ _ hi]
  by_cases h4 : i = 4 <;> simp [h4]

theorem setVwarn_runningStatus (w : Word) (b c : Bool) :
    setVwarn (runningStatus w b) c = runningStatus w c := by
  refine BitVec.eq_of_getLsbD_eq fun i hi => ?_
  rw [setVwarn_getLsbD _ _ _ hi, runningStatus_getLsbD _ _ _ hi, runningStatus_getLsbD _ _ _ hi]
  by_cases h4 : i = 4 <;> simp [h4]

/-- STATUS of a LOAD that ends by `finish(code)`. -/
theorem statusAfter_runningStatus (c : ResultCode) (w : Word) (b trunc : Bool) :
    StatusAfter c b trunc w
      (setCode (if trunc then setTrunc (runningStatus w b) true else runningStatus w b) c) := by
  intro i hi
  rw [setCode_getLsbD _ _ _ hi]
  cases trunc
  · rw [if_neg Bool.false_ne_true, runningStatus_getLsbD _ _ _ hi]
  · rw [if_pos rfl, setTrunc_getLsbD _ _ _ hi, runningStatus_getLsbD _ _ _ hi]
    by_cases h5 : i = 5 <;> simp [h5]

/-- STATUS of a LOAD that takes a fault. -/
theorem statusFaulted_runningStatus (c : Cause) (w : Word) (b : Bool) :
    StatusFaulted c b w (setFault (runningStatus w b) c) := by
  intro i hi
  rw [setFault_getLsbD _ _ _ hi, runningStatus_getLsbD _ _ _ hi]
  by_cases h4 : i = 4
  · subst h4; simp
  · by_cases h5 : i = 5
    · subst h5; simp
    · simp [h4, h5]

theorem withVersion_status {s : State} {w : Word} (v : Word) (h : s.status = clearWarnings w) :
    (withVersion v s).status = runningStatus w (versionDiffers v) := by
  cases hv : versionDiffers v with
  | false => simp [withVersion, hv, h, runningStatus_false]
  | true => simp [withVersion, hv, h, runningStatus]

/-! ## `Decode` field by field (R197) -/

theorem exists_append_of_le_length {n : Nat} {bs : List Byte} (h : n ≤ bs.length) :
    ∃ as rest, bs = as ++ rest ∧ as.length = n :=
  ⟨bs.take n, bs.drop n, (List.take_append_drop n bs).symm, List.length_take_of_le h⟩

section Fields

variable {c : Config} {room : Nat} {v w h rest : List Byte}

theorem decodeRest_short (hlen : rest.length < 4) :
    decodeRest c room rest = ⟨none, none, [], false, true, none⟩ := by
  simp [decodeRest, hlen]

theorem decodeRest_version (hv : v.length = 4) (hlen : rest.length < 4) :
    decodeRest c room (v ++ rest) =
      ⟨none, none, [], versionDiffers (unLE32 v), true, none⟩ := by
  simp only [decodeRest, List.length_append, hv]
  rw [if_neg (by omega), if_pos (by omega), List.take_left' hv]
  rfl

theorem decodeRest_width (hv : v.length = 4) (hw : w.length = 4) (hlen : rest.length < 4) :
    decodeRest c room (v ++ (w ++ rest)) =
      ⟨some (unLE32 w), none, [], versionDiffers (unLE32 v), true, none⟩ := by
  simp only [decodeRest, List.length_append, hv, hw]
  rw [if_neg (by omega), if_neg (by omega), if_pos (by omega), List.take_left' hv,
    List.drop_left' hv, List.take_left' hw]
  rfl

/-- What the token loop gives for the pixel stream `body` (R197). -/
def bodyTokens (c : Config) (room : Nat) (body : List Byte) : TokenResult :=
  decodeTokens c room (cutTokens c.tokenLen body) [] 0 []

theorem decodeRest_body (hv : v.length = 4) (hw : w.length = 4) (hh : h.length = 4) :
    decodeRest c room (v ++ (w ++ (h ++ rest))) =
      ⟨some (unLE32 w), some (unLE32 h), (bodyTokens c room rest).px, versionDiffers (unLE32 v),
        decide (rest.length % c.tokenLen ≠ 0) || (bodyTokens c room rest).leftover,
        (bodyTokens c room rest).fault⟩ := by
  have hheight : (v ++ (w ++ (h ++ rest))).drop 8 = h ++ rest := by
    rw [← List.append_assoc, List.drop_left' (by rw [List.length_append, hv, hw])]
  have hbody : (v ++ (w ++ (h ++ rest))).drop 12 = rest := by
    rw [show 12 = 8 + 4 from rfl, ← List.drop_drop, hheight, List.drop_left' hh]
  simp only [decodeRest, hheight, hbody, List.length_append, hv, hw, hh]
  rw [if_neg (by omega), if_neg (by omega), if_neg (by omega), List.take_left' hv,
    List.drop_left' hv, List.take_left' hw, List.take_left' hh]
  rfl

theorem decodeFrame_of_rejected {bytes : List Byte}
    (hrej : bytes.length < c.sigLen ∨ bytes.take c.sigLen ≠ c.sig) :
    decodeFrame c room bytes = none := by
  rw [decodeFrame, if_pos (by simpa using hrej)]

theorem decodeFrame_of_signature :
    decodeFrame c room (c.sig ++ rest) = some (decodeRest c room rest) := by
  simp [decodeFrame, Config.sigLen]

/-- The version is nothing but VWARN to `Decode` (R196). -/
theorem decodeRest_versions {v' : List Byte} (hv : v.length = 4) (hv' : v'.length = 4) :
    decodeRest c room (v ++ rest) =
      { decodeRest c room (v' ++ rest) with vwarn := versionDiffers (unLE32 v) } := by
  by_cases hshort : rest.length < 4
  · rw [decodeRest_version hv hshort, decodeRest_version hv' hshort]
  obtain ⟨w, rest, rfl, hw⟩ := exists_append_of_le_length (Nat.le_of_not_lt hshort)
  by_cases hshort : rest.length < 4
  · rw [decodeRest_width hv hw hshort, decodeRest_width hv' hw hshort]
  obtain ⟨h, rest, rfl, hh⟩ := exists_append_of_le_length (Nat.le_of_not_lt hshort)
  rw [decodeRest_body hv hw hh, decodeRest_body hv' hw hh]

theorem decodeRest_versions_vwarn (hv : v.length = 4) :
    (decodeRest c room (v ++ rest)).vwarn = versionDiffers (unLE32 v) := by
  rw [decodeRest_versions hv hv]

end Fields

/-! ## LOAD after the signature -/

/-- What `Decode`'s result `r` says of the end `t` of a LOAD that began at STATUS `w` and is in state `s` after its
signature: the part of `LoadOutcome` for a signature that matches. -/
def FrameOutcome (w : Word) (r : FrameResult) (s t : State) : Prop :=
  t.width = r.w.getD s.width ∧ t.height = r.h.getD s.height ∧ t.pixbuf = s.pixbuf ++ r.px ∧
    match r.fault with
    | none => t.result = BitVec.ofNat 32 r.px.length ∧ StatusAfter .ok r.vwarn r.trunc w t.status
    | some c => t.result = s.result ∧ StatusFaulted c r.vwarn w t.status

/-- A stream that ends inside the header (R191). -/
theorem headerCutShort_outcome {w : Word} {b : Bool} {s t : State} (fw fh : Option Word)
    (hstatus : t.status = runningStatus w b) (hw : t.width = fw.getD s.width)
    (hh : t.height = fh.getD s.height) (hbuf : t.pixbuf = s.pixbuf) :
    FrameOutcome w ⟨fw, fh, [], b, true, none⟩ s (headerCutShort t) := by
  refine ⟨hw, hh, by simpa [headerCutShort] using hbuf, rfl, ?_⟩
  have := statusAfter_runningStatus .ok w b true
  rwa [← hstatus] at this

theorem gridTail_isEmpty (t : Nat) (body : List Byte) :
    (!(gridTail t body).isEmpty) = decide (body.length % t ≠ 0) := by
  rw [← gridTail_length]
  cases gridTail t body <;> simp

/-- A stream that reaches the pixels (R187 to R191). -/
theorem readLoop_body {body : List Byte} {pos : Nat} {s : State} (ht : 1 ≤ s.cfg.tokenLen)
    (hok : ∀ i, s.inDraws.xferFails i = false) :
    ∃ t, readLoop loadByte loadEnd body (beginning .body pos body s) = .ended t ∧
      TokenOutcome s.pixbuf (gridTail s.cfg.tokenLen body)
        (bodyTokens s.cfg (s.cfg.maxPixels - s.pixbuf.length) body) s t := by
  have hsplit := flatten_cutTokens_append_gridTail s.cfg.tokenLen ht body
  have htail : (gridTail s.cfg.tokenLen body).length < s.cfg.tokenLen := by
    rw [gridTail_length]
    exact Nat.mod_lt _ ht
  have h := readLoop_tokens s.pixbuf [] (cutTokens s.cfg.tokenLen body)
    (gridTail s.cfg.tokenLen body) (beginning .body pos body s) ht
    (fun tok => length_of_mem_cutTokens _ body tok) htail rfl rfl hsplit.symm hok
    (List.append_nil _).symm rfl
  rwa [hsplit] at h

theorem TokenOutcome.frameOutcome {w v dw dh : Word} {body : List Byte} {s t : State}
    {r : TokenResult} (hs : s.status = clearWarnings w)
    (h : TokenOutcome s.pixbuf (gridTail s.cfg.tokenLen body) r
      (withHeight dh (withWidth dw (withVersion v s))) t) :
    FrameOutcome w ⟨some dw, some dh, r.px, versionDiffers v,
      decide (body.length % s.cfg.tokenLen ≠ 0) || r.leftover, r.fault⟩ s t := by
  obtain ⟨hw, hh, hbuf, hend⟩ := h
  have hrunning : (withHeight dh (withWidth dw (withVersion v s))).status =
      runningStatus w (versionDiffers v) := withVersion_status v hs
  rw [hrunning, gridTail_isEmpty, Bool.or_comm r.leftover] at hend
  refine ⟨hw, hh, hbuf, ?_⟩
  cases hfault : r.fault with
  | none =>
    rw [hfault] at hend
    obtain ⟨hresult, hstatus⟩ := hend
    exact ⟨hresult, hstatus ▸ statusAfter_runningStatus .ok w _ _⟩
  | some c =>
    rw [hfault] at hend
    obtain ⟨hresult, hstatus⟩ := hend
    exact ⟨hresult, hstatus ▸ statusFaulted_runningStatus c w _⟩

/-- After the signature LOAD and `Decode` go the same way, field by field (R198). -/
theorem readLoop_decodeRest {rest : List Byte} {pos : Nat} {w : Word} {s : State}
    (ht : 1 ≤ s.cfg.tokenLen) (hok : ∀ i, s.inDraws.xferFails i = false)
    (hs : s.status = clearWarnings w) :
    ∃ t, readLoop loadByte loadEnd rest (beginning .ver pos rest s) = .ended t ∧
      FrameOutcome w (decodeRest s.cfg (s.cfg.maxPixels - s.pixbuf.length) rest) s t := by
  by_cases hshort : rest.length < 4
  · rw [decodeRest_short hshort]
    exact ⟨_, readLoop_header_cut (.inl rfl) hshort hok,
      headerCutShort_outcome none none (hs.trans (runningStatus_false w).symm) rfl rfl rfl⟩
  obtain ⟨v, rest, rfl, hv⟩ := exists_append_of_le_length (Nat.le_of_not_lt hshort)
  have hversion := withVersion_status (unLE32 v) hs
  rw [readLoop_version hv hok]
  by_cases hshort : rest.length < 4
  · rw [decodeRest_version hv hshort]
    exact ⟨_, readLoop_header_cut (.inr (.inl rfl)) hshort hok,
      headerCutShort_outcome none none hversion rfl rfl rfl⟩
  obtain ⟨dw, rest, rfl, hdw⟩ := exists_append_of_le_length (Nat.le_of_not_lt hshort)
  rw [readLoop_width (s := withVersion (unLE32 v) s) hdw hok]
  by_cases hshort : rest.length < 4
  · rw [decodeRest_width hv hdw hshort]
    exact ⟨_, readLoop_header_cut (.inr (.inr rfl)) hshort hok,
      headerCutShort_outcome (some _) none hversion rfl rfl rfl⟩
  obtain ⟨dh, rest, rfl, hdh⟩ := exists_append_of_le_length (Nat.le_of_not_lt hshort)
  rw [readLoop_height (s := withWidth (unLE32 dw) (withVersion (unLE32 v) s)) hdh hok,
    decodeRest_body hv hdw hdh]
  obtain ⟨t, hrun, hout⟩ := readLoop_body (body := rest) (pos := pos + 4 + 4 + 4)
    (s := withHeight (unLE32 dh) (withWidth (unLE32 dw) (withVersion (unLE32 v) s))) ht hok
  exact ⟨t, hrun, hout.frameOutcome hs⟩

/-! ## The statements -/

theorem sig_ne_nil_of_wf {c : Config} (h : c.wf = true) : c.sig ≠ [] := by
  rintro hnil
  simp [Config.wf, Config.sigOk, hnil] at h

/-- Settles O28: a rejected signature is `⊥` on both sides, and after a signature that matches the two go the same way. -/
theorem loadMatchesDecode : Obligations.LoadMatchesDecode := by
  unfold Obligations.LoadMatchesDecode
  intro s hrun hwf hdraws
  by_cases hrej : s.input.length < s.cfg.sigLen ∨ s.input.take s.cfg.sigLen ≠ s.cfg.sig
  · have hexec := exec_load_of_rejected hrun (hdraws.noFailureBelow _) hrej
    refine ⟨_, hexec, ?_, exec_load_frame hexec⟩
    rw [LoadOutcome, decodeFrame_of_rejected hrej]
    exact ⟨⟨rfl, rfl, rfl⟩, rfl, statusAfter_finish .formatError s.status⟩
  · obtain ⟨_, hsig⟩ := not_or.mp hrej
    have hin : s.input = s.cfg.sig ++ s.input.drop s.cfg.sigLen := by
      rw [← not_not.mp hsig, List.take_append_drop]
    have hexec := exec_load_of_signature hrun (sig_ne_nil_of_wf hwf) (hdraws.noFailureBelow _) hin
    obtain ⟨t, hloop, hout⟩ := readLoop_decodeRest (rest := s.input.drop s.cfg.sigLen)
      (pos := s.cfg.sigLen) (w := s.status) (s := withBase (startCommand s))
      (tokenLen_pos_of_wf hwf) hdraws.xferFails rfl
    refine ⟨_, hexec, ?_, exec_load_frame hexec⟩
    rw [hloop, LoadOutcome, hin, decodeFrame_of_signature]
    exact hout

/-- A LOAD of a stream that begins with the signature, by `Decode` on the rest (R198). -/
theorem exec_load_decodeRest {s : State} (hrun : s.faulted = false) (hwf : s.cfg.wf = true)
    (hdraws : NoDraws s.inDraws) {rest : List Byte} (hin : s.input = s.cfg.sig ++ rest) :
    ∃ t, exec .load s = .next t ∧
      FrameOutcome s.status (decodeRest s.cfg (loadRoom s) rest) (withBase s) t := by
  obtain ⟨t, hexec, hout, _⟩ := loadMatchesDecode s hrun hwf hdraws
  rw [LoadOutcome, hin, decodeFrame_of_signature] at hout
  exact ⟨t, hexec, hout⟩

theorem StatusAfter.eq_but_vwarn {c : ResultCode} {b b' trunc : Bool} {w v v' : Word}
    (h : StatusAfter c b trunc w v) (h' : StatusAfter c b' trunc w v') :
    ∀ i, i < 32 → i ≠ 4 → v.getLsbD i = v'.getLsbD i := by
  intro i hi h4
  rw [h i hi, h' i hi, if_neg h4, if_neg h4]

theorem StatusFaulted.eq_but_vwarn {c : Cause} {b b' : Bool} {w v v' : Word}
    (h : StatusFaulted c b w v) (h' : StatusFaulted c b' w v') :
    ∀ i, i < 32 → i ≠ 4 → v.getLsbD i = v'.getLsbD i := by
  intro i hi h4
  rw [h i hi, h' i hi, if_neg h4, if_neg h4]

/-- Results of `Decode` that differ at most in `vwarn` leave the same but for VWARN. -/
theorem FrameOutcome.eq_but_vwarn {w : Word} {r : FrameResult} {b : Bool} {s t u : State}
    (ht : FrameOutcome w { r with vwarn := b } s t) (hu : FrameOutcome w r s u) :
    SameImage u t ∧ t.result = u.result ∧
      ∀ i, i < 32 → i ≠ 4 → t.status.getLsbD i = u.status.getLsbD i := by
  obtain ⟨htw, hth, htbuf, htend⟩ := ht
  obtain ⟨huw, huh, hubuf, huend⟩ := hu
  refine ⟨⟨htw.trans huw.symm, hth.trans huh.symm, htbuf.trans hubuf.symm⟩, ?_⟩
  cases hfault : r.fault with
  | none =>
    simp only [hfault] at htend huend
    obtain ⟨htresult, htstatus⟩ := htend
    obtain ⟨huresult, hustatus⟩ := huend
    exact ⟨htresult.trans huresult.symm, htstatus.eq_but_vwarn hustatus⟩
  | some c =>
    simp only [hfault] at htend huend
    obtain ⟨htresult, htstatus⟩ := htend
    obtain ⟨huresult, hustatus⟩ := huend
    exact ⟨htresult.trans huresult.symm, htstatus.eq_but_vwarn hustatus⟩

theorem FrameOutcome.statusVwarn_eq {w : Word} {r : FrameResult} {s t : State}
    (h : FrameOutcome w r s t) : statusVwarn t.status = r.vwarn := by
  obtain ⟨_, _, _, hend⟩ := h
  cases hfault : r.fault with
  | none =>
    simp only [hfault] at hend
    obtain ⟨_, hstatus⟩ := hend
    exact hstatus 4 (by omega)
  | some c =>
    simp only [hfault] at hend
    obtain ⟨_, hstatus⟩ := hend
    exact hstatus 4 (by omega)

/-- Settles O32: by O28 both LOADs are `Decode`, to which the version is nothing but VWARN. -/
theorem versionMismatchOnlyWarns : Obligations.VersionMismatchOnlyWarns := by
  unfold Obligations.VersionMismatchOnlyWarns
  intro s v rest hrun hwf hdraws
  obtain ⟨t, htexec, ht⟩ := exec_load_decodeRest (s := { s with input := s.cfg.sig ++ le32 v ++ rest })
    hrun hwf hdraws (List.append_assoc _ _ _)
  obtain ⟨u, huexec, hu⟩ := exec_load_decodeRest
    (s := { s with input := s.cfg.sig ++ le32 Config.version ++ rest }) hrun hwf hdraws
    (List.append_assoc _ _ _)
  have htwarn : statusVwarn t.status = versionDiffers v := by
    rw [ht.statusVwarn_eq, decodeRest_versions_vwarn (length_le32 v), unLE32_le32]
  have huwarn : statusVwarn u.status = versionDiffers Config.version := by
    rw [hu.statusVwarn_eq, decodeRest_versions_vwarn (length_le32 _), unLE32_le32]
  rw [decodeRest_versions (length_le32 v) (length_le32 Config.version)] at ht
  obtain ⟨himage, hresult, hbits⟩ := FrameOutcome.eq_but_vwarn ht hu
  exact ⟨t, u, htexec, huexec, himage, hresult, hbits, htwarn, huwarn⟩

end Sys2Proof.Machine
end

