-- ==== Sys2Proof/Proofs/LoadReadFailure.lean ====
section
/-! PROOFS. A read failure in LOAD (`41_framing.md` R193). A byte has the same effect whatever comes after it and whatever
the draws are; so a LOAD whose read fails at `p` and a LOAD of the bytes before `p` alone go together through those bytes,
and part only there, one into IO_ERROR and the other into the end of its stream. -/

namespace Sys2Proof.Machine

open Sys2Proof

/-! ## One byte does not see the stream it comes from -/

/-- `f` on the state a command has come to. -/
def Flow.map (f : State → State) : Flow → Flow
  | .more s => .more (f s)
  | .ended s => .ended (f s)

theorem loadByte_of_complete {b : Byte} {s : State}
    (h : (s.dec.acc ++ [b]).length = need s.cfg s.dec.phase) :
    loadByte b s = completeField (s.dec.acc ++ [b]) s := if_pos h

theorem loadByte_of_incomplete {b : Byte} {s : State}
    (h : (s.dec.acc ++ [b]).length ≠ need s.cfg s.dec.phase) :
    loadByte b s = .more { s with dec := { s.dec with acc := s.dec.acc ++ [b] } } := if_neg h

section Attached

variable (bytes : List Byte) (d : Draws)

theorem completeSig_attachInput (acc : List Byte) (s : State) :
    completeSig acc (attachInput bytes d s) = (completeSig acc s).map (attachInput bytes d) := by
  by_cases h : acc = s.cfg.sig <;> simp [completeSig, h, Flow.map] <;> rfl

theorem pixAppend_attachInput (p : Pixel) (s : State) :
    pixAppend p (attachInput bytes d s) = (pixAppend p s).map (attachInput bytes d) := by
  by_cases h : s.cfg.maxPixels ≤ s.pixbuf.length <;> simp [pixAppend, h, Flow.map] <;> rfl

theorem emitChannels_attachInput (ch : List Byte) (s : State) :
    emitChannels ch (attachInput bytes d s) = (emitChannels ch s).map (attachInput bytes d) := by
  unfold emitChannels
  split
  · next r g b =>
    rw [pixAppend_attachInput]
    cases pixAppend ⟨r, g, b⟩ s <;> rfl
  · rfl

theorem completeBody_attachInput (tok : List Byte) (s : State) :
    completeBody tok (attachInput bytes d s) =
      (completeBody tok s).map (attachInput bytes d) := by
  by_cases h : tok = s.cfg.term
  · subst h
    cases hc : chan s.cfg s.dec.run with
    | none =>
      rw [completeBody_overflow s hc]
      exact completeBody_overflow (attachInput bytes d s) hc
    | some c =>
      have hemit := emitChannels_attachInput bytes d (s.dec.ch ++ [c]) s
      simpa [completeBody, hc] using hemit
  · rw [completeBody_unit tok s h]
    exact completeBody_unit tok (attachInput bytes d s) h

theorem completeField_attachInput (acc : List Byte) (s : State) :
    completeField acc (attachInput bytes d s) =
      (completeField acc s).map (attachInput bytes d) := by
  cases h : s.dec.phase <;> simp only [completeField, h, attachInput_dec]
  case sig => exact completeSig_attachInput bytes d acc s
  case ver => rfl
  case wid => rfl
  case hgt => rfl
  case body => exact completeBody_attachInput bytes d acc s

theorem loadByte_attachInput (b : Byte) (s : State) :
    loadByte b (attachInput bytes d s) = (loadByte b s).map (attachInput bytes d) := by
  by_cases h : (s.dec.acc ++ [b]).length = need s.cfg s.dec.phase
  · rw [loadByte_of_complete h]
    exact (loadByte_of_complete (s := attachInput bytes d s) h).trans
      (completeField_attachInput bytes d _ s)
  · rw [loadByte_of_incomplete h]
    exact loadByte_of_incomplete (s := attachInput bytes d s) h

end Attached

/-! ## What one byte can do (R177) -/

/-- A LOAD that goes on has its RESULT and its draws, and STATUS is that of a running LOAD still. -/
def GoesOn (s t : State) : Prop :=
  t.result = s.result ∧ t.inDraws = s.inDraws ∧
    (t.status = s.status ∨ t.status = setVwarn s.status true)

/-- A flow of LOAD from `s` takes a fault or goes on: after the signature nothing else ends a byte. -/
def FaultsOrGoesOn (s : State) (f : Flow) : Prop :=
  (∃ c, f = .ended (raiseFault c s)) ∨ ∃ t, f = .more t ∧ GoesOn s t

theorem goesOn_of_unchanged {s t : State} (hresult : t.result = s.result)
    (hdraws : t.inDraws = s.inDraws) (hstatus : t.status = s.status) : GoesOn s t :=
  ⟨hresult, hdraws, .inl hstatus⟩

theorem emitChannels_faultsOrGoesOn (ch : List Byte) (s : State) :
    FaultsOrGoesOn s (emitChannels ch s) := by
  unfold emitChannels
  split
  · next r g b =>
    obtain ⟨_, e⟩ | ⟨_, e⟩ := pixAppend_cases ⟨r, g, b⟩ s <;> rw [e]
    · exact .inl ⟨.capacity, rfl⟩
    · exact .inr ⟨_, rfl, goesOn_of_unchanged rfl rfl rfl⟩
  · exact .inr ⟨_, rfl, goesOn_of_unchanged rfl rfl rfl⟩

theorem completeBody_faultsOrGoesOn (tok : List Byte) (s : State) :
    FaultsOrGoesOn s (completeBody tok s) := by
  unfold completeBody
  split
  · split
    · exact emitChannels_faultsOrGoesOn _ s
    · exact .inl ⟨.runOverflow, rfl⟩
  · exact .inr ⟨_, rfl, goesOn_of_unchanged rfl rfl rfl⟩

theorem completeField_faultsOrGoesOn (acc : List Byte) {s : State} (h : s.dec.phase ≠ .sig) :
    FaultsOrGoesOn s (completeField acc s) := by
  cases hphase : s.dec.phase <;> simp only [completeField, hphase]
  case sig => exact absurd hphase h
  case ver =>
    refine .inr ⟨_, rfl, rfl, rfl, ?_⟩
    cases versionDiffers (unLE32 acc)
    · exact .inl rfl
    · exact .inr rfl
  case wid => exact .inr ⟨_, rfl, goesOn_of_unchanged rfl rfl rfl⟩
  case hgt => exact .inr ⟨_, rfl, goesOn_of_unchanged rfl rfl rfl⟩
  case body => exact completeBody_faultsOrGoesOn acc s

theorem loadByte_faultsOrGoesOn (b : Byte) {s : State} (h : s.dec.phase ≠ .sig) :
    FaultsOrGoesOn s (loadByte b s) := by
  unfold loadByte
  split
  · exact completeField_faultsOrGoesOn _ h
  · exact .inr ⟨_, rfl, goesOn_of_unchanged rfl rfl rfl⟩

theorem nextPhase_ne_sig (ph : Phase) : nextPhase ph ≠ .sig := by cases ph <;> decide

theorem loadByte_more_phase_ne_sig {b : Byte} {s t : State} (hphase : s.dec.phase ≠ .sig)
    (h : loadByte b s = .more t) : t.dec.phase ≠ .sig := by
  obtain ⟨_, ht, _⟩ := loadByte_more h
  rw [ht]
  split
  · exact nextPhase_ne_sig _
  · exact hphase

/-! ## The two LOADs together -/

/-- LOAD after its signature: no fault yet, and only VWARN can have been set (R184). -/
def AfterSignature (w result : Word) (s : State) : Prop :=
  s.dec.phase ≠ .sig ∧ s.result = result ∧ ∃ b, s.status = runningStatus w b

theorem AfterSignature.phase_ne_sig {w result : Word} {s : State}
    (h : AfterSignature w result s) : s.dec.phase ≠ .sig := by
  obtain ⟨hphase, _⟩ := h
  exact hphase

theorem AfterSignature.of_loadByte {w result : Word} {b : Byte} {s t : State}
    (hs : AfterSignature w result s) (h : loadByte b s = .more t) (hgo : GoesOn s t) :
    AfterSignature w result t := by
  obtain ⟨hphase, hresult, warned, hstatus⟩ := hs
  obtain ⟨htresult, _, htstatus⟩ := hgo
  refine ⟨loadByte_more_phase_ne_sig hphase h, htresult.trans hresult, ?_⟩
  obtain e | e := htstatus
  · exact ⟨warned, e.trans hstatus⟩
  · exact ⟨true, by rw [e, hstatus, setVwarn_runningStatus]⟩

/-- The flow `f` of a LOAD whose read fails and the flow `g` of a LOAD of the bytes before: both took one fault,
or the first ends with IO_ERROR where the stream of the second ends. -/
def PartAtFailure (w result : Word) (f g : Flow) : Prop :=
  (∃ c u bytes, f = .ended (raiseFault c u) ∧
      g = .ended (attachInput bytes Draws.none (raiseFault c u))) ∨
    ∃ v, AfterSignature w result v ∧ f = .ended (finish .ioError v) ∧
      g = .ended (loadEnd (attachInput [] Draws.none v))

theorem readLoop_partAtFailure (bs : List Byte) (b : Byte) (rest : List Byte) {w result : Word}
    {s : State} (hs : AfterSignature w result s)
    (hok : ∀ j, j < bs.length → s.inDraws.xferFails (s.dec.pos + j) = false)
    (hfail : s.inDraws.xferFails (s.dec.pos + bs.length) = true) :
    PartAtFailure w result (readLoop loadByte loadEnd (bs ++ b :: rest) s)
      (readLoop loadByte loadEnd bs (attachInput bs Draws.none s)) := by
  induction bs generalizing s with
  | nil => exact .inr ⟨s, hs, readLoop_cons_of_fail _ _ _ _ _ hfail, rfl⟩
  | cons a bs ih =>
    have hread : s.inDraws.xferFails s.dec.pos = false := hok 0 (Nat.zero_lt_succ _)
    have hsame : loadByte a (consume bs (attachInput (a :: bs) Draws.none s)) =
        (loadByte a (consume (bs ++ b :: rest) s)).map (attachInput bs Draws.none) :=
      loadByte_attachInput bs Draws.none a (consume (bs ++ b :: rest) s)
    rw [List.cons_append, readLoop_cons_of_ok _ _ _ _ _ hread,
      readLoop_cons_of_ok _ _ _ _ _ (noDraws_none.xferFails _), hsame]
    have hphase := hs.phase_ne_sig
    obtain ⟨c, e⟩ | ⟨t, e, hgo⟩ :=
      loadByte_faultsOrGoesOn a (s := consume (bs ++ b :: rest) s) hphase <;> rw [e]
    · exact .inl ⟨c, _, bs, rfl, rfl⟩
    · have ht := AfterSignature.of_loadByte (s := consume (bs ++ b :: rest) s) hs e hgo
      obtain ⟨_, hdraws, _⟩ := hgo
      obtain ⟨hpos, _⟩ := loadByte_more e
      have hnext (j : Nat) :
          t.inDraws.xferFails (t.dec.pos + j) = s.inDraws.xferFails (s.dec.pos + (j + 1)) := by
        rw [hdraws, hpos, consume_inDraws, consume_dec, Nat.add_assoc, Nat.add_comm 1]
      exact ih ht (fun j hj => (hnext j).trans (hok (j + 1) (Nat.succ_lt_succ hj)))
        ((hnext bs.length).trans hfail)

/-- The exhaustion stores nothing, and warns of no version (R191). -/
theorem loadEnd_keeps (s : State) :
    (loadEnd s).width = s.width ∧ (loadEnd s).height = s.height ∧
      (loadEnd s).pixbuf = s.pixbuf ∧ statusVwarn (loadEnd s).status = statusVwarn s.status ∧
      (loadEnd s).faulted = s.faulted := by
  unfold loadEnd
  cases s.dec.phase with
  | body => cases h : bodyLeftover s.dec <;> simp [State.faulted]
  | sig | ver | wid | hgt => simp [headerCutShort, State.faulted]

/-! ## Where the read fails -/

/-- The LOAD from `s` ends with IO_ERROR and keeps what the LOAD of the bytes before the failure, which ends in `t`,
has stored (R193). -/
def KeepsEffectsOf (s t : State) : Prop :=
  ∃ u, exec .load s = .next u ∧ u.width = t.width ∧ u.height = t.height ∧ u.pixbuf = t.pixbuf ∧
    u.result = s.result ∧ SameArgs s u ∧ SameOutputs s u ∧
    StatusAfter .ioError (statusVwarn t.status) false s.status u.status

theorem statusFault_runningStatus (w : Word) (b : Bool) :
    statusFault (runningStatus w b) = statusFault w := by
  simp [runningStatus]

theorem statusVwarn_runningStatus (w : Word) (b : Bool) : statusVwarn (runningStatus w b) = b :=
  statusVwarn_setVwarn _ b

/-- The bytes before a failure, alone on a stream without draws. -/
def prefixOnly (p : Nat) (s : State) : State := attachInput (s.input.take p) Draws.none s

/-- A read that fails inside the signature finds no effect to keep. -/
theorem exec_load_of_signature_failure {s : State} {p : Nat} (hrun : s.faulted = false)
    (hfail : FirstFailure s.inDraws p) (hp : p < s.input.length) (hshort : p < s.cfg.sigLen) :
    exec .load s = .next (closeInput (finish .ioError (startCommand s))) := by
  obtain ⟨hopen, hfails, hok⟩ := hfail
  have hlen : (s.input.take p).length = p := List.length_take_of_le hp.le
  have hpart := readLoop_part (ph := .sig) (bs := s.input.take p) (rest := s.input.drop p)
    (pos := 0) (s := startCommand s) (hlen.trans_lt hshort)
    fun j hj => by simpa using hok j (hlen ▸ hj)
  rw [List.take_append_drop, List.drop_eq_getElem_cons hp, readLoop_cons_of_fail] at hpart
  · rw [exec_load_of_open hrun hopen, hpart]
    rfl
  · simpa [gathered, beginning, hlen] using hfails

theorem keepsEffectsOf_rejected {s : State} {p : Nat} (hrun : s.faulted = false)
    (hfail : FirstFailure s.inDraws p) (hp : p < s.input.length) (hshort : p < s.cfg.sigLen) :
    KeepsEffectsOf s (rejected (prefixOnly p s)) := by
  have hexec := exec_load_of_signature_failure hrun hfail hp hshort
  obtain ⟨hargs, houtputs⟩ := exec_load_frame hexec
  have hvwarn : statusVwarn (rejected (prefixOnly p s)).status = false := by simp [rejected]
  exact ⟨_, hexec, rfl, rfl, rfl, rfl, hargs, houtputs,
    hvwarn ▸ statusAfter_finish .ioError s.status⟩

/-- A LOAD of the bytes before the failure that rejects them. -/
theorem exec_load_prefixOnly_of_rejected {s t : State} {p : Nat} (hrun : s.faulted = false)
    (h : (s.input.take p).length < s.cfg.sigLen ∨
      (s.input.take p).take s.cfg.sigLen ≠ s.cfg.sig)
    (ht : exec .load (prefixOnly p s) = .next t) :
    t = rejected (prefixOnly p s) ∧ t.faulted = false := by
  have hexec := exec_load_of_rejected (s := prefixOnly p s) hrun (noDraws_none.noFailureBelow _) h
  obtain rfl := Host.Outcome.next.inj (ht.symm.trans hexec)
  exact ⟨rfl, (rejected_faulted (prefixOnly p s)).trans hrun⟩

/-- A stream with a signature that matches, cut at a byte after it. -/
theorem input_eq_of_signature {s : State} {p : Nat} (hp : p < s.input.length)
    (hle : s.cfg.sigLen ≤ p) (hsig : s.input.take s.cfg.sigLen = s.cfg.sig) :
    ∃ bs, s.cfg.sigLen + bs.length = p ∧ s.input.take p = s.cfg.sig ++ bs ∧
      s.input = s.cfg.sig ++ (bs ++ s.input[p] :: s.input.drop (p + 1)) := by
  have htake : (s.input.take p).take s.cfg.sigLen = s.cfg.sig := by
    rw [List.take_take, min_eq_left hle, hsig]
  have hpre : s.input.take p = s.cfg.sig ++ (s.input.take p).drop s.cfg.sigLen := by
    rw [← htake, List.take_append_drop]
  refine ⟨(s.input.take p).drop s.cfg.sigLen, ?_, hpre, ?_⟩
  · rw [List.length_drop, List.length_take_of_le hp.le, Nat.add_sub_cancel' hle]
  · rw [← List.append_assoc, ← hpre, ← List.drop_eq_getElem_cons hp, List.take_append_drop]

/-- Both LOADs after a signature that matches. -/
theorem exec_load_partAtFailure {s t : State} {p : Nat} (hrun : s.faulted = false)
    (hwf : s.cfg.wf = true) (hfail : FirstFailure s.inDraws p) (hp : p < s.input.length)
    (hle : s.cfg.sigLen ≤ p) (hsig : s.input.take s.cfg.sigLen = s.cfg.sig)
    (ht : exec .load (prefixOnly p s) = .next t) :
    ∃ f g, PartAtFailure s.status s.result f g ∧ exec .load s = .next (closeInput f.state) ∧
      t = closeInput g.state := by
  obtain ⟨hopen, hfails, hok⟩ := hfail
  obtain ⟨bs, hlen, hpre, hin⟩ := input_eq_of_signature hp hle hsig
  have hexec := exec_load_of_signature hrun (sig_ne_nil_of_wf hwf)
    ⟨hopen, fun j hj => hok j (hj.trans_le hle)⟩ hin
  have hprefix := exec_load_of_signature (s := prefixOnly p s) hrun (sig_ne_nil_of_wf hwf)
    (noDraws_none.noFailureBelow _) hpre
  have hafter : AfterSignature s.status s.result (beginning .ver s.cfg.sigLen
      (bs ++ s.input[p] :: s.input.drop (p + 1)) (withBase (startCommand s))) :=
    ⟨Phase.noConfusion, rfl, false, (runningStatus_false _).symm⟩
  have hpart := readLoop_partAtFailure bs s.input[p] (s.input.drop (p + 1)) hafter
    (fun j hj => hok (s.cfg.sigLen + j) (by omega))
    (show s.inDraws.xferFails (s.cfg.sigLen + bs.length) = true from hlen.symm ▸ hfails)
  exact ⟨_, _, hpart, hexec, Host.Outcome.next.inj (ht.symm.trans hprefix)⟩

/-- Where the stream of the second LOAD ends, the first ends with IO_ERROR. -/
theorem AfterSignature.keepsEffectsOf {s v t : State} (hrun : s.faulted = false)
    (hv : AfterSignature s.status s.result v)
    (hexec : exec .load s = .next (closeInput (finish .ioError v)))
    (ht : t = closeInput (loadEnd (attachInput [] Draws.none v))) :
    t.faulted = false ∧ KeepsEffectsOf s t := by
  obtain ⟨_, hresult, b, hstatus⟩ := hv
  obtain ⟨hw, hh, hbuf, hvwarn, hfault⟩ := loadEnd_keeps (attachInput [] Draws.none v)
  obtain ⟨hargs, houtputs⟩ := exec_load_frame hexec
  have hwarned : statusVwarn t.status = b := by
    rw [ht, closeInput_status, hvwarn, attachInput_status, hstatus, statusVwarn_runningStatus]
  have hrunning : (loadEnd (attachInput [] Draws.none v)).faulted = false := by
    rw [hfault, State.faulted, attachInput_status, hstatus, statusFault_runningStatus]
    exact hrun
  have hend : (closeInput (finish .ioError v)).status =
      setCode (runningStatus s.status b) .ioError := by
    rw [closeInput_status, finish_status, hstatus]
  refine ⟨ht ▸ hrunning, _, hexec, ht ▸ hw.symm, ht ▸ hh.symm, ht ▸ hbuf.symm, hresult, hargs,
    houtputs, ?_⟩
  rw [hwarned, hend]
  exact statusAfter_runningStatus .ioError s.status b false

/-- A read that fails after a signature that matches: one fault in both LOADs, or the effects of the second kept by
the first. -/
theorem exec_load_of_failure_after_signature {s t : State} {p : Nat} (hrun : s.faulted = false)
    (hwf : s.cfg.wf = true) (hfail : FirstFailure s.inDraws p) (hp : p < s.input.length)
    (hle : s.cfg.sigLen ≤ p) (hsig : s.input.take s.cfg.sigLen = s.cfg.sig)
    (ht : exec .load (prefixOnly p s) = .next t) :
    (t.faulted = true ∧ exec .load s = .next t) ∨ (t.faulted = false ∧ KeepsEffectsOf s t) := by
  obtain ⟨_, _, ⟨c, u, bytes, rfl, rfl⟩ | ⟨v, hv, rfl, rfl⟩, hexec, hend⟩ :=
    exec_load_partAtFailure hrun hwf hfail hp hle hsig ht
  · exact .inl ⟨hend ▸ raiseFault_faulted c u, hend ▸ hexec⟩
  · exact .inr (hv.keepsEffectsOf hrun hexec hend)

/-- Settles O30: the read fails inside the signature, after one that is rejected, or after one that matches. -/
theorem loadReadFailureKeepsPrefixEffects : Obligations.LoadReadFailureKeepsPrefixEffects := by
  unfold Obligations.LoadReadFailureKeepsPrefixEffects
  intro s t p hrun hwf hfail hp ht
  have hlen : (s.input.take p).length = p := List.length_take_of_le hp.le
  by_cases hshort : p < s.cfg.sigLen
  · obtain ⟨rfl, hnofault⟩ := exec_load_prefixOnly_of_rejected hrun (.inl (hlen.trans_lt hshort)) ht
    refine ⟨?_, fun _ => keepsEffectsOf_rejected hrun hfail hp hshort⟩
    rintro (hfault | ⟨hle, _⟩)
    · exact absurd hfault (by simp [hnofault])
    · exact absurd hshort (Nat.not_lt.mpr hle)
  have hle := Nat.le_of_not_lt hshort
  by_cases hsig : s.input.take s.cfg.sigLen = s.cfg.sig
  · obtain ⟨hfault, hexec⟩ | ⟨hnofault, hkeeps⟩ :=
      exec_load_of_failure_after_signature hrun hwf hfail hp hle hsig ht
    · refine ⟨fun _ => hexec, ?_⟩
      rintro ⟨hnofault, _⟩
      exact absurd hfault (by simp [hnofault])
    · refine ⟨?_, fun _ => hkeeps⟩
      rintro (hfault | ⟨_, hne⟩)
      · exact absurd hfault (by simp [hnofault])
      · exact absurd hsig hne
  · have htake : (s.input.take p).take s.cfg.sigLen ≠ s.cfg.sig := by
      rwa [List.take_take, min_eq_left hle]
    obtain ⟨rfl, hnofault⟩ := exec_load_prefixOnly_of_rejected hrun (.inr htake) ht
    obtain ⟨hopen, _, hok⟩ := hfail
    refine ⟨fun _ => exec_load_of_rejected hrun ⟨hopen, fun j hj => hok j (by omega)⟩ (.inr hsig),
      ?_⟩
    rintro ⟨_, hlt | heq⟩
    · exact absurd hlt hshort
    · exact absurd heq hsig

end Sys2Proof.Machine
end

