-- ==== Sys2Proof/Proofs/ChannelTokens.lean ====
section
/-! PROOFS. An encoded pixel sequence as tokens (`42_channel_codec.md` R220, R226): the token grid of a pixel stream is the
tokens of its channels in order, and the token loop of `Decode` takes the pixels back out of them. -/

namespace Sys2Proof.Machine

open Sys2Proof

/-- The tokens of `ChanEnc(v)` (R220). -/
def chanTokens (c : Config) (v : Byte) : List (List Byte) :=
  List.replicate v.toNat c.unit ++ [c.term]

/-- The tokens of a pixel (`30_encoding.md` R97). -/
def pixelTokens (c : Config) (p : Pixel) : List (List Byte) :=
  chanTokens c p.r ++ (chanTokens c p.g ++ chanTokens c p.b)

theorem flatten_chanTokens (c : Config) (v : Byte) : (chanTokens c v).flatten = chanEnc c v := by
  simp [chanTokens, chanEnc]

theorem flatten_pixelTokens (c : Config) (p : Pixel) :
    (pixelTokens c p).flatten = pixelEnc c p := by
  simp only [pixelTokens, List.flatten_append, flatten_chanTokens, pixelEnc, List.append_assoc]

theorem flatten_flatMap_pixelTokens (c : Config) (ps : List Pixel) :
    (ps.flatMap (pixelTokens c)).flatten = pixelStream c ps := by
  induction ps with
  | nil => rfl
  | cons p ps ih =>
    rw [List.flatMap_cons, List.flatten_append, flatten_pixelTokens, ih, pixelStream, pixelStream,
      List.map_cons, List.flatten_cons]

theorem length_of_mem_chanTokens {c : Config} (hunit : c.unit.length = c.tokenLen) {v : Byte}
    {tok : List Byte} (h : tok ∈ chanTokens c v) : tok.length = c.tokenLen := by
  obtain h | h := List.mem_append.mp h
  · rw [List.eq_of_mem_replicate h, hunit]
  · rw [List.mem_singleton.mp h, Config.tokenLen]

theorem length_of_mem_pixelTokens {c : Config} (hunit : c.unit.length = c.tokenLen) {p : Pixel}
    {tok : List Byte} (h : tok ∈ pixelTokens c p) : tok.length = c.tokenLen := by
  simp only [pixelTokens, List.mem_append] at h
  obtain h | h | h := h <;> exact length_of_mem_chanTokens hunit h

/-- The grid of a pixel stream is the tokens it was written from. -/
theorem cutTokens_pixelStream {c : Config} (ht : 1 ≤ c.tokenLen)
    (hunit : c.unit.length = c.tokenLen) (ps : List Pixel) :
    cutTokens c.tokenLen (pixelStream c ps) = ps.flatMap (pixelTokens c) := by
  have hgrid := cutTokens_flatten_append c.tokenLen ht (ps.flatMap (pixelTokens c))
    (fun tok htok => by
      obtain ⟨p, _, hp⟩ := List.mem_flatMap.mp htok
      exact length_of_mem_pixelTokens hunit hp) []
  rw [List.append_nil, cutTokens_short _ [] ht, List.append_nil,
    flatten_flatMap_pixelTokens] at hgrid
  exact hgrid

/-! ## The token loop on encoded channels (R188 to R190, R223) -/

/-- A run as long as a channel value is that value (R223). -/
theorem chan_toNat (c : Config) (v : Byte) : chan c v.toNat = some v := by
  have hv : v.toNat ≤ 255 := Nat.le_of_lt_succ v.isLt
  rw [chan, if_pos hv, BitVec.ofNat_toNat, BitVec.setWidth_eq]

section TokenLoop

variable {c : Config} {room : Nat} {px : List Pixel}

theorem decodeTokens_units (hdiff : c.unit ≠ c.term) (n : Nat) (rest : List (List Byte))
    (run : Nat) (ch : List Byte) :
    decodeTokens c room (List.replicate n c.unit ++ rest) px run ch =
      decodeTokens c room rest px (run + n) ch := by
  induction n generalizing run with
  | zero => rfl
  | succ n ih =>
    rw [List.replicate_succ, List.cons_append, decodeTokens, if_neg hdiff, ih, Nat.add_assoc,
      Nat.add_comm 1]

theorem decodeTokens_chanTokens (hdiff : c.unit ≠ c.term) (v : Byte) (rest : List (List Byte))
    (ch : List Byte) :
    decodeTokens c room (chanTokens c v ++ rest) px 0 ch =
      decodeTokens c room (c.term :: rest) px v.toNat ch := by
  rw [chanTokens, List.append_assoc, decodeTokens_units hdiff, Nat.zero_add, List.singleton_append]

theorem decodeTokens_pixelTokens (hdiff : c.unit ≠ c.term) (hroom : px.length < room) (p : Pixel)
    (rest : List (List Byte)) :
    decodeTokens c room (pixelTokens c p ++ rest) px 0 [] =
      decodeTokens c room rest (px ++ [p]) 0 [] := by
  rw [pixelTokens, List.append_assoc, List.append_assoc, decodeTokens_chanTokens hdiff,
    decodeTokens_channel _ _ _ _ _ _ _ (chan_toNat c p.r) (by simp),
    decodeTokens_chanTokens hdiff,
    decodeTokens_channel _ _ _ _ _ _ _ (chan_toNat c p.g) (by simp),
    decodeTokens_chanTokens hdiff]
  simp only [decodeTokens, if_true, chan_toNat, List.nil_append, List.cons_append,
    if_neg (Nat.not_le.mpr hroom)]

/-- The tokens of a pixel sequence that fits decode to it and leave nothing over. -/
theorem decodeTokens_flatMap_pixelTokens (hdiff : c.unit ≠ c.term) (ps : List Pixel)
    (hroom : px.length + ps.length ≤ room) :
    decodeTokens c room (ps.flatMap (pixelTokens c)) px 0 [] = ⟨px ++ ps, false, none⟩ := by
  induction ps generalizing px with
  | nil => rw [List.append_nil]; rfl
  | cons p ps ih =>
    rw [List.length_cons] at hroom
    rw [List.flatMap_cons, decodeTokens_pixelTokens hdiff (by omega),
      ih (by rw [List.length_append, List.length_singleton]; omega), List.append_assoc,
      List.singleton_append]

end TokenLoop

end Sys2Proof.Machine
end

