-- ==== Sys2Proof/Proofs/FrameRoundTrip.lean ====
section
/-! PROOFS. LOAD after SAVE (`41_framing.md` R199, R201): `Decode` inverts `Encode`, and SAVE and LOAD are these two. -/

namespace Sys2Proof.Machine

open Sys2Proof

theorem unit_ne_term_of_wf {c : Config} (h : c.wf = true) : c.unit ≠ c.term := by
  simp only [Config.wf, Config.tokensDiffer, Bool.and_eq_true, decide_eq_true_eq] at h
  obtain ⟨⟨_, hdiff⟩, _⟩ := h
  exact hdiff

/-- The pixel stream of a sequence that fits: all its pixels, no token left over. -/
theorem bodyTokens_pixelStream {c : Config} {room : Nat} {ps : List Pixel} (hwf : c.wf = true)
    (hroom : ps.length ≤ room) : bodyTokens c room (pixelStream c ps) = ⟨ps, false, none⟩ := by
  rw [bodyTokens, cutTokens_pixelStream (tokenLen_pos_of_wf hwf) (length_unit_of_wf hwf),
    decodeTokens_flatMap_pixelTokens (unit_ne_term_of_wf hwf) ps (by simpa using hroom),
    List.nil_append]

/-- `Decode` of a frame whose pixels fit (R199). -/
theorem decodeFrame_frameHeader_append {s : State} {room : Nat} {ps : List Pixel}
    (hwf : s.cfg.wf = true) (hroom : ps.length ≤ room) :
    decodeFrame s.cfg room (frameHeader s ++ pixelStream s.cfg ps) =
      some ⟨some s.width, some s.height, ps, false, false, none⟩ := by
  have hgrid : (pixelStream s.cfg ps).length % s.cfg.tokenLen = 0 := by
    rw [length_pixelStream (length_unit_of_wf hwf), Nat.mul_mod_right]
  have hversion : versionDiffers Config.version = false := rfl
  rw [frameHeader, List.append_assoc, List.append_assoc, List.append_assoc,
    decodeFrame_of_signature,
    decodeRest_body (length_le32 _) (length_le32 _) (length_le32 _),
    bodyTokens_pixelStream hwf hroom, unLE32_le32, unLE32_le32, unLE32_le32, hversion, hgrid]
  rfl

/-- The extent of an image that is coherent, or in mode SEQUENCE, is LEN (R172). -/
theorem saveExtent_eq_length {s : State}
    (h : s.pixbuf.length = s.width.toNat * s.height.toNat ∨ s.cfg.saveExtent = .sequence) :
    saveExtent s = s.pixbuf.length := by
  cases hmode : s.cfg.saveExtent with
  | sequence => rw [saveExtent, hmode]
  | dimensions =>
    rw [saveExtent, hmode]
    exact (h.resolve_right (by rw [hmode]; decide)).symm

theorem encodeFrame_of_saveExtent {s : State} (h : saveExtent s = s.pixbuf.length) :
    encodeFrame s = frameHeader s ++ pixelStream s.cfg s.pixbuf := by
  rw [encodeFrame, h, List.take_length]

/-- A LOAD of a frame whose pixels fit appends exactly them (R199). -/
theorem exec_load_of_frame {s r : State} {ps : List Pixel} (hrun : r.faulted = false)
    (hwf : s.cfg.wf = true) (hcfg : r.cfg = s.cfg) (hdraws : NoDraws r.inDraws)
    (hin : r.input = frameHeader s ++ pixelStream s.cfg ps) (hroom : ps.length ≤ loadRoom r) :
    ∃ u, exec .load r = .next u ∧ u.width = s.width ∧ u.height = s.height ∧
      u.pixbuf = loadBase r ++ ps ∧ u.result = BitVec.ofNat 32 ps.length ∧
      StatusAfter .ok false false r.status u.status := by
  obtain ⟨u, hload, hout, _⟩ := loadMatchesDecode r hrun (hcfg ▸ hwf) hdraws
  rw [LoadOutcome, hin, hcfg, decodeFrame_frameHeader_append hwf hroom] at hout
  exact ⟨u, hload, hout⟩

theorem loadBase_eq_nil {s : State} (h : s.pixbuf = [] ∨ s.cfg.loadClears = true) :
    loadBase s = [] := by
  obtain h | h := h <;> simp [loadBase, h]

/-- Settles O33: SAVE writes `Encode(S)` (O23), and LOAD is `Decode` (O28), which inverts it. -/
theorem loadOfSaveRoundTrip : Obligations.LoadOfSaveRoundTrip := by
  unfold Obligations.LoadOfSaveRoundTrip
  intro s r hsrun hrrun hwf hcfg hfits hsdraws hrdraws hmode hempty
  have hextent := saveExtent_eq_length hmode
  have hbase : loadBase r = [] := loadBase_eq_nil hempty
  have hroom : s.pixbuf.length ≤ loadRoom r := by
    rw [loadRoom, hbase, hcfg, List.length_nil, Nat.sub_zero]
    exact hfits
  obtain ⟨t, hsave, houtput, _⟩ := saveWritesFrame s hsrun hextent.le (hsdraws.noFailureBelow _)
  obtain ⟨u, hload, hw, hh, hbuf, hresult, hstatus⟩ :=
    exec_load_of_frame (r := { r with input := t.output }) hrrun hwf hcfg hrdraws
      (houtput.trans (encodeFrame_of_saveExtent hextent)) hroom
  have hbuf : u.pixbuf = loadBase r ++ s.pixbuf := hbuf
  rw [hbase, List.nil_append] at hbuf
  exact ⟨t, u, hsave, hload, hw, hh, hbuf, by rw [hresult, BitVec.toNat_ofNat], hstatus⟩

theorem StatusAfter.statusCode_eq {c : ResultCode} {vwarn trunc : Bool} {w v : Word}
    (h : StatusAfter c vwarn trunc w v) : statusCode v = codeNumber c := by
  refine BitVec.eq_of_getLsbD_eq fun i hi => ?_
  have hbit := h i (by omega)
  rw [if_pos hi] at hbit
  simpa [statusCode, hi] using hbit

/-- The frame of the empty image is its header alone (R201). -/
theorem encodeFrame_of_empty {s : State} (hw : s.width = 0#32) (hh : s.height = 0#32)
    (hbuf : s.pixbuf = []) :
    encodeFrame s =
      s.cfg.sig ++ [1#8, 0#8, 0#8, 0#8, 0#8, 0#8, 0#8, 0#8, 0#8, 0#8, 0#8, 0#8] := by
  have hfields : le32 Config.version ++ le32 0#32 ++ le32 0#32 =
      [1#8, 0#8, 0#8, 0#8, 0#8, 0#8, 0#8, 0#8, 0#8, 0#8, 0#8, 0#8] := rfl
  rw [encodeFrame, hbuf, List.take_nil, frameHeader, hw, hh, ← hfields]
  simp only [pixelStream, List.map_nil, List.flatten_nil, List.append_nil, List.append_assoc]

/-- Settles O34: O33 for the empty image, with a LOAD from reset; its frame is its header alone. -/
theorem emptyImageRoundTrip : Obligations.EmptyImageRoundTrip := by
  unfold Obligations.EmptyImageRoundTrip
  intro s hrun hwf hdraws hwidth hheight hpixbuf
  have hcoherent : s.pixbuf.length = s.width.toNat * s.height.toNat := by
    simp [hpixbuf, hwidth]
  obtain ⟨t, u, hsave, hload, hw, hh, hbuf, _, hstatus⟩ :=
    loadOfSaveRoundTrip s (hostReset s) hrun (by decide : statusFault 0 = false) hwf rfl
      (by simp [hpixbuf]) hdraws noDraws_none (.inl hcoherent) (.inl rfl)
  obtain ⟨t', hsave', houtput, _⟩ :=
    saveWritesFrame s hrun (saveExtent_eq_length (.inl hcoherent)).le (hdraws.noFailureBelow _)
  obtain rfl := Host.Outcome.next.inj (hsave.symm.trans hsave')
  have hheader := houtput.trans (encodeFrame_of_empty hwidth hheight hpixbuf)
  exact ⟨t, u, hsave, hheader, by rw [hheader, List.length_append]; rfl, hload,
    hstatus.statusCode_eq, hw.trans hwidth, hh.trans hheight, hbuf.trans hpixbuf⟩

end Sys2Proof.Machine
end

