-- ==== Sys2Proof/Proofs/ChannelCode.lean ====
section
/-! PROOFS. The channel code on its token grid (`42_channel_codec.md` R220 to R226): the grid of `ChanEnc(v)` is `v` UNITs and
a TERM, and `ChanDec` takes the value of the tokens before the first TERM. -/

namespace Sys2Proof.Machine

open Sys2Proof

/-! ## The value of a run (R223) -/

theorem chan_of_le {c : Config} {run : Nat} (hrun : run ≤ 255) :
    chan c run = some (BitVec.ofNat 8 run) :=
  if_pos hrun

theorem chan_wrap {c : Config} {run : Nat} (hrun : 255 < run) (h : c.runOverflow = .wrap) :
    chan c run = some (BitVec.ofNat 8 (run % 256)) := by
  rw [chan, if_neg (by omega), h]

theorem chan_saturate {c : Config} {run : Nat} (hrun : 255 < run) (h : c.runOverflow = .saturate) :
    chan c run = some 255#8 := by
  rw [chan, if_neg (by omega), h]

theorem chan_fault {c : Config} {run : Nat} (hrun : 255 < run) (h : c.runOverflow = .fault) :
    chan c run = none := by
  rw [chan, if_neg (by omega), h]

/-- Settles O18: a run up to 255 is the value it is the length of, and a longer one goes by P_RUN_OVERFLOW. -/
theorem runToChannelValue : Obligations.RunToChannelValue := by
  unfold Obligations.RunToChannelValue
  intro c run
  refine ⟨fun hrun => ⟨_, chan_of_le hrun, ?_⟩, fun hrun h => ⟨_, chan_wrap hrun h, ?_⟩,
    fun hrun h => ⟨_, chan_saturate hrun h, rfl⟩, chan_fault⟩
  · rw [BitVec.toNat_ofNat]
    omega
  · rw [BitVec.toNat_ofNat]
    omega

/-! ## The grid of an encoded channel (R221) -/

theorem length_chanTokens (c : Config) (v : Byte) : (chanTokens c v).length = v.toNat + 1 := by
  rw [chanTokens, List.length_append, List.length_replicate, List.length_singleton]

section Grid

variable {c : Config}

theorem cutTokens_chanEnc_append (ht : 1 ≤ c.tokenLen) (hunit : c.unit.length = c.tokenLen)
    (v : Byte) (rest : List Byte) :
    cutTokens c.tokenLen (chanEnc c v ++ rest) = chanTokens c v ++ cutTokens c.tokenLen rest := by
  rw [← flatten_chanTokens,
    cutTokens_flatten_append _ ht _ fun _ => length_of_mem_chanTokens hunit]

theorem cutTokens_chanEnc (ht : 1 ≤ c.tokenLen) (hunit : c.unit.length = c.tokenLen) (v : Byte) :
    cutTokens c.tokenLen (chanEnc c v) = chanTokens c v := by
  have hgrid := cutTokens_chanEnc_append ht hunit v []
  rwa [cutTokens_short _ [] ht, List.append_nil, List.append_nil] at hgrid

end Grid

/-- Settles O17: the encoding is `v + 1` tokens of `T` bytes each, and the next value takes one token more. -/
theorem channelEncodingLength : Obligations.ChannelEncodingLength := by
  unfold Obligations.ChannelEncodingLength
  intro c hwf
  have hunit := length_unit_of_wf hwf
  have ht := tokenLen_pos_of_wf hwf
  refine ⟨fun v => ⟨length_chanEnc hunit v, ?_⟩, cutTokens_chanEnc ht hunit 0#8,
    cutTokens_chanEnc ht hunit 255#8, fun v hv => ?_⟩
  · rw [cutTokens_chanEnc ht hunit, length_chanTokens]
  · have hnext : (v + 1#8).toNat = v.toNat + 1 := by bv_omega
    rw [length_chanEnc hunit, length_chanEnc hunit, hnext]
    exact Nat.mul_lt_mul_of_pos_right (Nat.lt_succ_self _) ht

/-! ## The first terminated run (R222, R224) -/

section ChanDec

variable {c : Config} {units toks rest : List (List Byte)} {r : Option Byte}

theorem chanDec_eq_none_iff : chanDec c toks = none ↔ c.term ∉ toks := by
  rw [chanDec]
  cases hfind : toks.findIdx? (fun tok => decide (tok = c.term)) with
  | none =>
    rw [List.findIdx?_eq_none_iff] at hfind
    exact iff_of_true rfl fun hmem => by simpa using hfind _ hmem
  | some j =>
    obtain ⟨hj, hterm, _⟩ := List.findIdx?_eq_some_iff_getElem.mp hfind
    exact iff_of_false (Option.some_ne_none _)
      (not_not.mpr (of_decide_eq_true hterm ▸ List.getElem_mem hj))

/-- Every token that is not TERM counts as one unit (R224). -/
theorem chanDec_units_term (h : c.term ∉ units) :
    chanDec c (units ++ c.term :: rest) = some (chan c units.length, rest) := by
  have hfind : (units ++ c.term :: rest).findIdx? (fun tok => decide (tok = c.term)) =
      some units.length := by
    have hunits : units.findIdx? (fun tok => decide (tok = c.term)) = none :=
      List.findIdx?_eq_none_iff.mpr fun tok htok =>
        decide_eq_false fun heq => h (heq ▸ htok)
    simp [List.findIdx?_append, List.findIdx?_cons, hunits]
  have hdrop : (units ++ c.term :: rest).drop (units.length + 1) = rest := by
    rw [← List.drop_drop, List.drop_left, List.drop_one, List.tail_cons]
  simp only [chanDec, hfind, hdrop]

theorem exists_units_of_chanDec (h : chanDec c toks = some (r, rest)) :
    ∃ units, toks = units ++ c.term :: rest ∧ c.term ∉ units ∧ r = chan c units.length := by
  have hmem : c.term ∈ toks := by
    by_contra hnot
    rw [chanDec_eq_none_iff.mpr hnot] at h
    cases h
  obtain ⟨units, rest', rfl, hunits⟩ := List.eq_append_cons_of_mem hmem
  rw [chanDec_units_term hunits] at h
  cases h
  exact ⟨units, rfl, hunits, rfl⟩

theorem term_not_mem_replicate_unit (hdiff : c.unit ≠ c.term) (n : Nat) :
    c.term ∉ List.replicate n c.unit :=
  fun hmem => hdiff (List.eq_of_mem_replicate hmem).symm

theorem chanDec_chanTokens_append (hdiff : c.unit ≠ c.term) (v : Byte) :
    chanDec c (chanTokens c v ++ rest) = some (some v, rest) := by
  rw [chanTokens, List.append_assoc, List.singleton_append,
    chanDec_units_term (term_not_mem_replicate_unit hdiff _), List.length_replicate, chan_toNat]

end ChanDec

/-- `ChanDec` inverts `ChanEnc`, whatever bytes follow (R226). -/
theorem chanDec_chanEnc_append {c : Config} (hwf : c.wf = true) (v : Byte) (rest : List Byte) :
    chanDec c (cutTokens c.tokenLen (chanEnc c v ++ rest)) =
      some (some v, cutTokens c.tokenLen rest) := by
  rw [cutTokens_chanEnc_append (tokenLen_pos_of_wf hwf) (length_unit_of_wf hwf),
    chanDec_chanTokens_append (unit_ne_term_of_wf hwf)]

/-- Settles O19: with two tokens the first TERM ends the UNITs; with one token both for UNIT and for TERM, the UNIT of
`ChanEnc(1)` ends an empty run. -/
theorem channelCodeInverts : Obligations.ChannelCodeInverts := by
  unfold Obligations.ChannelCodeInverts
  refine ⟨fun c v rest hwf => ⟨?_, chanDec_chanEnc_append hwf v rest⟩, fun c ht hsame => ?_⟩
  · rw [cutTokens_chanEnc_append (tokenLen_pos_of_wf hwf) (length_unit_of_wf hwf), chanTokens,
      List.append_assoc, List.singleton_append]
  · have hunit : c.unit.length = c.tokenLen := congrArg List.length hsame
    have htokens : chanTokens c 1#8 = [] ++ c.term :: [c.term] := by
      rw [chanTokens, hsame]
      rfl
    rw [cutTokens_chanEnc ht hunit, htokens, chanDec_units_term List.not_mem_nil]
    rfl

end Sys2Proof.Machine
end

