-- ==== Sys2Proof/Proofs/ChannelCommands.lean ====
section
/-! PROOFS. The channel commands (`42_channel_codec.md` R227, R228). ENC_CHANNEL is one write of `ChanEnc(v)` to a new sink.
DEC_CHANNEL goes through the bytes before a read failure, or through its whole stream, as `ChanDec` goes through their
tokens: the first TERM ends it, and without one it comes to the failure, or to the end of the stream. -/

namespace Sys2Proof.Machine

open Sys2Proof

/-! ## ENC_CHANNEL (R227) -/

/-- The operand of ENC_CHANNEL, ARG0[7:0] (R227). -/
def channelOperand (s : State) : Byte := s.arg0.extractLsb' 0 8

/-- The end of an ENC_CHANNEL that has written all the tokens of `v` (R227). -/
def encChannelEnd (v : Byte) (s : State) : State :=
  finish .ok { s with result := v.setWidth 32 + 1 }

theorem exec_encChannel_of_running {s : State} (hrun : s.faulted = false) :
    exec .encChannel s =
      .next (closeOutput
        (((outOpen (startCommand s)).andThen (outWrite (chanEnc s.cfg (channelOperand s)))).andThen
          fun t => .ended (encChannelEnd (channelOperand s) t)).state) :=
  exec_of_running hrun

theorem exec_encChannel_of_openFail {s : State} (hrun : s.faulted = false)
    (h : s.outDraws.openFail = true) :
    exec .encChannel s =
      .next (closeOutput (finish .ioError (withOutput [] (startCommand s)))) := by
  rw [exec_encChannel_of_running hrun, openWrite_of_openFail _ (s := startCommand s) h,
    Flow.andThen_ended, Flow.state_ended]

theorem exec_encChannel_of_firstFailure {s : State} {i : Nat} (hrun : s.faulted = false)
    (h : FirstFailure s.outDraws i) (hi : i < (chanEnc s.cfg (channelOperand s)).length) :
    exec .encChannel s =
      .next (closeOutput (finish .ioError
        (withOutput ((chanEnc s.cfg (channelOperand s)).take i) (startCommand s)))) := by
  rw [exec_encChannel_of_running hrun, openWrite_of_firstFailure (s := startCommand s) h hi,
    Flow.andThen_ended, Flow.state_ended]

theorem exec_encChannel_of_noFailure {s : State} (hrun : s.faulted = false)
    (h : NoFailureBelow s.outDraws (chanEnc s.cfg (channelOperand s)).length) :
    exec .encChannel s =
      .next (closeOutput (encChannelEnd (channelOperand s)
        (withOutput (chanEnc s.cfg (channelOperand s)) (startCommand s)))) := by
  rw [exec_encChannel_of_running hrun, openWrite_of_noFailure (s := startCommand s) h,
    Flow.andThen_more, Flow.state_ended]

/-- ENC_CHANNEL writes no image, no ARG and no PIXOUT (R111, R227). -/
theorem exec_encChannel_frame {s t : State} (h : exec .encChannel s = .next t) :
    SameImage s t ∧ SameArgs s t ∧ t.pixOut = s.pixOut := by
  obtain ⟨x, rfl⟩ := exec_tableWrites h
  exact ⟨⟨rfl, rfl, rfl⟩, tableWrites_sameArgs .encChannel s x, rfl⟩

/-- RESULT is the number of tokens; it does not wrap around (R221, R227). -/
theorem toNat_tokenCount (v : Byte) : (v.setWidth 32 + 1 : Word).toNat = v.toNat + 1 := by
  bv_omega

/-- Settles O20: ENC_CHANNEL is one write, which stops at the first byte whose transfer fails. -/
theorem encChannelResult : Obligations.EncChannelResult := by
  unfold Obligations.EncChannelResult
  refine ⟨decode_encode .encChannel, fun s v hrun hv => ?_⟩
  obtain rfl : v = channelOperand s := hv
  refine ⟨fun hok => ?_, fun hopen => ?_, fun i hfail hi => ?_⟩
  · have hexec := exec_encChannel_of_noFailure hrun hok
    obtain ⟨himage, hargs, hpixOut⟩ := exec_encChannel_frame hexec
    exact ⟨_, hexec, rfl, toNat_tokenCount _, himage, hargs, hpixOut,
      statusAfter_finish .ok s.status⟩
  · have hexec := exec_encChannel_of_openFail hrun hopen
    obtain ⟨himage, hargs, hpixOut⟩ := exec_encChannel_frame hexec
    exact ⟨_, hexec, rfl, rfl, himage, hargs, hpixOut, statusAfter_finish .ioError s.status⟩
  · have hexec := exec_encChannel_of_firstFailure hrun hfail hi
    obtain ⟨himage, hargs, hpixOut⟩ := exec_encChannel_frame hexec
    exact ⟨_, hexec, rfl, rfl, himage, hargs, hpixOut, statusAfter_finish .ioError s.status⟩

/-! ## DEC_CHANNEL token by token (R222, R224, R228) -/

/-- The end of DEC_CHANNEL at a TERM, whose run has the value `r` (R223, R228). -/
def channelEnd (r : Option Byte) (s : State) : State :=
  match r with
  | some v => finish .ok { s with result := v.setWidth 32 }
  | none => raiseFault .runOverflow s

theorem decChannelToken_term (s : State) :
    decChannelToken s.cfg.term s = .ended (channelEnd (chan s.cfg s.dec.run) s) := by
  rw [decChannelToken, if_pos rfl]
  cases chan s.cfg s.dec.run <;> rfl

theorem decChannelToken_unit {tok : List Byte} {s : State} (h : tok ≠ s.cfg.term) :
    decChannelToken tok s =
      .more { s with dec := { s.dec with run := s.dec.run + 1, acc := [] } } :=
  if_neg h

/-- DEC_CHANNEL inside its stream: `acc` read of the current token, `run` tokens and `pos` bytes before that, and `bytes`
to come (R47, R228). -/
def inChannel (acc : List Byte) (run pos : Nat) (bytes : List Byte) (s : State) : State :=
  { s with input := bytes, dec := ⟨.body, acc, run, [], pos, 0⟩ }

section Stream

variable {s : State} {run pos : Nat} {rest : List Byte}

/-- A whole token is handed over (R228). -/
theorem readLoop_channelToken {tok : List Byte} (ht : 1 ≤ s.cfg.tokenLen)
    (hlen : tok.length = s.cfg.tokenLen)
    (hok : ∀ j, j < tok.length → s.inDraws.xferFails (pos + j) = false) :
    readLoop decChannelByte decChannelEnd (tok ++ rest) (inChannel [] run pos (tok ++ rest) s) =
      (decChannelToken tok (inChannel tok.dropLast run (pos + tok.length) rest s)).andThen
        (readLoop decChannelByte decChannelEnd rest) := by
  have hne : tok ≠ [] := List.ne_nil_of_length_pos (by omega)
  have hstart : (inChannel [] run pos (tok ++ rest) s).dec.acc.length + tok.length =
      s.cfg.tokenLen := (Nat.zero_add _).trans hlen
  rw [decChannelByte_eq_gatherByte,
    readLoop_complete steady_tokenLen tok rest _ rfl hne hstart hok]
  rfl

/-- TERM ends the command (R222, R228). -/
theorem readLoop_channelTerm (ht : 1 ≤ s.cfg.tokenLen)
    (hok : ∀ j, j < s.cfg.tokenLen → s.inDraws.xferFails (pos + j) = false) :
    readLoop decChannelByte decChannelEnd (s.cfg.term ++ rest)
        (inChannel [] run pos (s.cfg.term ++ rest) s) =
      .ended (channelEnd (chan s.cfg run)
        (inChannel s.cfg.term.dropLast run (pos + s.cfg.tokenLen) rest s)) := by
  rw [readLoop_channelToken ht rfl hok]
  exact congrArg (fun f : Flow => f.andThen (readLoop decChannelByte decChannelEnd rest))
    (decChannelToken_term (inChannel s.cfg.term.dropLast run (pos + s.cfg.tokenLen) rest s))

/-- Tokens that are not TERM are counted (R224). -/
theorem readLoop_channelUnits (ht : 1 ≤ s.cfg.tokenLen) (units : List (List Byte))
    (hlen : ∀ tok ∈ units, tok.length = s.cfg.tokenLen) (hunits : s.cfg.term ∉ units)
    (hok : ∀ j, j < units.flatten.length → s.inDraws.xferFails (pos + j) = false) :
    readLoop decChannelByte decChannelEnd (units.flatten ++ rest)
        (inChannel [] run pos (units.flatten ++ rest) s) =
      readLoop decChannelByte decChannelEnd rest
        (inChannel [] (run + units.length) (pos + units.flatten.length) rest s) := by
  induction units generalizing run pos with
  | nil => rfl
  | cons tok units ih =>
    rw [List.flatten_cons, List.length_append] at hok
    obtain ⟨hne, hrest⟩ := not_or.mp (List.mem_cons.not.mp hunits)
    have htok : tok ≠ (inChannel tok.dropLast run (pos + tok.length)
        (units.flatten ++ rest) s).cfg.term := Ne.symm hne
    rw [List.flatten_cons, List.append_assoc,
      readLoop_channelToken ht (hlen tok List.mem_cons_self) fun j hj => hok j (by omega),
      decChannelToken_unit htok, Flow.andThen_more]
    have hcounted := ih (run := run + 1) (pos := pos + tok.length)
      (fun x hx => hlen x (List.mem_cons_of_mem _ hx)) hrest
      fun j hj => Nat.add_assoc pos _ j ▸ hok (tok.length + j) (by omega)
    rw [List.length_cons, List.length_append, ← Nat.add_assoc pos, Nat.add_comm units.length,
      ← Nat.add_assoc run, ← hcounted]
    rfl

/-- A part of a token is gathered (R228). -/
theorem readLoop_channelPart {tail : List Byte} (hlen : tail.length < s.cfg.tokenLen)
    (hok : ∀ j, j < tail.length → s.inDraws.xferFails (pos + j) = false) :
    readLoop decChannelByte decChannelEnd (tail ++ rest) (inChannel [] run pos (tail ++ rest) s) =
      readLoop decChannelByte decChannelEnd rest (inChannel tail run (pos + tail.length) rest s) :=
  readLoop_gather (complete := decChannelToken) (onEnd := decChannelEnd) steady_tokenLen tail rest
    (inChannel [] run pos (tail ++ rest) s) rfl ((Nat.zero_add _).trans_lt hlen) hok

/-- The first TERM ends the command, whatever comes after it (R222, R228). -/
theorem readLoop_of_channel {bytes : List Byte} {r : Option Byte} {toks : List (List Byte)}
    (ht : 1 ≤ s.cfg.tokenLen) (hok : ∀ j, j < bytes.length → s.inDraws.xferFails j = false)
    (h : chanDec s.cfg (cutTokens s.cfg.tokenLen bytes) = some (r, toks)) :
    ∃ acc run pos input, readLoop decChannelByte decChannelEnd (bytes ++ rest)
      (inChannel [] 0 0 (bytes ++ rest) s) = .ended (channelEnd r (inChannel acc run pos input s)) := by
  obtain ⟨units, htoks, hunits, rfl⟩ := exists_units_of_chanDec h
  have hsplit := flatten_cutTokens_append_gridTail s.cfg.tokenLen ht bytes
  rw [htoks, List.flatten_append, List.flatten_cons, List.append_assoc, List.append_assoc] at hsplit
  have hlen (tok) (htok : tok ∈ units) : tok.length = s.cfg.tokenLen :=
    length_of_mem_cutTokens _ bytes tok (htoks ▸ List.mem_append_left _ htok)
  rw [← hsplit] at hok ⊢
  simp only [List.length_append] at hok
  rw [List.append_assoc, readLoop_channelUnits ht units hlen hunits
    fun j hj => by simpa using hok j (by omega), List.append_assoc,
    readLoop_channelTerm ht fun j hj => hok _ (by rw [Config.tokenLen] at hj; omega),
    Nat.zero_add]
  exact ⟨_, _, _, _, rfl⟩

/-- Without a TERM the command comes to the end of these bytes (R222, R228). -/
theorem readLoop_of_noChannel {bytes : List Byte} (ht : 1 ≤ s.cfg.tokenLen)
    (hok : ∀ j, j < bytes.length → s.inDraws.xferFails j = false)
    (h : chanDec s.cfg (cutTokens s.cfg.tokenLen bytes) = none) :
    ∃ acc run, readLoop decChannelByte decChannelEnd (bytes ++ rest)
        (inChannel [] 0 0 (bytes ++ rest) s) =
      readLoop decChannelByte decChannelEnd rest (inChannel acc run bytes.length rest s) := by
  have hsplit := flatten_cutTokens_append_gridTail s.cfg.tokenLen ht bytes
  have htail : (gridTail s.cfg.tokenLen bytes).length < s.cfg.tokenLen := by
    rw [gridTail_length]
    exact Nat.mod_lt _ ht
  have hbytes : bytes.length = (cutTokens s.cfg.tokenLen bytes).flatten.length +
      (gridTail s.cfg.tokenLen bytes).length := by
    rw [← List.length_append, hsplit]
  have hunits := readLoop_channelUnits (s := s) (run := 0) (pos := 0)
    (rest := gridTail s.cfg.tokenLen bytes ++ rest) ht (cutTokens s.cfg.tokenLen bytes)
    (length_of_mem_cutTokens _ bytes) (chanDec_eq_none_iff.mp h)
    fun j hj => by simpa using hok j (by omega)
  rw [← List.append_assoc, hsplit, readLoop_channelPart htail fun j hj => hok _ (by omega),
    Nat.zero_add, Nat.zero_add, ← hbytes] at hunits
  exact ⟨_, _, hunits⟩

end Stream

/-! ## The ways a DEC_CHANNEL can go (R228) -/

theorem exec_decChannel_of_openFail {s : State} (hrun : s.faulted = false)
    (h : s.inDraws.openFail = true) :
    exec .decChannel s = .next (closeInput (finish .ioError (startCommand s))) := by
  simp only [exec_of_running hrun, commandBody, decChannelBody, inOpen, startCommand_inDraws, h]
  rfl

theorem exec_decChannel_of_open {s : State} (hrun : s.faulted = false)
    (h : s.inDraws.openFail = false) :
    exec .decChannel s =
      .next (closeInput (readLoop decChannelByte decChannelEnd s.input
        (inChannel [] 0 0 s.input (startCommand s))).state) := by
  simp only [exec_of_running hrun, commandBody, decChannelBody, inOpen, startCommand_inDraws, h]
  rfl

/-- Nothing of the decoder state and of the stream is left (R48, R65). -/
theorem closeInput_channelEnd (r : Option Byte) (acc : List Byte) (run pos : Nat)
    (bytes : List Byte) (s : State) :
    closeInput (channelEnd r (inChannel acc run pos bytes s)) = closeInput (channelEnd r s) := by
  cases r <;> rfl

section Ways

variable {s : State} {bytes rest : List Byte}

theorem exec_decChannel_of_channel {r : Option Byte} {toks : List (List Byte)}
    (hrun : s.faulted = false) (hwf : s.cfg.wf = true) (hin : s.input = bytes ++ rest)
    (hread : NoFailureBelow s.inDraws bytes.length)
    (h : chanDec s.cfg (cutTokens s.cfg.tokenLen bytes) = some (r, toks)) :
    exec .decChannel s = .next (closeInput (channelEnd r (startCommand s))) := by
  obtain ⟨hopen, hok⟩ := hread
  obtain ⟨acc, run, pos, input, hloop⟩ := readLoop_of_channel (s := startCommand s) (rest := rest)
    (tokenLen_pos_of_wf hwf) hok h
  rw [exec_decChannel_of_open hrun hopen, hin, hloop, Flow.state_ended, closeInput_channelEnd]

theorem exec_decChannel_of_exhausted (hrun : s.faulted = false) (hwf : s.cfg.wf = true)
    (hread : NoFailureBelow s.inDraws s.input.length)
    (h : chanDec s.cfg (cutTokens s.cfg.tokenLen s.input) = none) :
    exec .decChannel s = .next (closeInput (decChannelEnd (startCommand s))) := by
  obtain ⟨hopen, hok⟩ := hread
  obtain ⟨acc, run, hloop⟩ := readLoop_of_noChannel (s := startCommand s) (rest := [])
    (tokenLen_pos_of_wf hwf) hok h
  rw [List.append_nil] at hloop
  rw [exec_decChannel_of_open hrun hopen, hloop]
  rfl

theorem exec_decChannel_of_readFailure {i : Nat} (hrun : s.faulted = false)
    (hwf : s.cfg.wf = true) (hfail : FirstFailure s.inDraws i) (hi : i < s.input.length)
    (h : chanDec s.cfg (cutTokens s.cfg.tokenLen (s.input.take i)) = none) :
    exec .decChannel s = .next (closeInput (finish .ioError (startCommand s))) := by
  obtain ⟨hopen, hfail, hok⟩ := hfail
  have hlen : (s.input.take i).length = i := List.length_take_of_le hi.le
  obtain ⟨acc, run, hloop⟩ := readLoop_of_noChannel (s := startCommand s)
    (rest := s.input.drop i) (tokenLen_pos_of_wf hwf) (fun j hj => hok j (hlen ▸ hj)) h
  rw [List.take_append_drop, hlen, List.drop_eq_getElem_cons hi,
    readLoop_cons_of_fail _ _ _ _ _ hfail] at hloop
  rw [exec_decChannel_of_open hrun hopen, hloop]
  rfl

/-- DEC_CHANNEL writes no image, no ARG and no output (R111, R228). -/
theorem exec_decChannel_frame {t : State} (h : exec .decChannel s = .next t) :
    SameImage s t ∧ SameArgs s t ∧ SameOutputs s t := by
  obtain ⟨x, rfl⟩ := exec_tableWrites h
  exact ⟨⟨rfl, rfl, rfl⟩, tableWrites_sameArgs .decChannel s x, rfl, rfl⟩

theorem channelOutcome_of_channel {r : Option Byte} {toks : List (List Byte)}
    (h : chanDec s.cfg (cutTokens s.cfg.tokenLen bytes) = some (r, toks)) :
    ChannelOutcome bytes s (closeInput (channelEnd r (startCommand s))) := by
  rw [ChannelOutcome, h]
  cases r with
  | some v => exact ⟨rfl, statusAfter_finish .ok s.status⟩
  | none => exact ⟨rfl, statusFaulted_raise .runOverflow s.status⟩

theorem channelOutcome_of_exhausted
    (h : chanDec s.cfg (cutTokens s.cfg.tokenLen bytes) = none) :
    ChannelOutcome bytes s (closeInput (decChannelEnd (startCommand s))) := by
  rw [ChannelOutcome, h]
  exact ⟨rfl, statusAfter_finish_trunc .ok s.status⟩

end Ways

/-- Settles O21: the bytes that can be read hold a TERM on their grid and DEC_CHANNEL ends there, or they hold none and
it meets what stops the reading. -/
theorem decChannelResult : Obligations.DecChannelResult := by
  unfold Obligations.DecChannelResult
  refine ⟨decode_encode .decChannel, fun s hrun hwf =>
    ⟨fun hread => ?_, fun hopen => ?_, fun i hfail hi => ?_⟩⟩
  · cases h : chanDec s.cfg (cutTokens s.cfg.tokenLen s.input) with
    | none =>
      have hexec := exec_decChannel_of_exhausted hrun hwf hread h
      exact ⟨_, hexec, channelOutcome_of_exhausted h, exec_decChannel_frame hexec⟩
    | some p =>
      have hexec := exec_decChannel_of_channel hrun hwf (List.append_nil _).symm hread h
      exact ⟨_, hexec, channelOutcome_of_channel h, exec_decChannel_frame hexec⟩
  · have hexec := exec_decChannel_of_openFail hrun hopen
    obtain ⟨himage, hargs, houtputs⟩ := exec_decChannel_frame hexec
    exact ⟨_, hexec, rfl, himage, hargs, houtputs, statusAfter_finish .ioError s.status⟩
  · cases h : chanDec s.cfg (cutTokens s.cfg.tokenLen (s.input.take i)) with
    | none =>
      have hexec := exec_decChannel_of_readFailure hrun hwf hfail hi h
      obtain ⟨himage, hargs, houtputs⟩ := exec_decChannel_frame hexec
      exact ⟨_, hexec, himage, hargs, houtputs,
        fun _ => ⟨rfl, statusAfter_finish .ioError s.status⟩, fun hne => absurd rfl hne⟩
    | some p =>
      obtain ⟨hopen, _, hok⟩ := hfail
      have hread : NoFailureBelow s.inDraws (s.input.take i).length :=
        ⟨hopen, fun j hj => hok j (List.length_take_of_le hi.le ▸ hj)⟩
      have hexec := exec_decChannel_of_channel hrun hwf (List.take_append_drop i _).symm hread h
      obtain ⟨himage, hargs, houtputs⟩ := exec_decChannel_frame hexec
      exact ⟨_, hexec, himage, hargs, houtputs, fun hnone => absurd hnone (Option.some_ne_none _),
        fun _ => channelOutcome_of_channel h⟩

/-! ## DEC_CHANNEL after ENC_CHANNEL (R226) -/

/-- ARG0[7:0] as a word is ARG0 with its bits 31:8 cleared (R227). -/
theorem setWidth_channelOperand (s : State) :
    (channelOperand s).setWidth 32 = s.arg0 &&& 0xFF#32 := by
  have hmask (i : Nat) : (0xFF#32).getLsbD i = decide (i < 8) := Nat.testBit_two_pow_sub_one 8 i
  refine BitVec.eq_of_getLsbD_eq fun i hi => ?_
  rw [BitVec.getLsbD_and, hmask]
  simp [channelOperand, hi, Bool.and_comm]

/-- Settles O22: ENC_CHANNEL wrote `ChanEnc(v)` (O20), whose first channel value is `v` (O19), and DEC_CHANNEL gives that
value (O21). -/
theorem decChannelInvertsEncChannel : Obligations.DecChannelInvertsEncChannel := by
  unfold Obligations.DecChannelInvertsEncChannel
  intro s t r rest hsrun hrrun hwf hcfg hsdraws hrdraws henc
  rw [exec_encChannel_of_noFailure hsrun (hsdraws.noFailureBelow _)] at henc
  obtain rfl := Host.Outcome.next.inj henc
  have hdec := chanDec_chanEnc_append hwf (channelOperand s) rest
  rw [← hcfg] at hdec
  refine ⟨_, exec_decChannel_of_channel (bytes := chanEnc r.cfg (channelOperand s) ++ rest)
    (rest := []) hrrun (hcfg ▸ hwf) ?_ (hrdraws.noFailureBelow _) hdec,
    setWidth_channelOperand s, statusAfter_finish .ok r.status⟩
  rw [List.append_nil, hcfg]
  rfl

end Sys2Proof.Machine
end

