-- ==== Sys2Proof/Proofs/CommandEnds.lean ====
section
/-! PROOFS. How a command ends (`60_exceptions.md` R250 to R257): by `finish(code)` or by `raise Fault(cause)`, each with
what has to hold for that command to end so. One inversion lemma, `exec_commandEnd`, says it for all twelve commands; the
loop of the two readers is gone through with an invariant for the bytes they go on after. -/

namespace Sys2Proof.Machine

open Sys2Proof

/-! ## The two kinds of end (R250) -/

/-- What has to hold where the command `i` on `s` ends in `t` with a code (R251, R253, R254). -/
def MayFinish (i : Instr) (s t : State) : ResultCode → Prop
  | .ok => True
  | .ioError =>
    ((i = .save ∨ i = .encChannel) ∧ ¬ NoDraws s.outDraws) ∨
      ((i = .load ∨ i = .decChannel) ∧ ¬ NoDraws s.inDraws)
  | .formatError => i = .load ∧ SameImage s t ∧ t.result = s.result
  | .illegalCmd => False

/-- What has to hold where the command `i` on `s` ends in `t` with a fault (R257). -/
def MayFault (i : Instr) (s t : State) : Cause → Prop
  | .oobRead =>
    (i = .getPixel ∧ s.pixbuf.length ≤ pixelIndex s) ∨
      (i = .save ∧ s.cfg.saveExtent = .dimensions ∧
        s.pixbuf.length < s.width.toNat * s.height.toNat)
  | .capacity =>
    (i = .setPixel ∧ s.cfg.maxPixels ≤ pixelIndex s) ∨
      (i = .setPixels ∧ s.cfg.maxPixels < s.pixIn.length) ∨
      (i = .load ∧ s.cfg.maxPixels ≤ t.pixbuf.length)
  | .runOverflow => (i = .load ∨ i = .decChannel) ∧ s.cfg.runOverflow = .fault

/-- The command `i`, run from `s`, has ended in `t`. -/
inductive CommandEnd (i : Instr) (s t : State) : Prop where
  /-- By `finish(c)`: the write of CODE is the last one to STATUS, and none before it touched FAULT (R252). -/
  | finished (c : ResultCode) (w : Word) : t.status = setCode w c →
      statusFault w = statusFault s.status → MayFinish i s t c → CommandEnd i s t
  /-- By `raise Fault(c)`: before it only the dispatch and VWARN were written to STATUS (R256). -/
  | tookFault (c : Cause) (vwarn : Bool) : t.status = setFault (runningStatus s.status vwarn) c →
      t.result = s.result → MayFault i s t c → CommandEnd i s t

theorem CommandEnd.of_finish {i : Instr} {s t : State} {c : ResultCode}
    (hstatus : t.status = setCode (clearWarnings s.status) c) (hmay : MayFinish i s t c) :
    CommandEnd i s t :=
  .finished c _ hstatus (statusFault_clearWarnings _) hmay

theorem CommandEnd.of_raise {i : Instr} {s t : State} {c : Cause}
    (hstatus : t.status = setFault (clearWarnings s.status) c) (hresult : t.result = s.result)
    (hmay : MayFault i s t c) : CommandEnd i s t :=
  .tookFault c false (by rw [hstatus, runningStatus_false]) hresult hmay

theorem exec_next_unique {i : Instr} {s t u : State} (h : exec i s = .next t)
    (h' : exec i s = .next u) : t = u :=
  Host.Outcome.next.inj (h.symm.trans h')

/-! ## Draws (R65) -/

theorem not_noDraws_of_openFail {d : Draws} (h : d.openFail = true) : ¬ NoDraws d :=
  fun ⟨hopen, _⟩ => absurd h (by simp [hopen])

theorem not_noDraws_of_xferFails {d : Draws} {i : Nat} (h : d.xferFails i = true) : ¬ NoDraws d :=
  fun hnone => absurd h (by simp [hnone.xferFails])

theorem FirstFailure.not_noDraws {d : Draws} {i : Nat} (h : FirstFailure d i) : ¬ NoDraws d :=
  have ⟨_, hfails, _⟩ := h
  not_noDraws_of_xferFails hfails

/-- `n` transfers: the open fails, or one of them is the first to fail, or none does. -/
theorem draws_trichotomy (d : Draws) (n : Nat) :
    d.openFail = true ∨ (∃ i, i < n ∧ FirstFailure d i) ∨ NoFailureBelow d n := by
  classical
  cases hopen : d.openFail with
  | true => exact .inl rfl
  | false =>
    by_cases h : ∃ i, i < n ∧ d.xferFails i = true
    · obtain ⟨hlt, hfails⟩ := Nat.find_spec h
      refine .inr (.inl ⟨Nat.find h, hlt, hopen, hfails, fun j hj => ?_⟩)
      exact eq_false_of_ne_true fun hj' => Nat.find_min h hj ⟨hj.trans hlt, hj'⟩
    · exact .inr (.inr ⟨hopen, fun j hj => eq_false_of_ne_true fun hj' => h ⟨j, hj, hj'⟩⟩)

/-! ## The commands on the pixel buffer (R133, R137, R138) -/

theorem exec_getPixel_commandEnd {s t : State} (hrun : s.faulted = false)
    (h : exec .getPixel s = .next t) : CommandEnd .getPixel s t := by
  obtain hlen | hlen := le_or_gt s.pixbuf.length (pixelIndex s)
  · obtain rfl := exec_next_unique h (exec_getPixel_of_le hrun hlen)
    exact .of_raise (c := .oobRead) rfl rfl (.inl ⟨rfl, hlen⟩)
  · obtain rfl := exec_next_unique h (exec_getPixel_of_stored hrun (List.getElem?_eq_getElem hlen))
    exact .of_finish (c := .ok) rfl trivial

theorem exec_setPixel_commandEnd {s t : State} (hrun : s.faulted = false)
    (h : exec .setPixel s = .next t) : CommandEnd .setPixel s t := by
  obtain hk | hk := le_or_gt s.cfg.maxPixels (pixelIndex s)
  · obtain rfl := exec_next_unique h (exec_setPixel_of_le hrun hk)
    exact .of_raise (c := .capacity) rfl rfl (.inl ⟨rfl, hk⟩)
  · obtain rfl := exec_next_unique h (exec_setPixel_of_lt hrun hk)
    exact .of_finish (c := .ok) rfl trivial

theorem exec_setPixels_commandEnd {s t : State} (hrun : s.faulted = false)
    (h : exec .setPixels s = .next t) : CommandEnd .setPixels s t := by
  obtain hlen | hlen := lt_or_ge s.cfg.maxPixels s.pixIn.length
  · obtain rfl := exec_next_unique h (exec_setPixels_of_lt hrun hlen)
    exact .of_raise (c := .capacity) rfl rfl (.inr (.inl ⟨rfl, hlen⟩))
  · obtain rfl := exec_next_unique h (exec_setPixels_of_le hrun hlen)
    exact .of_finish (c := .ok) rfl trivial

/-! ## The writers of a stream (R170, R227) -/

theorem saveExtent_of_dimensions {s : State} (h : s.cfg.saveExtent = .dimensions) :
    saveExtent s = s.width.toNat * s.height.toNat := by
  rw [saveExtent, h]

/-- A SAVE that has written all its bytes has come to its extent, or to the slot past LEN (R170, R172). -/
theorem saveEnd_commandEnd (s : State) :
    CommandEnd .save s
      (closeOutput (saveEnd (saveExtent s) (withOutput (encodeFrame s) (startCommand s)))) := by
  obtain hlen | hlen := le_or_gt (saveExtent s) s.pixbuf.length
  · rw [saveEnd_of_le (s := withOutput (encodeFrame s) (startCommand s)) hlen]
    exact .of_finish (c := .ok) rfl trivial
  · have hmode := saveExtent_eq_dimensions_of_lt hlen
    rw [saveEnd_of_lt (s := withOutput (encodeFrame s) (startCommand s)) hlen]
    exact .of_raise (c := .oobRead) rfl rfl
      (.inr ⟨rfl, hmode, saveExtent_of_dimensions hmode ▸ hlen⟩)

theorem exec_save_commandEnd {s t : State} (hrun : s.faulted = false)
    (h : exec .save s = .next t) : CommandEnd .save s t := by
  obtain hopen | ⟨i, hi, hfail⟩ | hok := draws_trichotomy s.outDraws (encodeFrame s).length
  · obtain rfl := exec_next_unique h (exec_save_of_openFail hrun hopen)
    exact .of_finish (c := .ioError) rfl (.inl ⟨.inl rfl, not_noDraws_of_openFail hopen⟩)
  · obtain rfl := exec_next_unique h (exec_save_of_firstFailure hrun hfail hi)
    exact .of_finish (c := .ioError) rfl (.inl ⟨.inl rfl, hfail.not_noDraws⟩)
  · obtain rfl := exec_next_unique h (exec_save_of_noFailure hrun hok)
    exact saveEnd_commandEnd s

theorem exec_encChannel_commandEnd {s t : State} (hrun : s.faulted = false)
    (h : exec .encChannel s = .next t) : CommandEnd .encChannel s t := by
  obtain hopen | ⟨i, hi, hfail⟩ | hok :=
    draws_trichotomy s.outDraws (chanEnc s.cfg (channelOperand s)).length
  · obtain rfl := exec_next_unique h (exec_encChannel_of_openFail hrun hopen)
    exact .of_finish (c := .ioError) rfl (.inl ⟨.inr rfl, not_noDraws_of_openFail hopen⟩)
  · obtain rfl := exec_next_unique h (exec_encChannel_of_firstFailure hrun hfail hi)
    exact .of_finish (c := .ioError) rfl (.inl ⟨.inr rfl, hfail.not_noDraws⟩)
  · obtain rfl := exec_next_unique h (exec_encChannel_of_noFailure hrun hok)
    exact .of_finish (c := .ok) rfl trivial

/-! ## The loop of the readers (R67, R177, R228) -/

/-- Where the command goes on `R` holds, and where it has ended `E` holds. -/
def Flow.Ensures (R E : State → Prop) : Flow → Prop
  | .more s => R s
  | .ended s => E s

/-- The induction over the bytes of a stream, with an invariant `R` of the bytes the command goes on after and a
property `E` of every end. -/
theorem readLoop_ensures {R E : State → Prop} {onByte : Byte → State → Flow}
    {onEnd : State → State}
    (hbyte : ∀ b rest s, R s → (onByte b (consume rest s)).Ensures R E)
    (hfail : ∀ s, R s → s.inDraws.xferFails s.dec.pos = true → E (finish .ioError s))
    (hend : ∀ s, R s → E (onEnd s)) (bytes : List Byte) (s : State) (hs : R s) :
    E (readLoop onByte onEnd bytes s).state := by
  induction bytes generalizing s with
  | nil => exact hend s hs
  | cons b rest ih =>
    cases hread : s.inDraws.xferFails s.dec.pos with
    | true =>
      rw [readLoop_cons_of_fail _ _ _ _ _ hread]
      exact hfail s hs hread
    | false =>
      rw [readLoop_cons_of_ok _ _ _ _ _ hread]
      have hflow := hbyte b rest s hs
      cases e : onByte b (consume rest s) with
      | more t => rw [e] at hflow; exact ih t hflow
      | ended t => rw [e] at hflow; exact hflow

/-- A reader that the dispatch let run from `s` has come to `u` and goes on: only VWARN was written to STATUS since. -/
def ReadingFrom (s u : State) : Prop :=
  u.cfg = s.cfg ∧ u.inDraws = s.inDraws ∧ u.result = s.result ∧
    ∃ vwarn, u.status = runningStatus s.status vwarn

section Reading

variable {i : Instr} {s u : State}

theorem readingFrom_of_started (hcfg : u.cfg = s.cfg) (hdraws : u.inDraws = s.inDraws)
    (hresult : u.result = s.result) (hstatus : u.status = clearWarnings s.status) :
    ReadingFrom s u :=
  ⟨hcfg, hdraws, hresult, false, hstatus.trans (runningStatus_false _).symm⟩

theorem ReadingFrom.of_goesOn {v : State} (h : ReadingFrom s u) (hcfg : v.cfg = u.cfg)
    (hgo : GoesOn u v) : ReadingFrom s v := by
  obtain ⟨hucfg, hudraws, huresult, warned, hustatus⟩ := h
  obtain ⟨hresult, hdraws, hstatus⟩ := hgo
  refine ⟨hcfg.trans hucfg, hdraws.trans hudraws, hresult.trans huresult, ?_⟩
  obtain e | e := hstatus
  · exact ⟨warned, e.trans hustatus⟩
  · exact ⟨true, by rw [e, hustatus, setVwarn_runningStatus]⟩

theorem ReadingFrom.statusFault_eq (h : ReadingFrom s u) :
    statusFault u.status = statusFault s.status := by
  obtain ⟨_, _, _, vwarn, hstatus⟩ := h
  rw [hstatus, statusFault_runningStatus]

theorem ReadingFrom.finish_ok (h : ReadingFrom s u) {v : State}
    (hfault : statusFault v.status = statusFault u.status) :
    CommandEnd i s (closeInput (finish .ok v)) :=
  .finished .ok v.status rfl (hfault.trans h.statusFault_eq) trivial

theorem ReadingFrom.finish_ioError (h : ReadingFrom s u) (hi : i = .load ∨ i = .decChannel)
    (hfail : u.inDraws.xferFails u.dec.pos = true) :
    CommandEnd i s (closeInput (finish .ioError u)) := by
  have hfault := h.statusFault_eq
  obtain ⟨_, hdraws, _⟩ := h
  exact .finished .ioError u.status rfl hfault
    (.inr ⟨hi, hdraws ▸ not_noDraws_of_xferFails hfail⟩)

theorem ReadingFrom.raise (h : ReadingFrom s u) {c : Cause}
    (hmay : MayFault i s (closeInput (raiseFault c u)) c) :
    CommandEnd i s (closeInput (raiseFault c u)) := by
  obtain ⟨_, _, hresult, vwarn, hstatus⟩ := h
  exact .tookFault c vwarn (congrArg (fun w => setFault w c) hstatus) hresult hmay

end Reading

/-- Only P_RUN_OVERFLOW = FAULT leaves a run without a value (R223). -/
theorem runOverflow_of_chan_eq_none {c : Config} {run : Nat} (h : chan c run = none) :
    c.runOverflow = .fault := by
  obtain hle | hlt := le_or_gt run 255
  · cases (chan_of_le hle).symm.trans h
  · cases hmode : c.runOverflow with
    | wrap => cases (chan_wrap hlt hmode).symm.trans h
    | saturate => cases (chan_saturate hlt hmode).symm.trans h
    | fault => rfl

/-! ## DEC_CHANNEL (R228) -/

/-- One byte of DEC_CHANNEL only moves the decoder on, or it ends the command. -/
theorem decChannelByte_cases (b : Byte) (s : State) :
    (∃ d, decChannelByte b s = .more { s with dec := d }) ∨
      (∃ v, decChannelByte b s = .ended (finish .ok { s with result := v })) ∨
      (s.cfg.runOverflow = .fault ∧
        decChannelByte b s = .ended (raiseFault .runOverflow s)) := by
  unfold decChannelByte
  split
  · by_cases hterm : s.dec.acc ++ [b] = s.cfg.term
    · rw [hterm, decChannelToken_term]
      cases hchan : chan s.cfg s.dec.run with
      | some v => exact .inr (.inl ⟨_, rfl⟩)
      | none => exact .inr (.inr ⟨runOverflow_of_chan_eq_none hchan, rfl⟩)
    · exact .inl ⟨_, decChannelToken_unit hterm⟩
  · exact .inl ⟨_, rfl⟩

theorem decChannelByte_ensures (b : Byte) (rest : List Byte) {s u : State}
    (h : ReadingFrom s u) :
    (decChannelByte b (consume rest u)).Ensures (ReadingFrom s)
      fun t => CommandEnd .decChannel s (closeInput t) := by
  have hu : ReadingFrom s (consume rest u) := h
  obtain ⟨d, e⟩ | ⟨v, e⟩ | ⟨hmode, e⟩ := decChannelByte_cases b (consume rest u) <;> rw [e]
  · exact hu
  · exact hu.finish_ok rfl
  · obtain ⟨hcfg, _⟩ := h
    exact hu.raise (c := .runOverflow) ⟨.inr rfl, hcfg ▸ hmode⟩

theorem exec_decChannel_commandEnd {s t : State} (hrun : s.faulted = false)
    (h : exec .decChannel s = .next t) : CommandEnd .decChannel s t := by
  cases hopen : s.inDraws.openFail with
  | true =>
    obtain rfl := exec_next_unique h (exec_decChannel_of_openFail hrun hopen)
    exact .of_finish (c := .ioError) rfl (.inr ⟨.inr rfl, not_noDraws_of_openFail hopen⟩)
  | false =>
    obtain rfl := exec_next_unique h (exec_decChannel_of_open hrun hopen)
    refine readLoop_ensures (R := ReadingFrom s)
      (E := fun u => CommandEnd .decChannel s (closeInput u))
      (fun b rest u hu => decChannelByte_ensures b rest hu)
      (fun u hu hfail => hu.finish_ioError (.inr rfl) hfail)
      (fun u hu => hu.finish_ok ?_) _ _ (readingFrom_of_started rfl rfl rfl rfl)
    exact statusFault_setTrunc u.status true

/-! ## LOAD (R177 to R191) -/

theorem completeBody_ended {tok : List Byte} {s u : State} (h : completeBody tok s = .ended u) :
    (s.cfg.maxPixels ≤ s.pixbuf.length ∧ u = raiseFault .capacity s) ∨
      (s.cfg.runOverflow = .fault ∧ u = raiseFault .runOverflow s) := by
  unfold completeBody at h
  split at h
  · split at h
    · unfold emitChannels at h
      split at h
      · next r g b _ =>
        obtain ⟨hfull, e⟩ | ⟨_, e⟩ := pixAppend_cases ⟨r, g, b⟩ s <;> rw [e] at h <;> cases h
        exact .inl ⟨hfull, rfl⟩
      · cases h
    · next hchan =>
      cases h
      exact .inr ⟨runOverflow_of_chan_eq_none hchan, rfl⟩
  · cases h

/-- A byte that ends LOAD rejects the signature, or takes one of the two faults of the pixel stream. -/
theorem loadByte_ended {b : Byte} {s u : State} (h : loadByte b s = .ended u) :
    (s.dec.phase = .sig ∧ u = finish .formatError s) ∨
      (s.cfg.maxPixels ≤ s.pixbuf.length ∧ u = raiseFault .capacity s) ∨
      (s.cfg.runOverflow = .fault ∧ u = raiseFault .runOverflow s) := by
  unfold loadByte at h
  split at h
  · cases hphase : s.dec.phase <;> simp only [completeField, hphase] at h
    case sig =>
      unfold completeSig at h
      split at h <;> cases h
      exact .inl ⟨rfl, rfl⟩
    case ver => cases h
    case wid => cases h
    case hgt => cases h
    case body => exact .inr (completeBody_ended h)
  · cases h

theorem loadByte_more_goesOn {b : Byte} {s t : State} (h : loadByte b s = .more t) :
    GoesOn s t := by
  by_cases hphase : s.dec.phase = .sig
  · unfold loadByte at h
    split at h
    · simp only [completeField, hphase, completeSig] at h
      split at h <;> cases h
      exact goesOn_of_unchanged rfl rfl rfl
    · cases h
      exact goesOn_of_unchanged rfl rfl rfl
  · obtain ⟨c, e⟩ | ⟨v, e, hgo⟩ := loadByte_faultsOrGoesOn b hphase <;> cases e.symm.trans h
    exact hgo

theorem loadByte_more_cfg {b : Byte} {s t : State} (h : loadByte b s = .more t) :
    t.cfg = s.cfg := by
  have hframe := loadByte_loadWrites b s
  rw [h, Flow.state_more, OnlyLoadWrites] at hframe
  rw [hframe]

/-- No field is complete where LOAD still reads the signature, so it has stored nothing (R181). -/
theorem loadByte_more_of_phase_sig {b : Byte} {s t : State} (h : loadByte b s = .more t)
    (ht : t.dec.phase = .sig) : s.dec.phase = .sig ∧ SameImage s t := by
  by_cases hdone : (s.dec.acc ++ [b]).length = need s.cfg s.dec.phase
  · rw [loadByte_of_complete hdone] at h
    obtain ⟨hphase, _⟩ := completeField_beginsNext h
    exact absurd (hphase.symm.trans ht) (nextPhase_ne_sig _)
  · rw [loadByte_of_incomplete hdone] at h
    cases h
    exact ⟨ht, rfl, rfl, rfl⟩

/-- LOAD has come from `s` to `u` and goes on: while it reads the signature the image is that of `s` (R181). -/
def LoadingFrom (s u : State) : Prop :=
  ReadingFrom s u ∧ (u.dec.phase = .sig → SameImage s u)

section Loading

variable {s u : State}

theorem LoadingFrom.of_loadByte {b : Byte} {v : State} (hu : LoadingFrom s u)
    (h : loadByte b u = .more v) : LoadingFrom s v := by
  obtain ⟨hreading, himage⟩ := hu
  refine ⟨hreading.of_goesOn (loadByte_more_cfg h) (loadByte_more_goesOn h), fun hphase => ?_⟩
  obtain ⟨husig, hw, hh, hbuf⟩ := loadByte_more_of_phase_sig h hphase
  obtain ⟨huw, huh, hubuf⟩ := himage husig
  exact ⟨hw.trans huw, hh.trans huh, hbuf.trans hubuf⟩

theorem LoadingFrom.finish_formatError (hu : LoadingFrom s u) (hphase : u.dec.phase = .sig) :
    CommandEnd .load s (closeInput (finish .formatError u)) := by
  obtain ⟨hreading, himage⟩ := hu
  have hfault := hreading.statusFault_eq
  obtain ⟨_, _, hresult, _⟩ := hreading
  exact .finished .formatError u.status rfl hfault ⟨rfl, himage hphase, hresult⟩

theorem LoadingFrom.ensures_loadByte (b : Byte) (rest : List Byte) (h : LoadingFrom s u) :
    (loadByte b (consume rest u)).Ensures (LoadingFrom s)
      fun t => CommandEnd .load s (closeInput t) := by
  have hu : LoadingFrom s (consume rest u) := h
  have ⟨hreading, _⟩ := hu
  have ⟨hcfg, _⟩ := hreading
  cases e : loadByte b (consume rest u) with
  | more t => exact hu.of_loadByte e
  | ended t =>
    obtain ⟨hphase, rfl⟩ | ⟨hfull, rfl⟩ | ⟨hmode, rfl⟩ := loadByte_ended e
    · exact hu.finish_formatError hphase
    · exact hreading.raise (c := .capacity) (.inr (.inr ⟨rfl, hcfg ▸ hfull⟩))
    · exact hreading.raise (c := .runOverflow) ⟨.inl rfl, hcfg ▸ hmode⟩

/-- The end of the stream is FORMAT_ERROR inside the signature and OK after it (R191). -/
theorem LoadingFrom.commandEnd_loadEnd (h : LoadingFrom s u) :
    CommandEnd .load s (closeInput (loadEnd u)) := by
  have ⟨hreading, _⟩ := h
  have hcut : CommandEnd .load s (closeInput (headerCutShort u)) :=
    hreading.finish_ok (statusFault_setTrunc u.status true)
  cases hphase : u.dec.phase <;> simp only [loadEnd, hphase]
  case sig => exact h.finish_formatError hphase
  case ver => exact hcut
  case wid => exact hcut
  case hgt => exact hcut
  case body =>
    refine hreading.finish_ok ?_
    cases bodyLeftover u.dec
    · rfl
    · exact statusFault_setTrunc u.status true

end Loading

theorem exec_load_commandEnd {s t : State} (hrun : s.faulted = false)
    (h : exec .load s = .next t) : CommandEnd .load s t := by
  cases hopen : s.inDraws.openFail with
  | true =>
    obtain rfl := exec_next_unique h (exec_load_of_openFail hrun hopen)
    exact .of_finish (c := .ioError) rfl (.inr ⟨.inl rfl, not_noDraws_of_openFail hopen⟩)
  | false =>
    obtain rfl := exec_next_unique h (exec_load_of_open hrun hopen)
    have hstart : LoadingFrom s (beginning .sig 0 s.input (startCommand s)) :=
      ⟨readingFrom_of_started rfl rfl rfl rfl, fun _ => ⟨rfl, rfl, rfl⟩⟩
    exact readLoop_ensures (R := LoadingFrom s) (E := fun u => CommandEnd .load s (closeInput u))
      (fun b rest u hu => hu.ensures_loadByte b rest)
      (fun u ⟨hreading, _⟩ hfail => hreading.finish_ioError (.inl rfl) hfail)
      (fun u hu => hu.commandEnd_loadEnd) _ _ hstart

/-! ## All twelve commands -/

/-- How a command that runs ends: with one code or with one fault, for one of that command's own reasons. -/
theorem exec_commandEnd {i : Instr} {s t : State} (hrun : s.faulted = false)
    (h : exec i s = .next t) : CommandEnd i s t := by
  cases i with
  | getPixel => exact exec_getPixel_commandEnd hrun h
  | setPixel => exact exec_setPixel_commandEnd hrun h
  | setPixels => exact exec_setPixels_commandEnd hrun h
  | save => exact exec_save_commandEnd hrun h
  | encChannel => exact exec_encChannel_commandEnd hrun h
  | load => exact exec_load_commandEnd hrun h
  | decChannel => exact exec_decChannel_commandEnd hrun h
  | getWidth | getHeight | getPixels | setWidth | setHeight =>
    obtain rfl := eq_commandBody_of_running hrun h
    exact .of_finish (c := .ok) rfl trivial

theorem CommandEnd.fault_of_faulted {i : Instr} {s t : State} (h : CommandEnd i s t)
    (hrun : s.faulted = false) (ht : t.faulted = true) :
    ∃ c vwarn, t.status = setFault (runningStatus s.status vwarn) c ∧ t.result = s.result ∧
      MayFault i s t c := by
  cases h with
  | finished c w hstatus hfault _ =>
    rw [State.faulted, hstatus, statusFault_setCode, hfault] at ht
    cases hrun.symm.trans ht
  | tookFault c vwarn hstatus hresult hmay => exact ⟨c, vwarn, hstatus, hresult, hmay⟩

theorem CommandEnd.code_of_running {i : Instr} {s t : State} (h : CommandEnd i s t)
    (ht : t.faulted = false) : ∃ c, statusCode t.status = codeNumber c ∧ MayFinish i s t c := by
  cases h with
  | finished c w hstatus _ hmay => exact ⟨c, by rw [hstatus, statusCode_setCode], hmay⟩
  | tookFault c vwarn hstatus _ _ =>
    rw [State.faulted, hstatus, statusFault_setFault] at ht
    cases ht

end Sys2Proof.Machine
end

