-- ==== Sys2Proof/Proofs/Exceptions.lean ====
section
/-! PROOFS. The statements of `60_exceptions.md`: the ends of the commands by their codes and causes (R251 to R257), the
faulted block (R265), the idle one (R274) and the overlap that is refused (R272). -/

namespace Sys2Proof.Machine

open Sys2Proof

/-! ## Codes and causes -/

theorem statusCode_runningStatus (w : Word) (b : Bool) :
    statusCode (runningStatus w b) = statusCode w := by
  simp [runningStatus]

theorem statusTrunc_runningStatus (w : Word) (b : Bool) :
    statusTrunc (runningStatus w b) = false := by
  simp [runningStatus]

theorem causeNumber_eq_one_or_two_or_three (c : Cause) :
    causeNumber c = 1 ∨ causeNumber c = 2 ∨ causeNumber c = 3 := by
  cases c <;> decide

theorem causeNumber_injective {c d : Cause} (h : causeNumber c = causeNumber d) : c = d := by
  revert h
  cases c <;> cases d <;> decide

theorem codeNumber_injective {c d : ResultCode} (h : codeNumber c = codeNumber d) : c = d := by
  revert h
  cases c <;> cases d <;> decide

theorem MayFault.of_number {i : Instr} {s t : State} {c : Cause} (h : MayFault i s t c)
    (d : Cause) (hnumber : causeNumber c = causeNumber d) : MayFault i s t d :=
  causeNumber_injective hnumber ▸ h

theorem MayFinish.of_number {i : Instr} {s t : State} {c : ResultCode} (h : MayFinish i s t c)
    (d : ResultCode) (hnumber : codeNumber c = codeNumber d) : MayFinish i s t d :=
  codeNumber_injective hnumber ▸ h

/-- Settles O38: the fault is raised on a STATUS in which only the two warnings were written. -/
theorem faultKeepsResultAndCode : Obligations.FaultKeepsResultAndCode := by
  unfold Obligations.FaultKeepsResultAndCode
  intro i s t hrun h ht
  obtain ⟨c, vwarn, hstatus, hresult, _⟩ := (exec_commandEnd hrun h).fault_of_faulted hrun ht
  rw [hstatus, statusCode_setFault, statusTrunc_setFault, statusFcause_setFault,
    statusCode_runningStatus, statusTrunc_runningStatus]
  exact ⟨hresult, rfl, rfl, causeNumber_eq_one_or_two_or_three c⟩

/-- Settles O39: FCAUSE numbers the cause raised, and with it the reason of that command. -/
theorem faultCausesByCommand : Obligations.FaultCausesByCommand := by
  unfold Obligations.FaultCausesByCommand
  intro i s t hrun h ht
  obtain ⟨c, vwarn, hstatus, _, hmay⟩ := (exec_commandEnd hrun h).fault_of_faulted hrun ht
  rw [hstatus, statusFcause_setFault]
  exact ⟨hmay.of_number .oobRead, hmay.of_number .capacity, hmay.of_number .runOverflow⟩

/-- Settles O40: CODE numbers the code of the `finish`, and with it the reason of that command. -/
theorem resultCodesByCommand : Obligations.ResultCodesByCommand := by
  unfold Obligations.ResultCodesByCommand
  intro i s t hrun h ht
  obtain ⟨c, hcode, hmay⟩ := (exec_commandEnd hrun h).code_of_running ht
  rw [hcode]
  refine ⟨?_, hmay.of_number .ioError, hmay.of_number .formatError⟩
  cases c with
  | ok => exact .inl rfl
  | ioError => exact .inr (.inl rfl)
  | formatError => exact .inr (.inr rfl)
  | illegalCmd => exact hmay.elim

/-! ## The faulted, the idle and the busy block -/

/-- Settles O36: the dispatch runs no body while FAULT = 1. -/
theorem faultedBlockIgnoresCommands : Obligations.FaultedBlockIgnoresCommands := by
  unfold Obligations.FaultedBlockIgnoresCommands
  intro s hf
  refine ⟨fun i => exec_of_faulted i s hf, fun w rest hs => ?_⟩
  rw [step_action s _ rest hs]
  exact issue_of_faulted w { s with script := rest } hf

/-- Settles O45: with no action to take the step is idle. -/
theorem idleStepHoldsState : Obligations.IdleStepHoldsState := by
  unfold Obligations.IdleStepHoldsState
  exact step_idle

/-- Settles O49: the step takes the action `overlap`, which has no other answer. -/
theorem overlappingCommandRefused : Obligations.OverlappingCommandRefused := by
  unfold Obligations.OverlappingCommandRefused
  intro s first second rest hs
  rw [step_action s _ rest hs]
  rfl

end Sys2Proof.Machine
end

