-- ==== Sys2Proof/Proofs/Reset.lean ====
section
/-! PROOFS. Reset (`70_reset_and_hazards.md` R290, R292): the registers it leaves, between two commands and inside one,
the output that stays written, and the invariant it starts from. -/

namespace Sys2Proof.Machine

open Sys2Proof

/-! ## The configuration at reset -/

/-- The configuration is the drawn one only where that meets the constraints of R10, R11 and R14 (log 2). -/
theorem device_wf : Config.device.wf = true := by
  unfold Config.device
  split
  case isTrue h => exact h
  case isFalse => decide

/-! ## Reset between two commands (R290) -/

theorem hostReset_reset : hostReset State.reset = State.reset := rfl

/-- OUT is no register: whatever a reset leaves in it, the registers are at their reset values. -/
theorem resetRegisters_hostReset (s : State) (out : List Byte) :
    ResetRegisters { hostReset s with output := out } :=
  ⟨rfl, rfl, rfl, rfl, rfl, rfl, rfl, rfl⟩

/-- Settles O47: the step is `hostReset`, and the state of reset is the reset of itself. -/
theorem resetRestoresRegisters : Obligations.ResetRestoresRegisters := by
  unfold Obligations.ResetRestoresRegisters
  refine ⟨hostReset_reset ▸ resetRegisters_hostReset State.reset [], fun s rest hs => ?_⟩
  exact ⟨hostReset { s with script := rest }, step_action s _ rest hs,
    resetRegisters_hostReset { s with script := rest } s.output, rfl, rfl⟩

/-- Settles O52: the invariant holds after every reset of a block whose configuration meets its constraints. -/
theorem invariantHoldsAtReset : Obligations.InvariantHoldsAtReset := by
  unfold Obligations.InvariantHoldsAtReset
  rw [← hostReset_reset]
  exact inv_hostReset State.reset device_wf

/-! ## Reset inside a command (R292) -/

theorem writesOutput_iff (i : Instr) : writesOutput i = true ↔ i = .save ∨ i = .encChannel := by
  cases i <;> decide

theorem issueWritesOutput_of_decode_ok {w : Word} {i : Instr} (h : decode w = .ok i) (s : State) :
    issueWritesOutput w s = (writesOutput i && !s.faulted) := by
  simp only [issueWritesOutput, h]

/-- What stays in OUT when reset strikes inside the command `w` that would have left `u`. -/
def outputKept (w : Word) (n : Nat) (s u : State) : List Byte :=
  if issueWritesOutput w s then u.output.take n else s.output

theorem issueReset_of_issue {w : Word} {s u : State} (h : issue w s = .next u) (n : Nat) :
    issueReset w n s = .next { hostReset s with output := outputKept w n s u } := by
  simp only [issueReset, outputKept, h]
  split <;> rfl

/-- A writer that runs keeps the bytes it has written. -/
theorem outputKept_of_writer {w : Word} {i : Instr} {s : State} (hw : decode w = .ok i)
    (hi : i = .save ∨ i = .encChannel) (hrun : s.faulted = false) (n : Nat) (u : State) :
    outputKept w n s u = u.output.take n := by
  have hwrites : issueWritesOutput w s = true := by
    rw [issueWritesOutput_of_decode_ok hw, (writesOutput_iff i).mpr hi, hrun]
    rfl
  rw [outputKept, if_pos hwrites]

/-- A command that writes no stream leaves OUT as it stood, faulted block or not. -/
theorem outputKept_of_not_writer {w : Word} {i : Instr} {s : State} (hw : decode w = .ok i)
    (hi : i ≠ .save ∧ i ≠ .encChannel) (n : Nat) (u : State) :
    outputKept w n s u = s.output := by
  have hwrites : ¬ issueWritesOutput w s = true := by
    rw [issueWritesOutput_of_decode_ok hw, Bool.and_eq_true, writesOutput_iff]
    exact fun ⟨hwriter, _⟩ => not_or.mpr hi hwriter
  rw [outputKept, if_neg hwrites]

/-- Settles O48: the command answers a next state, and the reset inside it keeps of that state
the output written so far. -/
theorem resetDuringCommand : Obligations.ResetDuringCommand := by
  unfold Obligations.ResetDuringCommand
  intro s w n rest hs
  obtain ⟨u, hu⟩ := issue_next w { s with script := rest }
  refine ⟨_, (step_action s _ rest hs).trans (issueReset_of_issue hu n),
    resetRegisters_hostReset _ _, rfl, rfl, rfl, fun i v hw hv => ?_⟩
  have huv : u = v := exec_next_unique ((issue_of_decode_ok hw _).symm.trans hu) hv
  subst huv
  exact ⟨fun hi hrun => outputKept_of_writer hw hi hrun n u,
    fun hi => outputKept_of_not_writer hw hi n u⟩

end Sys2Proof.Machine
end
